-- ==== Sys2Proof/Word.lean ====
section
/-! DEFINITION. The plain data the block handles: bytes, the two lines, the pad modes, the pad
configuration word by its fields (10_state.md R21 to R25) and a pair of values, one for each line. -/

namespace Sys2Proof

/-- A byte is 8 bits (00_scope.md R6). -/
abbrev Byte := BitVec 8

/-- The two lines: clock and data (R7). -/
inductive Line where
  | scl
  | sda
deriving DecidableEq, Repr, Inhabited

/-- One value for each of the two lines. -/
structure PerLine (α : Type) where
  scl : α
  sda : α
deriving DecidableEq, Repr, Inhabited

/-- The value of line `l`. -/
def PerLine.get {α : Type} (p : PerLine α) (l : Line) : α :=
  match l with
  | .scl => p.scl
  | .sda => p.sda

/-- The pair with the value of line `l` replaced. -/
def PerLine.set {α : Type} (p : PerLine α) (l : Line) (v : α) : PerLine α :=
  match l with
  | .scl => { p with scl := v }
  | .sda => { p with sda := v }

/-- The eight values of the 3-bit pad-mode selector, "GPIO, NF1..NF7" (R22). -/
inductive PadMode where
  | gpio
  | nf1
  | nf2
  | nf3
  | nf4
  | nf5
  | nf6
  | nf7
deriving DecidableEq, Repr, Inhabited

/-- All pad modes, GPIO first. -/
def PadMode.all : List PadMode := [.gpio, .nf1, .nf2, .nf3, .nf4, .nf5, .nf6, .nf7]

/-- A 32-bit pad configuration word by its fields: the five fields of R22 to R24 and the 25 other
bits of R25 as one opaque value. The bit positions of the fields are open (92 D4): `PadWord.toBits`
of Machine/PadBits.lean gives the 32-bit word under any layout, and no step depends on the layout. -/
structure PadWord where
  /-- PMODE, the pad-mode selector. -/
  pmode : PadMode
  /-- RXDIS: true disables the input. -/
  rxdis : Bool
  /-- TXDIS: true disables the output driver. -/
  txdis : Bool
  /-- RXLVL, the input level. -/
  rxlvl : Bool
  /-- TXLVL, the output level. -/
  txlvl : Bool
  /-- The remaining 25 bits. -/
  other : BitVec 25
deriving DecidableEq, Repr, Inhabited

/-- A (port, pad) identity (20_memory.md R51); the widths are not in the source (91 N28). -/
structure PadId where
  port : Nat
  pad : Nat
deriving DecidableEq, Repr, Inhabited

end Sys2Proof
end

