-- ==== Sys2Proof/Config.lean ====
section
/-! DEFINITION. The parameters of 00_scope.md R5 and the free values: what an implementation, a
platform or the environment fixes and the spec leaves open. An `opaque` constant has no body, so
nothing can be proved of its value. -/

namespace Sys2Proof

/-- MAX_BLOCK: the largest payload of smbusBlockWrite (R5). -/
def Config.maxBlock : Nat := 32

/-- HALF_PERIOD in microseconds, the lower bound of one delay (R5, 92 D10). -/
def Config.halfPeriod : Nat := 5

/-- RW_WRITE = 0 (R5, R77, 92 D6). PRESUMED by the spec (G3). -/
def Config.rwWrite : Bool := false

/-- RW_READ = 1 (R5, R77, 92 D6). PRESUMED by the spec (G3). -/
def Config.rwRead : Bool := true

/-- The two readings of a block read's header (92 D13): each header byte sent only if the byte before
it was acknowledged, or all of them sent and then tested. -/
inductive HeaderGating where
  | shortCircuit
  | unconditional
deriving DecidableEq, Repr

/-- BLOCKREAD_GATING (R5, 92 D13, D14): the staged reading. -/
def Config.blockReadGating : HeaderGating := .shortCircuit

/-- The four settings construction makes on each line (R115). -/
inductive PadSetting where
  | inputEnabled
  | outputDisabled
  | gpioMode
  | levelLow
deriving DecidableEq, Repr

/-- The default order of the two captures of construction (92 D8). -/
def Config.defaultCaptureOrder : List Line := [.scl, .sda]

/-- The default order of the eight settings of construction (92 D8). -/
def Config.defaultConstructOrder : List (Line × PadSetting) :=
  [(.scl, .inputEnabled), (.scl, .outputDisabled), (.scl, .gpioMode), (.scl, .levelLow),
   (.sda, .inputEnabled), (.sda, .outputDisabled), (.sda, .gpioMode), (.sda, .levelLow)]

/-- The default order of the two restoring writes (92 D9). -/
def Config.defaultTeardownOrder : List Line := [.scl, .sda]

/-- An order in which the two lines are captured, if it is one: open (R5, 92 D8). -/
opaque Config.openCaptureOrder : List Line

/-- An order in which the eight settings are made, if it is one: open (R5, 92 D8). -/
opaque Config.openConstructOrder : List (Line × PadSetting)

/-- An order in which the two lines are restored, if it is one: open (R5, 92 D9). -/
opaque Config.openTeardownOrder : List Line

/-- CONSTRUCT_ORDER, its captures: open, any order of the two lines (R5, R115, 92 D8). Where the open
list is no order of them the default stands in, so that the value is always an order. -/
def Config.captureOrder : List Line :=
  if Config.openCaptureOrder.Perm Config.defaultCaptureOrder then Config.openCaptureOrder
  else Config.defaultCaptureOrder

/-- CONSTRUCT_ORDER, its settings: open, any order of the eight settings (R5, R115, 92 D8). -/
def Config.constructOrder : List (Line × PadSetting) :=
  if Config.openConstructOrder.Perm Config.defaultConstructOrder then Config.openConstructOrder
  else Config.defaultConstructOrder

/-- TEARDOWN_ORDER: open, any order of the two restoring writes (R5, R116, 92 D9). -/
def Config.teardownOrder : List Line :=
  if Config.openTeardownOrder.Perm Config.defaultTeardownOrder then Config.openTeardownOrder
  else Config.defaultTeardownOrder

/-- DEVICE_ADDR: the retimer's address, open (91 N4). The block takes its address from ADDR. -/
opaque Config.deviceAddr : BitVec 7

/-- BUS_CONFIG: which of the three bus configurations is wired, open (91 N3). -/
opaque Config.busConfig : Fin 3

/-- The pin identities of each bus configuration, open (91 N3). -/
opaque Config.pinIdentity : Fin 3 → Line → PadId

/-- Which identities the register-access collaborator resolves (R51, R90, 93 U15): open. -/
opaque Config.resolves : PadId → Bool

/-- The pad words the platform left before construction: any value, fixed for the run (R185, 93 U1). -/
opaque Config.platformPad : Line → PadWord

/-- What the environment does at one instant: whether the slave pulls each line low (R35), and the
level a pad input or a line reads where the spec does not specify one (R24, R32, 92 D21). -/
structure Sample where
  sclLow : Bool
  sdaLow : Bool
  draw : Bool
deriving DecidableEq, Repr, Inhabited

/-- Whether the slave pulls line `l` low at the instant of the sample. -/
def Sample.low (e : Sample) (l : Line) : Bool :=
  match l with
  | .scl => e.sclLow
  | .sda => e.sdaLow

/-- The environment at the n-th event, where State gives no answer in advance: free (R35, 93 U2, U17). -/
opaque Config.environment : Nat → Sample

/-- The bit positions of the five fields in the 32-bit pad word (R5: PMODE_LSB, RXDIS_BIT, TXDIS_BIT,
RXLVL_BIT, TXLVL_BIT). -/
structure PadLayout where
  pmodeLsb : Nat
  rxdisBit : Nat
  txdisBit : Nat
  rxlvlBit : Nat
  txlvlBit : Nat
deriving DecidableEq, Repr, Inhabited

/-- The seven bit positions the five fields take, the three of PMODE first. -/
def PadLayout.positions (p : PadLayout) : List Nat :=
  [p.pmodeLsb, p.pmodeLsb + 1, p.pmodeLsb + 2, p.rxdisBit, p.txdisBit, p.rxlvlBit, p.txlvlBit]

/-- The fields are pairwise disjoint and inside bits 31 to 0 (R25, 92 D4). -/
abbrev PadLayout.Valid (p : PadLayout) : Prop :=
  p.positions.Nodup ∧ ∀ i ∈ p.positions, i < 32

/-- An injective assignment of 3-bit codes to the eight modes (92 D5). -/
abbrev ValidModeCode (code : PadMode → BitVec 3) : Prop :=
  (PadMode.all.map code).Nodup

/-- Five open numbers. -/
opaque Config.openLayout : PadLayout

/-- Eight open codes. -/
opaque Config.openModeCode : PadMode → BitVec 3

/-- The candidate layout of 93 G1, offered there as general knowledge and not adopted. -/
def PadLayout.candidate : PadLayout :=
  { pmodeLsb := 10, rxdisBit := 9, txdisBit := 8, rxlvlBit := 1, txlvlBit := 0 }

/-- The candidate mode codes of 93 G2, not adopted. -/
def PadMode.candidateCode : PadMode → BitVec 3
  | .gpio => 0
  | .nf1 => 1
  | .nf2 => 2
  | .nf3 => 3
  | .nf4 => 4
  | .nf5 => 5
  | .nf6 => 6
  | .nf7 => 7

/-- The layout of this hardware: open, any valid one (92 D4). Where the open numbers are no layout at
all the candidate stands in, so that the value is always a valid layout. -/
def Config.padLayout : PadLayout :=
  if Config.openLayout.Valid then Config.openLayout else PadLayout.candidate

/-- PMODE_CODE of this hardware: open, any injective map (92 D5). -/
def Config.modeCode : PadMode → BitVec 3 :=
  if ValidModeCode Config.openModeCode then Config.openModeCode else PadMode.candidateCode

end Sys2Proof
end

