-- ==== Sys2Proof/Syntax.lean ====
section
/-! DEFINITION. The operations and wire formats: one constructor for each row of
spec/opcode_table.json (30_encoding.md R82, R75 to R79). Operands of a request that are registers
(R28) are read from State; only what the row encodes stands here. -/

namespace Sys2Proof

/-- One constructor per row of the opcode table. -/
inductive Instr where
  /-- `open` (0x00), R90. -/
  | openPad
  /-- `getConfig` (0x01), R91. -/
  | getConfig (l : Line)
  /-- `setConfig` (0x02), R92. -/
  | setConfig (l : Line)
  /-- `setPadMode` (0x03), R93. -/
  | setPadMode (l : Line)
  /-- `enableRx` (0x04), R94. -/
  | enableRx (l : Line)
  /-- `enableTx` (0x05), R95. -/
  | enableTx (l : Line)
  /-- `getRx` (0x06), R96. -/
  | getRx (l : Line)
  /-- `getTx` (0x07), R97. -/
  | getTx (l : Line)
  /-- `setTx` (0x08), R98. -/
  | setTx (l : Line)
  /-- `construct` (0x10), R115. -/
  | construct
  /-- `teardown` (0x11), R116. -/
  | teardown
  /-- `start` (0x12), R117. -/
  | start
  /-- `stop` (0x13), R118. -/
  | stop
  /-- `writeBit` (0x14), R119. -/
  | writeBit
  /-- `readBit` (0x15), R120. -/
  | readBit
  /-- `writeByte` (0x16), R121. -/
  | writeByte
  /-- `readByte` (0x17), R122. -/
  | readByte
  /-- `delay` (0x18), R110. -/
  | delay
  /-- `smbusBlockWrite` (0x20), R141. -/
  | smbusBlockWrite
  /-- `smbusBlockRead` (0x21), R143. -/
  | smbusBlockRead
  /-- `readAtOffset` (0x22), R145. -/
  | readAtOffset
  /-- `wire.addr_write`: the address byte with the write bit, R77. -/
  | wireAddrWrite (a : BitVec 7)
  /-- `wire.addr_read`: the address byte with the read bit, R77. -/
  | wireAddrRead (a : BitVec 7)
  /-- `wire.command`: the command byte, R79. -/
  | wireCommand (c : Byte)
  /-- `wire.count`: the count byte, R78 (a). -/
  | wireCount (n : BitVec 6)
  /-- `wire.offset_high`: the high offset byte, R78 (b). -/
  | wireOffsetHigh (h : Byte)
  /-- `wire.offset_low`: the low offset byte, R78 (b). -/
  | wireOffsetLow (b : Byte)
  /-- `wire.data`: a payload byte, R75. -/
  | wireData (d : Byte)
  /-- `wire.ack`: the acknowledgment bit 0, R76. -/
  | wireAck
  /-- `wire.nack`: the acknowledgment bit 1, R76. -/
  | wireNack
deriving DecidableEq, Repr

/-- Where an encoded word is met: at the request interface, or at a place of a wire frame (R77 to R81).
The wire formats overlap as bit patterns, and an observer tells them apart by their place. -/
inductive Slot where
  | request
  | addressByte
  | commandByte
  | countByte
  | offsetHighByte
  | offsetLowByte
  | dataByte
  | ackBit
deriving DecidableEq, Repr

end Sys2Proof
end

