-- ==== Sys2Proof/WellFormed.lean ====
section
/-! DEFINITION. Which instructions the encodings admit. The types of the operands hold all but one
check: a count byte is 0 to 32 (30_encoding.md R78 (a); the table: values 33 to 63 are never sent). -/

namespace Sys2Proof

/-- The instruction's operands are values the encoding admits. -/
def Instr.wellFormed (i : Instr) : Bool :=
  match i with
  | .openPad => true
  | .getConfig _ => true
  | .setConfig _ => true
  | .setPadMode _ => true
  | .enableRx _ => true
  | .enableTx _ => true
  | .getRx _ => true
  | .getTx _ => true
  | .setTx _ => true
  | .construct => true
  | .teardown => true
  | .start => true
  | .stop => true
  | .writeBit => true
  | .readBit => true
  | .writeByte => true
  | .readByte => true
  | .delay => true
  | .smbusBlockWrite => true
  | .smbusBlockRead => true
  | .readAtOffset => true
  | .wireAddrWrite _ => true
  | .wireAddrRead _ => true
  | .wireCommand _ => true
  | .wireCount n => decide (n.toNat ≤ Config.maxBlock)
  | .wireOffsetHigh _ => true
  | .wireOffsetLow _ => true
  | .wireData _ => true
  | .wireAck => true
  | .wireNack => true

end Sys2Proof
end

