-- ==== Sys2Proof/Decode.lean ====
section
/-! DEFINITION. Decoding, total on every 9-bit word in every slot, and the encoder. A request is an
8-bit selector in bits 7 to 0 and, for a GpioLine operation, the line in bit 8 (30_encoding.md R82,
92 D3); a wire byte stands in bits 7 to 0 and an acknowledgment bit in bit 0 (R75 to R79). -/

namespace Sys2Proof

/-- Why a word is no instruction. -/
inductive DecodeError where
  /-- A selector that is not in R82 (R84, R169 (c)). -/
  | unknownSelector (sel : Byte)
  /-- A count byte above 32, never sent (R78 (a)). -/
  | countAboveMaximum (n : Byte)
  /-- Bit 8 is set in a wire byte, which has 8 bits (R75). -/
  | wireByteTooWide (w : BitVec 9)
  /-- A bit above bit 0 is set in an acknowledgment, which is one bit (R76). -/
  | ackTooWide (w : BitVec 9)
deriving DecidableEq, Repr

/-- The line bit beside the selector: 0 is SCL, 1 is SDA (R82, 92 D3). -/
def lineOfBit (b : Bool) : Line := if b then .sda else .scl

/-- The line bit of a line. -/
def bitOfLine (l : Line) : Bool :=
  match l with
  | .scl => false
  | .sda => true

/-- The operation a request word names (R82). The line bit is part of a GpioLine request only. -/
def decodeRequest (w : BitVec 9) : Except DecodeError Instr :=
  let l := lineOfBit (w.getLsbD 8)
  match (w.setWidth 8).toNat with
  | 0x00 => .ok .openPad
  | 0x01 => .ok (.getConfig l)
  | 0x02 => .ok (.setConfig l)
  | 0x03 => .ok (.setPadMode l)
  | 0x04 => .ok (.enableRx l)
  | 0x05 => .ok (.enableTx l)
  | 0x06 => .ok (.getRx l)
  | 0x07 => .ok (.getTx l)
  | 0x08 => .ok (.setTx l)
  | 0x10 => .ok .construct
  | 0x11 => .ok .teardown
  | 0x12 => .ok .start
  | 0x13 => .ok .stop
  | 0x14 => .ok .writeBit
  | 0x15 => .ok .readBit
  | 0x16 => .ok .writeByte
  | 0x17 => .ok .readByte
  | 0x18 => .ok .delay
  | 0x20 => .ok .smbusBlockWrite
  | 0x21 => .ok .smbusBlockRead
  | 0x22 => .ok .readAtOffset
  | _ => .error (.unknownSelector (w.setWidth 8))

/-- The eight bits of a wire byte, or the rejection of a wider word. -/
def wireByteOf (w : BitVec 9) : Except DecodeError Byte :=
  if w.getLsbD 8 then .error (.wireByteTooWide w) else .ok (w.setWidth 8)

/-- The format at a place of a wire frame (R75 to R79). -/
def decode (slot : Slot) (w : BitVec 9) : Except DecodeError Instr :=
  match slot with
  | .request => decodeRequest w
  | .addressByte => do
      let b ← wireByteOf w
      if b.getLsbD 0 then pure (.wireAddrRead (b.extractLsb' 1 7))
      else pure (.wireAddrWrite (b.extractLsb' 1 7))
  | .commandByte => do
      let b ← wireByteOf w
      pure (.wireCommand b)
  | .countByte => do
      let b ← wireByteOf w
      if b.toNat ≤ Config.maxBlock then pure (.wireCount (b.setWidth 6))
      else .error (.countAboveMaximum b)
  | .offsetHighByte => do
      let b ← wireByteOf w
      pure (.wireOffsetHigh b)
  | .offsetLowByte => do
      let b ← wireByteOf w
      pure (.wireOffsetLow b)
  | .dataByte => do
      let b ← wireByteOf w
      pure (.wireData b)
  | .ackBit =>
      match w.toNat with
      | 0 => .ok .wireAck
      | 1 => .ok .wireNack
      | _ => .error (.ackTooWide w)

/-- The place where an instruction's word is met. -/
def slotOf (i : Instr) : Slot :=
  match i with
  | .openPad => .request
  | .getConfig _ => .request
  | .setConfig _ => .request
  | .setPadMode _ => .request
  | .enableRx _ => .request
  | .enableTx _ => .request
  | .getRx _ => .request
  | .getTx _ => .request
  | .setTx _ => .request
  | .construct => .request
  | .teardown => .request
  | .start => .request
  | .stop => .request
  | .writeBit => .request
  | .readBit => .request
  | .writeByte => .request
  | .readByte => .request
  | .delay => .request
  | .smbusBlockWrite => .request
  | .smbusBlockRead => .request
  | .readAtOffset => .request
  | .wireAddrWrite _ => .addressByte
  | .wireAddrRead _ => .addressByte
  | .wireCommand _ => .commandByte
  | .wireCount _ => .countByte
  | .wireOffsetHigh _ => .offsetHighByte
  | .wireOffsetLow _ => .offsetLowByte
  | .wireData _ => .dataByte
  | .wireAck => .ackBit
  | .wireNack => .ackBit

/-- A GpioLine request: the line bit beside the selector (R82, format gpio_request). -/
def gpioRequest (l : Line) (sel : Byte) : BitVec 9 := BitVec.ofBool (bitOfLine l) ++ sel

/-- A request of a format without a line bit, or a wire byte: bit 8 is 0. -/
def plainWord (b : Byte) : BitVec 9 := 0#1 ++ b

/-- The word of a well-formed instruction in its slot, from the table of R82 and R75 to R79. -/
def encode (i : Instr) : BitVec 9 :=
  match i with
  | .openPad => plainWord 0x00
  | .getConfig l => gpioRequest l 0x01
  | .setConfig l => gpioRequest l 0x02
  | .setPadMode l => gpioRequest l 0x03
  | .enableRx l => gpioRequest l 0x04
  | .enableTx l => gpioRequest l 0x05
  | .getRx l => gpioRequest l 0x06
  | .getTx l => gpioRequest l 0x07
  | .setTx l => gpioRequest l 0x08
  | .construct => plainWord 0x10
  | .teardown => plainWord 0x11
  | .start => plainWord 0x12
  | .stop => plainWord 0x13
  | .writeBit => plainWord 0x14
  | .readBit => plainWord 0x15
  | .writeByte => plainWord 0x16
  | .readByte => plainWord 0x17
  | .delay => plainWord 0x18
  | .smbusBlockWrite => plainWord 0x20
  | .smbusBlockRead => plainWord 0x21
  | .readAtOffset => plainWord 0x22
  | .wireAddrWrite a => plainWord (a ++ 0#1)
  | .wireAddrRead a => plainWord (a ++ 1#1)
  | .wireCommand c => plainWord c
  | .wireCount n => plainWord (0#2 ++ n)
  | .wireOffsetHigh h => plainWord h
  | .wireOffsetLow b => plainWord b
  | .wireData d => plainWord d
  | .wireAck => 0#9
  | .wireNack => 1#9

/-- A row of spec/opcode_table.json: the bits its mask fixes and their values. -/
structure TableRow where
  mnemonic : String
  slot : Slot
  mask : BitVec 9
  pattern : BitVec 9
deriving DecidableEq, Repr

/-- The rows of the request formats (R82). -/
def requestRows : List TableRow :=
  [{ mnemonic := "open", slot := .request, mask := 0x0FF, pattern := 0x000 },
   { mnemonic := "getConfig", slot := .request, mask := 0x0FF, pattern := 0x001 },
   { mnemonic := "setConfig", slot := .request, mask := 0x0FF, pattern := 0x002 },
   { mnemonic := "setPadMode", slot := .request, mask := 0x0FF, pattern := 0x003 },
   { mnemonic := "enableRx", slot := .request, mask := 0x0FF, pattern := 0x004 },
   { mnemonic := "enableTx", slot := .request, mask := 0x0FF, pattern := 0x005 },
   { mnemonic := "getRx", slot := .request, mask := 0x0FF, pattern := 0x006 },
   { mnemonic := "getTx", slot := .request, mask := 0x0FF, pattern := 0x007 },
   { mnemonic := "setTx", slot := .request, mask := 0x0FF, pattern := 0x008 },
   { mnemonic := "construct", slot := .request, mask := 0x0FF, pattern := 0x010 },
   { mnemonic := "teardown", slot := .request, mask := 0x0FF, pattern := 0x011 },
   { mnemonic := "start", slot := .request, mask := 0x0FF, pattern := 0x012 },
   { mnemonic := "stop", slot := .request, mask := 0x0FF, pattern := 0x013 },
   { mnemonic := "writeBit", slot := .request, mask := 0x0FF, pattern := 0x014 },
   { mnemonic := "readBit", slot := .request, mask := 0x0FF, pattern := 0x015 },
   { mnemonic := "writeByte", slot := .request, mask := 0x0FF, pattern := 0x016 },
   { mnemonic := "readByte", slot := .request, mask := 0x0FF, pattern := 0x017 },
   { mnemonic := "delay", slot := .request, mask := 0x0FF, pattern := 0x018 },
   { mnemonic := "smbusBlockWrite", slot := .request, mask := 0x0FF, pattern := 0x020 },
   { mnemonic := "smbusBlockRead", slot := .request, mask := 0x0FF, pattern := 0x021 },
   { mnemonic := "readAtOffset", slot := .request, mask := 0x0FF, pattern := 0x022 }]

/-- The rows of the wire formats (R75 to R79). -/
def wireRows : List TableRow :=
  [{ mnemonic := "wire.addr_write", slot := .addressByte, mask := 0x001, pattern := 0x000 },
   { mnemonic := "wire.addr_read", slot := .addressByte, mask := 0x001, pattern := 0x001 },
   { mnemonic := "wire.command", slot := .commandByte, mask := 0x000, pattern := 0x000 },
   { mnemonic := "wire.count", slot := .countByte, mask := 0x0C0, pattern := 0x000 },
   { mnemonic := "wire.offset_high", slot := .offsetHighByte, mask := 0x000, pattern := 0x000 },
   { mnemonic := "wire.offset_low", slot := .offsetLowByte, mask := 0x000, pattern := 0x000 },
   { mnemonic := "wire.data", slot := .dataByte, mask := 0x000, pattern := 0x000 },
   { mnemonic := "wire.ack", slot := .ackBit, mask := 0x001, pattern := 0x000 },
   { mnemonic := "wire.nack", slot := .ackBit, mask := 0x001, pattern := 0x001 }]

/-- The opcode table. -/
def opcodeTable : List TableRow := requestRows ++ wireRows

/-- A word is of a row: it stands in the row's slot and has the row's fixed bits. -/
def TableRow.Matches (r : TableRow) (slot : Slot) (w : BitVec 9) : Prop :=
  r.slot = slot ∧ w &&& r.mask = r.pattern

/-- The row of an instruction, by its place in the table. -/
def rowIndex (i : Instr) : Nat :=
  match i with
  | .openPad => 0
  | .getConfig _ => 1
  | .setConfig _ => 2
  | .setPadMode _ => 3
  | .enableRx _ => 4
  | .enableTx _ => 5
  | .getRx _ => 6
  | .getTx _ => 7
  | .setTx _ => 8
  | .construct => 9
  | .teardown => 10
  | .start => 11
  | .stop => 12
  | .writeBit => 13
  | .readBit => 14
  | .writeByte => 15
  | .readByte => 16
  | .delay => 17
  | .smbusBlockWrite => 18
  | .smbusBlockRead => 19
  | .readAtOffset => 20
  | .wireAddrWrite _ => 21
  | .wireAddrRead _ => 22
  | .wireCommand _ => 23
  | .wireCount _ => 24
  | .wireOffsetHigh _ => 25
  | .wireOffsetLow _ => 26
  | .wireData _ => 27
  | .wireAck => 28
  | .wireNack => 29

/-- A request word as the request interface takes it from the bits of an opcode-table row. -/
def requestWord (w : Nat) : BitVec 9 := BitVec.ofNat 9 w

/-- The operation the request interface reads from a word of `nbits` bits. The wire formats are not
requestable (R82), so no word is read as one here. -/
def decodeTableWord (nbits w : Nat) : Option Instr :=
  if w % 2 ^ nbits < 2 ^ 9 then
    match decode .request (requestWord (w % 2 ^ nbits)) with
    | .ok i => some i
    | .error _ => none
  else none

end Sys2Proof
end

