-- ==== Sys2Proof/Machine/Flags.lean ====
section
/-! DEFINITION. The one condition flag and the acknowledgment bit (10_state.md R29, 30_encoding.md
R76): two logical negations. -/

namespace Sys2Proof.Machine

/-- ACKED is the logical negation of the bit sampled in the acknowledgment cell (R29, R76, R121). -/
def ackedFlag (sampled : Bool) : Bool := !sampled

/-- The bit the master writes after a byte it read: the negation of `sendAck` (R76, R122). -/
def ackBit (sendAck : Bool) : Bool := !sendAck

end Sys2Proof.Machine
end

