-- ==== Sys2Proof/Machine/State.lean ====
section
/-! DEFINITION. The state of the block (10_state.md R20 to R41) as plain data, the reasons a step
stops, and the state before construction. -/

namespace Sys2Proof.Machine

/-- LIFE: whether an engine exists (R27). -/
inductive Life where
  | absent
  | live
deriving DecidableEq, Repr, Inhabited

/-- PHASE: the ghost bus phase (R34). -/
inductive BusPhase where
  | busIdle
  | inTransaction
  | undefined
deriving DecidableEq, Repr, Inhabited

/-- An event of the trace T (R37). -/
inductive Event where
  /-- `rd(L, w)`: a read of PAD[L] returned `w`. -/
  | rd (l : Line) (w : PadWord)
  /-- `wr(L, w)`: a write of `w` to PAD[L]. -/
  | wr (l : Line) (w : PadWord)
  /-- `dly`: one delay of at least HALF_PERIOD. -/
  | dly
deriving DecidableEq, Repr, Inhabited

/-- Why a request has no meaning. `exec` answers it, and `step` records it in STATUS (R28, R161, V58). -/
inductive Refusal where
  /-- Raised by an arm of `exec` whose instruction has no meaning yet; none has. Safe. -/
  | notModelled (mnemonic : String)
  /-- Raised by every meaning while SEQ is not Idle (R169 (d), R193). Safe. -/
  | busy
  /-- Raised by an engine or block-transfer operation while LIFE is Absent (R27, R169 (a)). Safe. -/
  | engineAbsent
  /-- Raised by `construct` while LIFE is Live (R115, R169 (b)). Safe. -/
  | engineLive
  /-- Raised by `construct` with the same pad for both lines (R169 (b)). Safe. -/
  | samePad
  /-- Raised by `step` for a selector that is not in R82 (R84, R169 (c)). Safe. -/
  | unknownSelector (sel : Byte)
deriving DecidableEq, Repr, Inhabited

/-- The values of STATUS: the names of 60_exceptions.md R161 with the value each records. -/
inductive Status where
  | ok
  /-- Raised by `open`; records the identity (R162). -/
  | identityNotFound (id : PadId)
  /-- Never raised: it shows as ACKED, COUNT or RXBUF (R163). -/
  | ackFailure
  /-- Of the client layer (R166). -/
  | lengthMismatch
  /-- Of the client layer, carrying the register value read (R166). -/
  | deviceError (v : BitVec 32)
  /-- Of the client layer (R166). -/
  | timeout
  /-- Of the model: the request has no meaning; records the reason (R161, R169). -/
  | refused (why : Refusal)
deriving DecidableEq, Repr, Inhabited

/-- The names of the listings a sequencer position can point into: the operations of R82 and the
pseudo-operations of R87. -/
inductive Operation where
  | openPad
  | getConfig
  | setConfig
  | setPadMode
  | enableRx
  | enableTx
  | getRx
  | getTx
  | setTx
  | construct
  | teardown
  | start
  | stop
  | writeBit
  | readBit
  | writeByte
  | readByte
  | delay
  | smbusBlockWrite
  | smbusBlockRead
  | readAtOffset
  | rel
  | low
  | drive
  | smp
deriving DecidableEq, Repr, Inhabited

/-- The operand and result registers of the request interface (R28, R29). -/
structure Registers where
  /-- ID_PORT, operand of `open`. -/
  idPort : Nat
  /-- ID_PAD, operand of `open`. -/
  idPad : Nat
  /-- The handle `open` returned, if it returned one (R82, R90). -/
  handle : Option PadId
  /-- The clock handle handed to `construct` (R115). -/
  clock : Option PadId
  /-- The data handle handed to `construct` (R115). -/
  data : Option PadId
  /-- CFG, 32 bits. -/
  cfg : PadWord
  /-- MODE, 3 bits. -/
  mode : PadMode
  /-- FLAG. -/
  flag : Bool
  /-- BIT: true is 1, high. -/
  bit : Bool
  /-- BYTE. -/
  byte : Byte
  /-- ACKED, the condition flag (R29). -/
  acked : Bool
  /-- ADDR. -/
  addr : BitVec 7
  /-- CMD. -/
  cmd : Byte
  /-- OFFSET. -/
  offset : BitVec 16
  /-- LENGTH. -/
  length : Nat
  /-- TXBUF; TXLEN is its length. -/
  txbuf : List Byte
  /-- COUNT, 0 to 32. -/
  count : BitVec 6
  /-- RXBUF; RXLEN is its length. -/
  rxbuf : List Byte
  /-- STATUS. -/
  status : Status
deriving DecidableEq, Repr, Inhabited

/-- One operand the host hands over before a request (R204). -/
inductive Load where
  | idPort (v : Nat)
  | idPad (v : Nat)
  | clock (v : Option PadId)
  | data (v : Option PadId)
  | cfg (v : PadWord)
  | mode (v : PadMode)
  | flag (v : Bool)
  | bit (v : Bool)
  | byte (v : Byte)
  | addr (v : BitVec 7)
  | cmd (v : Byte)
  | offset (v : BitVec 16)
  | length (v : Nat)
  | txbuf (v : List Byte)
deriving DecidableEq, Repr, Inhabited

/-- One entry of the sequencer's stack: a listing, the step of it that is next, counted from 1, and the
operation-local registers of R31, which exist only while the operation runs. `c` of R31 is not among
them: a read-modify-write is one atomic step (R65, 92 D28). -/
structure SeqFrame where
  operation : Operation
  nextStep : Nat
  /-- The line of a GpioLine operation, of `rel` and of `low`. -/
  line : Line
  /-- The operands, sampled when the operation starts (R28, 92 D18). -/
  operands : Registers
  /-- `i` of R31. -/
  i : BitVec 3
  /-- `v` of R31. -/
  v : Byte
  /-- `b` of R31. -/
  b : Bool
  /-- `n` of R31. -/
  n : Byte
  /-- `k` of R31. -/
  k : Nat
  /-- `cnt` of R31. -/
  cnt : BitVec 6
  /-- `out` of R31. -/
  out : List Byte
  /-- The model's own: every header byte so far was acknowledged (92 D13). -/
  ok : Bool
  /-- The model's own: PHASE when a start, stop or bit cell began (R34). -/
  entry : Option BusPhase
deriving DecidableEq, Repr, Inhabited

/-- A request of the host: the operands it hands over and the 9-bit request word (R82, R204). -/
structure Request where
  loads : List Load
  word : BitVec 9
deriving DecidableEq, Repr, Inhabited

/-- What the host does next (R204). -/
inductive HostAct where
  /-- It makes a request and waits for its end. -/
  | call (r : Request)
  /-- It makes a request and does not wait. -/
  | post (r : Request)
  /-- It changes operand registers, also while an operation runs (R28). -/
  | load (xs : List Load)
  /-- It waits, while the sequencer makes one step (R30). -/
  | wait
deriving DecidableEq, Repr, Inhabited

/-- The state of the block, and the model's own record of its inputs. -/
structure State where
  /-- PAD[SCL], PAD[SDA] (R21). The RXLVL place of a stored word is never read (R24). -/
  pads : PerLine PadWord
  /-- SAVED[SCL], SAVED[SDA] (R26). -/
  saved : PerLine PadWord
  /-- LIFE (R27). -/
  life : Life
  /-- SEQ: the sequencer's stack, innermost first; empty is Idle (R30). -/
  seq : List SeqFrame
  /-- PHASE; none where it is not defined (R34, R40). -/
  phase : Option BusPhase
  /-- T (R37). -/
  trace : List Event
  /-- The operand and result registers (R28, R29). -/
  regs : Registers
  /-- The model's own: what the host will do, its next act first. -/
  requests : List HostAct
  /-- The model's own: the environment's answers, one for each event from the first (R35). -/
  slave : List Sample
  /-- The model's own: the number of events performed, the index into `slave`. -/
  instant : Nat
  /-- The model's own: two drivers have fought (R32, 93 U6). -/
  contention : Bool
deriving DecidableEq, Repr, Inhabited

/-- Why the machine stops. -/
inductive Fault where
  /-- Raised by `step` in a state that records that the master drove a line high while the slave
  pulled it low: "two drivers fight, the level is not specified and a model faults" (R32, 93 U6).
  Safe: the model stops where the hardware goes on. -/
  | lineContention
deriving DecidableEq, Repr

/-- A pad word of zeros under a layout-free reading: the model's reset value of a 32-bit register for
which the spec gives none. DESIGN CHOICE (notes 6, 7), unsafe. -/
def zeroWord : PadWord :=
  { pmode := .gpio, rxdis := false, txdis := false, rxlvl := false, txlvl := false, other := 0 }

/-- The operand and result registers before anything has written them; the spec gives no value (R28).
DESIGN CHOICE (note 7), unsafe. -/
def Registers.reset : Registers :=
  { idPort := 0, idPad := 0, handle := none, clock := none, data := none, cfg := zeroWord,
    mode := .gpio, flag := false, bit := false, byte := 0, acked := false, addr := 0, cmd := 0,
    offset := 0, length := 0, txbuf := [], count := 0, rxbuf := [], status := .ok }

/-- The state before construction (R40, R185): no engine, the pads at whatever the platform left. -/
def State.reset : State :=
  { pads := { scl := Config.platformPad .scl, sda := Config.platformPad .sda },
    saved := { scl := zeroWord, sda := zeroWord },
    life := .absent, seq := [], phase := none, trace := [], regs := Registers.reset,
    requests := [], slave := [], instant := 0, contention := false }

/-- TXLEN (R28). -/
def State.txLen (s : State) : Nat := s.regs.txbuf.length

/-- RXLEN (R28). -/
def State.rxLen (s : State) : Nat := s.regs.rxbuf.length

end Sys2Proof.Machine
end

