-- ==== Sys2Proof/Machine/Ops.lean ====
section
/-! DEFINITION. The operations every meaning is written over: the wire levels (10_state.md R32), the
volatile read and write of a pad word (20_memory.md R59, 40_gpio_line.md R91, R92), the delay's event,
the one way a failure is raised (60_exceptions.md R160 to R172) and the checks a request meets (R169). -/

namespace Sys2Proof.Machine

open Sys2Proof

/-- The stored pad word of line `l`. -/
def State.pad (s : State) (l : Line) : PadWord := s.pads.get l

/-- The environment at the event `k` events from now (R35): the answer given in advance if there is
one, a free value otherwise. -/
def State.sampleAt (s : State) (k : Nat) : Sample :=
  (s.slave[s.instant + k]?).getD (Config.environment (s.instant + k))

/-- The environment at the next event. -/
def State.sample (s : State) : Sample := s.sampleAt 0

/-- `master_low(L)` of R32. -/
def masterLow (w : PadWord) : Bool := decide (w.pmode = .gpio) && !w.txdis && !w.txlvl

/-- `master_high(L)` of R32. -/
def masterHigh (w : PadWord) : Bool := decide (w.pmode = .gpio) && !w.txdis && w.txlvl

/-- Two drivers fight: the master drives high while the slave pulls low (R32, 93 U6). -/
def fights (w : PadWord) (slaveLow : Bool) : Bool := masterHigh w && slaveLow

/-- `LINE[L]` (R32): low if the master or the slave pulls it low, high otherwise in mode GPIO; the
free `draw` where R32 does not specify the level. -/
def lineLevel (w : PadWord) (slaveLow draw : Bool) : Bool :=
  if fights w slaveLow then draw
  else if masterLow w || slaveLow then false
  else if w.pmode = .gpio then true
  else draw

/-- What RXLVL reads (R24, R32): the line's level with the input enabled in mode GPIO, any value
otherwise (92 D21). -/
def inputLevel (w : PadWord) (slaveLow draw : Bool) : Bool :=
  if !w.rxdis && decide (w.pmode = .gpio) then lineLevel w slaveLow draw else draw

/-- The word a read of line `l` returns at the next event: the stored bits with the live input level. -/
def State.readWord (s : State) (l : Line) : PadWord :=
  { s.pad l with rxlvl := inputLevel (s.pad l) (s.sample.low l) s.sample.draw }

/-- With the pads at `p`, the two drivers of some line fight at the event `k` events from now. -/
def State.fightsWith (s : State) (p : PerLine PadWord) (k : Nat) : Bool :=
  fights p.scl ((s.sampleAt k).low .scl) || fights p.sda ((s.sampleAt k).low .sda)

/-- T is open while an engine exists and while one is under construction; before, it is not defined, and
after teardown it is closed (R37, R40). -/
def State.traceOpen (s : State) : Bool :=
  decide (s.life = .live) || s.seq.any (fun f => decide (f.operation = .construct))

/-- T with some events after it, if T is open. -/
def State.record (s : State) (es : List Event) : List Event :=
  if s.traceOpen then s.trace ++ es else s.trace

/-- `emit(e)` of R8: the event is appended to T, if T is open. The environment moves on by one instant,
and a fight of drivers at this instant is recorded. -/
def emit (e : Event) (s : State) : State :=
  { s with trace := s.record [e], instant := s.instant + 1,
           contention := s.contention || s.fightsWith s.pads 0 }

/-- `MemRead(L, 4)`: one volatile read of PAD[L] (R8, R21, R91). -/
def memRead (l : Line) (s : State) : PadWord × State :=
  (s.readWord l, emit (.rd l (s.readWord l)) s)

/-- The word a write leaves stored: the bit at RXLVL does nothing (R24, 92 D22). -/
def storedWord (old v : PadWord) : PadWord := { v with rxlvl := old.rxlvl }

/-- `MemWrite(L, 4, v)`: one volatile write of PAD[L], effective at once (R8, R59, R92). -/
def memWrite (l : Line) (v : PadWord) (s : State) : State :=
  emit (.wr l v) { s with pads := s.pads.set l (storedWord (s.pad l) v) }

/-- A read-modify-write: exactly one read and one write of the same line, whatever the word holds
(R65, R99). -/
def modify (l : Line) (f : PadWord → PadWord) (s : State) : State :=
  let r := memRead l s
  memWrite l (f r.1) r.2

/-- A line is released: its driver is off (R10, R33). -/
def released (w : PadWord) : Bool := w.txdis

/-- A line is pulled low: the driver is on and its level is low (R10, R33). -/
def pulledLow (w : PadWord) : Bool := !w.txdis && !w.txlvl

/-- The drive states of the lines are those PHASE asks for (R34). -/
def phaseHolds (p : BusPhase) (s : State) : Bool :=
  match p with
  | .busIdle => released (s.pad .scl) && released (s.pad .sda)
  | .inTransaction => pulledLow (s.pad .scl)
  | .undefined => true

/-- After the host itself has written a pad word, PHASE stays as it is if the lines are still in the
drive states it asks for, and is Undefined otherwise: "anything else" (R34). -/
def settlePhase (s : State) : State :=
  match s.phase with
  | none => s
  | some p => if phaseHolds p s then s else { s with phase := some .undefined }

/-- PHASE after a bit cell: InTransaction stays, anything else is Undefined (R34, R194). -/
def phaseAfterCell (p : Option BusPhase) : Option BusPhase :=
  if p = some .inTransaction then p else some .undefined

/-- `raise <Exception>(info)` of R8, the one way a failure is taken: it ends in STATUS. There is no
trap entry: no state is saved, no mode changes, control goes nowhere (R172). -/
def raiseFailure (f : Status) (s : State) : State :=
  { s with regs := { s.regs with status := f } }

/-- The code of a STATUS value (R161, 92 D20). -/
def Status.code (f : Status) : Nat :=
  match f with
  | .ok => 0
  | .identityNotFound _ => 1
  | .ackFailure => 2
  | .lengthMismatch => 3
  | .deviceError _ => 4
  | .timeout => 5
  | .refused _ => 6

/-- SEQ's entry at step 1 of a listing, on the operands as they are now (R28, R30). A bit loop begins at
7, and `v`, `k`, `cnt` and `out` as the listings start them (R121, R122, R141, R143). -/
def SeqFrame.start (operation : Operation) (l : Line) (operands : Registers) : SeqFrame :=
  { operation := operation, nextStep := 1, line := l, operands := operands, i := 7, v := 0, b := false,
    n := 0, k := 0, cnt := 0, out := [], ok := true, entry := none }

/-- A request is taken only while SEQ is Idle (R169 (d), R193). -/
def whenIdle (s : State) (o : Host.Outcome State Fault Refusal) : Host.Outcome State Fault Refusal :=
  if s.seq = [] then o else .refused .busy

/-- An engine or block-transfer operation needs LIFE = Live (R27, R169 (a)). -/
def whenLive (s : State) (o : Host.Outcome State Fault Refusal) : Host.Outcome State Fault Refusal :=
  whenIdle s (if s.life = .live then o else .refused .engineAbsent)

/-- The host hands over one operand (R28, R204). -/
def applyLoad (r : Registers) (x : Load) : Registers :=
  match x with
  | .idPort v => { r with idPort := v }
  | .idPad v => { r with idPad := v }
  | .clock v => { r with clock := v }
  | .data v => { r with data := v }
  | .cfg v => { r with cfg := v }
  | .mode v => { r with mode := v }
  | .flag v => { r with flag := v }
  | .bit v => { r with bit := v }
  | .byte v => { r with byte := v }
  | .addr v => { r with addr := v }
  | .cmd v => { r with cmd := v }
  | .offset v => { r with offset := v }
  | .length v => { r with length := v }
  | .txbuf v => { r with txbuf := v }

/-- The host hands over some operands. -/
def State.handOver (s : State) (xs : List Load) : State :=
  { s with regs := xs.foldl applyLoad s.regs }

/-- The state in which a request runs: the operands handed over, the host's act taken. -/
def takeRequest (r : Request) (rest : List HostAct) (s : State) : State :=
  { s.handOver r.loads with requests := rest }

end Sys2Proof.Machine
end

