-- ==== Sys2Proof/Machine/GpioLine.lean ====
section
/-! DEFINITION. The nine GpioLine operations (40_gpio_line.md R90 to R99): first the operations other
listings call, then the meaning of each request. They do not need an engine; a request is taken
while SEQ is Idle. DESIGN CHOICE (note 37): a request on a line for which no handle was opened, or whose
`open` failed, to which R50 gives neither a meaning nor a refusal, acts on that line's pad all the same. -/

namespace Sys2Proof.Machine

open Sys2Proof

/-- `L.getConfig()` (R91). -/
def getConfig (l : Line) (s : State) : PadWord × State := memRead l s

/-- `L.setConfig(v)` (R92). -/
def setConfig (l : Line) (v : PadWord) (s : State) : State := memWrite l v s

/-- `L.setPadMode(m)` (R93): the field is cleared and rewritten in the copy, one read and one write
(92 D11). -/
def setPadMode (l : Line) (m : PadMode) (s : State) : State :=
  modify l (fun c => { c with pmode := m }) s

/-- `L.enableRx(f)` (R94), inverted sense. -/
def enableRx (l : Line) (f : Bool) (s : State) : State :=
  modify l (fun c => { c with rxdis := !f }) s

/-- `L.enableTx(f)` (R95), inverted sense. -/
def enableTx (l : Line) (f : Bool) (s : State) : State :=
  modify l (fun c => { c with txdis := !f }) s

/-- `L.getRx()` (R96). -/
def getRx (l : Line) (s : State) : Bool × State :=
  let r := getConfig l s
  (r.1.rxlvl, r.2)

/-- `L.getTx()` (R97). -/
def getTx (l : Line) (s : State) : Bool × State :=
  let r := getConfig l s
  (r.1.txlvl, r.2)

/-- `L.setTx(f)` (R98), not inverted. -/
def setTx (l : Line) (f : Bool) (s : State) : State :=
  modify l (fun c => { c with txlvl := f }) s

/-- `open(identity)` (R90): a handle and STATUS = Ok where the collaborator resolves the identity,
IdentityNotFound and no handle otherwise. No access to a pad word. -/
def openIdentity (id : PadId) (s : State) : State :=
  if Config.resolves id then
    { s with regs := { s.regs with handle := some id, status := .ok } }
  else raiseFailure (.identityNotFound id) { s with regs := { s.regs with handle := none } }

/-- Meaning of `open` (R90). -/
def execOpenPad (s : State) : Host.Outcome State Fault Refusal :=
  whenIdle s (.next (openIdentity { port := s.regs.idPort, pad := s.regs.idPad } s))

/-- Meaning of `getConfig` (R91): the word read goes to CFG. DESIGN CHOICE (note 37): so it does, and so do
the requests below, where the line's handle was never opened (R50). -/
def execGetConfig (l : Line) (s : State) : Host.Outcome State Fault Refusal :=
  whenIdle s (
    let r := getConfig l s
    .next { r.2 with regs := { r.2.regs with cfg := r.1 } })

/-- Meaning of `setConfig` (R92): CFG is written. -/
def execSetConfig (l : Line) (s : State) : Host.Outcome State Fault Refusal :=
  whenIdle s (.next (settlePhase (setConfig l s.regs.cfg s)))

/-- Meaning of `setPadMode` (R93). -/
def execSetPadMode (l : Line) (s : State) : Host.Outcome State Fault Refusal :=
  whenIdle s (.next (settlePhase (setPadMode l s.regs.mode s)))

/-- Meaning of `enableRx` (R94). -/
def execEnableRx (l : Line) (s : State) : Host.Outcome State Fault Refusal :=
  whenIdle s (.next (settlePhase (enableRx l s.regs.flag s)))

/-- Meaning of `enableTx` (R95). -/
def execEnableTx (l : Line) (s : State) : Host.Outcome State Fault Refusal :=
  whenIdle s (.next (settlePhase (enableTx l s.regs.flag s)))

/-- Meaning of `getRx` (R96): the input level goes to BIT. -/
def execGetRx (l : Line) (s : State) : Host.Outcome State Fault Refusal :=
  whenIdle s (
    let r := getRx l s
    .next { r.2 with regs := { r.2.regs with bit := r.1 } })

/-- Meaning of `getTx` (R97): the output level goes to BIT. -/
def execGetTx (l : Line) (s : State) : Host.Outcome State Fault Refusal :=
  whenIdle s (
    let r := getTx l s
    .next { r.2 with regs := { r.2.regs with bit := r.1 } })

/-- Meaning of `setTx` (R98). -/
def execSetTx (l : Line) (s : State) : Host.Outcome State Fault Refusal :=
  whenIdle s (.next (settlePhase (setTx l s.regs.flag s)))

end Sys2Proof.Machine
end

