-- ==== Sys2Proof/Machine/Operands.lean ====
section
/-! DEFINITION. Operand assembly and the arithmetic of the block (30_encoding.md R77, R78;
41_bit_engine.md R124; 42_block_transfer.md R147). -/

namespace Sys2Proof.Machine

open Sys2Proof

/-- The order in which the bits of a byte move: bit 7 first (20_memory.md R55). -/
def bitOrder : List Nat := [7, 6, 5, 4, 3, 2, 1, 0]

/-- `byte[i]` (R124). -/
def selectBit (d : Byte) (i : Nat) : Bool := d.getLsbD i

/-- `v[i] <- b`, the other bits kept (R124). -/
def assembleBit (v : Byte) (i : Nat) (b : Bool) : Byte :=
  if b then v ||| (1#8 <<< i) else v &&& ~~~(1#8 <<< i)

/-- The address byte: `ADDR[6:0]` above the direction bit (R77). -/
def addrByte (a : BitVec 7) (rw : Bool) : Byte := a ++ BitVec.ofBool rw

/-- The count byte: `zext_8(n)` (R78 (a), R147). -/
def countByte (n : Nat) : Byte := BitVec.ofNat 8 n

/-- `OFFSET[15:8]` (R78 (b)). -/
def offsetHigh (o : BitVec 16) : Byte := o.extractLsb' 8 8

/-- `OFFSET[7:0]` (R78 (b)). -/
def offsetLow (o : BitVec 16) : Byte := o.extractLsb' 0 8

end Sys2Proof.Machine
end

