-- ==== Sys2Proof/Machine/BitEngine.lean ====
section
/-! DEFINITION. The bit engine I2CBus (41_bit_engine.md R110 to R122): pseudo-operations,
construction and teardown, start and stop, bit cells, byte frames; then the meaning of each
request. Every listing keeps its register accesses and delays in the order the spec gives them
(R63, R191, R192). -/

namespace Sys2Proof.Machine

open Sys2Proof

/-- `Delay()` (R110): no register is touched. -/
def delay (s : State) : State := emit .dly s

/-- `rel(L)` (R111). -/
def rel (l : Line) (s : State) : State := enableTx l false s

/-- `low(L)` (R112). -/
def low (l : Line) (s : State) : State := enableTx l true s

/-- `drive(bit)` (R113): a 1 releases the data line, a 0 pulls it low. -/
def drive (b : Bool) (s : State) : State := if b then rel .sda s else low .sda s

/-- `smp()` (R114): the data input level. -/
def smp (s : State) : Bool × State := getRx .sda s

/-- SAVED[L] takes the word of one `getConfig` (R26, R115). -/
def capture (l : Line) (s : State) : State :=
  let r := getConfig l s
  { r.2 with saved := r.2.saved.set l r.1 }

/-- One of the four settings of construction on one line (R115). -/
def applySetting (l : Line) (p : PadSetting) (s : State) : State :=
  match p with
  | .inputEnabled => enableRx l true s
  | .outputDisabled => enableTx l false s
  | .gpioMode => setPadMode l .gpio s
  | .levelLow => setTx l false s

/-- Construction (R115) with the captures and the settings in the orders given (92 D8). T is empty at
construction and then holds the construction's own events (R37, R40), which it takes since SEQ stands in
the listing of `construct` (R30). DESIGN CHOICE (note 36): the operand and result registers, to which R40
gives no value just after construction, keep what they held. -/
def constructWith (captures : List Line) (settings : List (Line × PadSetting)) (s : State) : State :=
  let s0 := { s with trace := [], seq := [SeqFrame.start .construct .scl s.regs] }
  let s1 := captures.foldl (fun t l => capture l t) s0
  let s2 := settings.foldl (fun t p => applySetting p.1 p.2 t) s1
  { s2 with life := .live, phase := some .busIdle, seq := [] }

/-- Teardown (R116) with the restoring writes in the order given (92 D9). -/
def teardownWith (order : List Line) (s : State) : State :=
  let s1 := order.foldl (fun t l => setConfig l (t.saved.get l) t) s
  { s1 with life := .absent, phase := none }

/-- `start()` (R117, R71). -/
def start (s : State) : State :=
  let s1 := delay (rel .scl (rel .sda s))
  let s2 := delay (low .sda s1)
  let s3 := delay (low .scl s2)
  { s3 with phase := some .inTransaction }

/-- `stop()` (R118, R72). -/
def stop (s : State) : State :=
  let s1 := delay (low .sda s)
  let s2 := delay (rel .scl s1)
  let s3 := delay (rel .sda s2)
  { s3 with phase := some .busIdle }

/-- `writeBit(bit)` (R119, R73). -/
def writeBit (b : Bool) (s : State) : State :=
  let s1 := delay (drive b s)
  let s2 := delay (rel .scl s1)
  let s3 := low .scl s2
  { s3 with phase := phaseAfterCell s.phase }

/-- `readBit()` (R120, R74): the sample is taken after the second delay, before the clock falls. -/
def readBit (s : State) : Bool × State :=
  let s1 := delay (rel .sda s)
  let s2 := delay (rel .scl s1)
  let r := smp s2
  let s3 := low .scl r.2
  (r.1, { s3 with phase := phaseAfterCell s.phase })

/-- The eight written bit cells of a byte, bit 7 first (R75, R121). -/
def writeBits (d : Byte) (s : State) : State :=
  bitOrder.foldl (fun t i => writeBit (selectBit d i) t) s

/-- Read bit cells, each sampled bit put in its place (R75, R122). -/
def readBits (order : List Nat) (v : Byte) (s : State) : Byte × State :=
  match order with
  | [] => (v, s)
  | i :: rest =>
    let r := readBit s
    readBits rest (assembleBit v i r.1) r.2

/-- `writeByte(byte, issueStart)` (R121, R75). ACKED is written (R29). -/
def writeByte (d : Byte) (issueStart : Bool) (s : State) : Bool × State :=
  let s1 := if issueStart then start s else s
  let r := readBit (writeBits d s1)
  let a := ackedFlag r.1
  (a, { r.2 with regs := { r.2.regs with acked := a } })

/-- `readByte(sendAck)` (R122, R75). -/
def readByte (sendAck : Bool) (s : State) : Byte × State :=
  let r := readBits bitOrder 0 s
  (r.1, writeBit (ackBit sendAck) r.2)

/-- The host handed over the same pad for both lines (R169 (b)). -/
def samePad (r : Registers) : Bool :=
  match r.clock, r.data with
  | some c, some d => decide (c = d)
  | _, _ => false

/-- Meaning of `construct` (R115): refused while Live and for one pad twice (R169 (b)). -/
def execConstruct (s : State) : Host.Outcome State Fault Refusal :=
  whenIdle s (
    if s.life = .live then .refused .engineLive
    else if samePad s.regs then .refused .samePad
    else .next (constructWith Config.captureOrder Config.constructOrder s))

/-- Meaning of `teardown` (R116). -/
def execTeardown (s : State) : Host.Outcome State Fault Refusal :=
  whenLive s (.next (teardownWith Config.teardownOrder s))

/-- Meaning of `start` (R117). -/
def execStart (s : State) : Host.Outcome State Fault Refusal :=
  whenLive s (.next (start s))

/-- Meaning of `stop` (R118). -/
def execStop (s : State) : Host.Outcome State Fault Refusal :=
  whenLive s (.next (stop s))

/-- Meaning of `writeBit` (R119): BIT is sent. -/
def execWriteBit (s : State) : Host.Outcome State Fault Refusal :=
  whenLive s (.next (writeBit s.regs.bit s))

/-- Meaning of `readBit` (R120): the sampled level goes to BIT. -/
def execReadBit (s : State) : Host.Outcome State Fault Refusal :=
  whenLive s (
    let r := readBit s
    .next { r.2 with regs := { r.2.regs with bit := r.1 } })

/-- Meaning of `writeByte` (R121): BYTE is sent, FLAG is issueStart, the result is ACKED. -/
def execWriteByte (s : State) : Host.Outcome State Fault Refusal :=
  whenLive s (.next (writeByte s.regs.byte s.regs.flag s).2)

/-- Meaning of `readByte` (R122): FLAG is sendAck, the result is BYTE. -/
def execReadByte (s : State) : Host.Outcome State Fault Refusal :=
  whenLive s (
    let r := readByte s.regs.flag s
    .next { r.2 with regs := { r.2.regs with byte := r.1 } })

/-- Meaning of `delay` (R110). -/
def execDelay (s : State) : Host.Outcome State Fault Refusal :=
  whenLive s (.next (delay s))

end Sys2Proof.Machine
end

