-- ==== Sys2Proof/Machine/BlockTransfer.lean ====
section
/-! DEFINITION. BlockTransfer (42_block_transfer.md R140 to R147): SMBus block write, block read and the
raw read at an offset, built from byte frames only; then the meaning of each request and of each wire
byte format (30_encoding.md R75 to R79). -/

namespace Sys2Proof.Machine

open Sys2Proof

/-- The payload loop of a block write: each byte in order, counting acknowledgments, ended by the first
byte that is not acknowledged (R141). -/
def sendPayload (payload : List Byte) (cnt : BitVec 6) (s : State) : BitVec 6 × State :=
  match payload with
  | [] => (cnt, s)
  | d :: rest =>
    let r := writeByte d false s
    if r.1 then sendPayload rest (cnt + 1) r.2 else (cnt, r.2)

/-- Header bytes, each with its issueStart, under a gating (92 D13): with `shortCircuit` a byte is sent
only if the byte before it was acknowledged. The answer is whether all were acknowledged. -/
def sendHeader (g : HeaderGating) (header : List (Byte × Bool)) (s : State) : Bool × State :=
  match header with
  | [] => (true, s)
  | h :: rest =>
    let r := writeByte h.1 h.2 s
    match g with
    | .shortCircuit => if r.1 then sendHeader g rest r.2 else (false, r.2)
    | .unconditional =>
      let q := sendHeader g rest r.2
      (r.1 && q.1, q.2)

/-- `n` bytes read, every one acknowledged but the last (R143, R145). -/
def readData (n : Nat) (out : List Byte) (s : State) : List Byte × State :=
  match n with
  | 0 => (out, s)
  | k + 1 =>
    let r := readByte (decide (k ≠ 0)) s
    readData k (out ++ [r.1]) r.2

/-- The header of a block write (R141): address with the write bit after a start, command, count. -/
def blockWriteHeader (a : BitVec 7) (c : Byte) (n : Nat) : List (Byte × Bool) :=
  [(addrByte a Config.rwWrite, true), (c, false), (countByte n, false)]

/-- The header of a block read (R143): address with the write bit after a start, command, address with
the read bit after a repeated start. -/
def blockReadHeader (a : BitVec 7) (c : Byte) : List (Byte × Bool) :=
  [(addrByte a Config.rwWrite, true), (c, false), (addrByte a Config.rwRead, true)]

/-- The header of a raw read (R145): the two offset bytes high then low in place of the command. -/
def offsetReadHeader (a : BitVec 7) (o : BitVec 16) : List (Byte × Bool) :=
  [(addrByte a Config.rwWrite, true), (offsetHigh o, false), (offsetLow o, false),
   (addrByte a Config.rwRead, true)]

/-- `smbusBlockWrite(address, command, bytes)` (R141). A payload above MAX_BLOCK answers 0 with no bus
activity; every other path joins at the one `stop`. -/
def smbusBlockWrite (a : BitVec 7) (c : Byte) (payload : List Byte) (s : State) : BitVec 6 × State :=
  if payload.length > Config.maxBlock then (0, s)
  else
    let h := sendHeader .shortCircuit (blockWriteHeader a c payload.length) s
    let r := if h.1 then sendPayload payload 0 h.2 else (0, h.2)
    (r.1, stop r.2)

/-- `smbusBlockRead(address, command)` (R143, R144): no clamp on the length byte. -/
def smbusBlockRead (a : BitVec 7) (c : Byte) (s : State) : List Byte × State :=
  let h := sendHeader Config.blockReadGating (blockReadHeader a c) s
  let r :=
    if h.1 then
      let n := readByte true h.2
      readData n.1.toNat [] n.2
    else ([], h.2)
  (r.1, stop r.2)

/-- `readAtOffset(address, offset, length)` (R145, 92 D14). -/
def readAtOffset (a : BitVec 7) (o : BitVec 16) (length : Nat) (s : State) : List Byte × State :=
  let h := sendHeader Config.blockReadGating (offsetReadHeader a o) s
  let r := if h.1 then readData length [] h.2 else ([], h.2)
  (r.1, stop r.2)

/-- Meaning of `smbusBlockWrite` (R141): the result is COUNT. -/
def execSmbusBlockWrite (s : State) : Host.Outcome State Fault Refusal :=
  whenLive s (
    let r := smbusBlockWrite s.regs.addr s.regs.cmd s.regs.txbuf s
    .next { r.2 with regs := { r.2.regs with count := r.1 } })

/-- Meaning of `smbusBlockRead` (R143): the result is RXBUF with RXLEN. -/
def execSmbusBlockRead (s : State) : Host.Outcome State Fault Refusal :=
  whenLive s (
    let r := smbusBlockRead s.regs.addr s.regs.cmd s
    .next { r.2 with regs := { r.2.regs with rxbuf := r.1 } })

/-- Meaning of `readAtOffset` (R145): the result is RXBUF with RXLEN. -/
def execReadAtOffset (s : State) : Host.Outcome State Fault Refusal :=
  whenLive s (
    let r := readAtOffset s.regs.addr s.regs.offset s.regs.length s
    .next { r.2 with regs := { r.2.regs with rxbuf := r.1 } })

/-- One byte the master puts on the wire: a written byte frame with no start (R75). DESIGN CHOICE
(note 24): the wire formats are not requestable operations (R82), and this is what each denotes. -/
def sendWireByte (d : Byte) (s : State) : Host.Outcome State Fault Refusal :=
  whenLive s (.next (writeByte d false s).2)

/-- Meaning of `wire.addr_write` (R77). -/
def execWireAddrWrite (a : BitVec 7) (s : State) : Host.Outcome State Fault Refusal :=
  sendWireByte (addrByte a Config.rwWrite) s

/-- Meaning of `wire.addr_read` (R77). -/
def execWireAddrRead (a : BitVec 7) (s : State) : Host.Outcome State Fault Refusal :=
  sendWireByte (addrByte a Config.rwRead) s

/-- Meaning of `wire.command` (R79). -/
def execWireCommand (c : Byte) (s : State) : Host.Outcome State Fault Refusal :=
  sendWireByte c s

/-- Meaning of `wire.count` (R78 (a)). -/
def execWireCount (n : BitVec 6) (s : State) : Host.Outcome State Fault Refusal :=
  sendWireByte (countByte n.toNat) s

/-- Meaning of `wire.offset_high` (R78 (b)). -/
def execWireOffsetHigh (h : Byte) (s : State) : Host.Outcome State Fault Refusal :=
  sendWireByte h s

/-- Meaning of `wire.offset_low` (R78 (b)). -/
def execWireOffsetLow (b : Byte) (s : State) : Host.Outcome State Fault Refusal :=
  sendWireByte b s

/-- Meaning of `wire.data` (R75): a payload byte. -/
def execWireData (d : Byte) (s : State) : Host.Outcome State Fault Refusal :=
  sendWireByte d s

/-- Meaning of `wire.ack` (R76): the master's acknowledgment cell, 0 on the wire. -/
def execWireAck (s : State) : Host.Outcome State Fault Refusal :=
  whenLive s (.next (writeBit (ackBit true) s))

/-- Meaning of `wire.nack` (R76): the master's acknowledgment cell, 1 on the wire. -/
def execWireNack (s : State) : Host.Outcome State Fault Refusal :=
  whenLive s (.next (writeBit (ackBit false) s))

end Sys2Proof.Machine
end

