-- ==== Sys2Proof/Machine/Dispatch.lean ====
section
/-! DEFINITION. The meaning of each operation and wire format, one direct call an arm. -/

namespace Sys2Proof.Machine

open Sys2Proof

def exec (i : Instr) (s : State) : Host.Outcome State Fault Refusal :=
  match i with
  | .openPad => Sys2Proof.Machine.execOpenPad s
  | .getConfig l => Sys2Proof.Machine.execGetConfig l s
  | .setConfig l => Sys2Proof.Machine.execSetConfig l s
  | .setPadMode l => Sys2Proof.Machine.execSetPadMode l s
  | .enableRx l => Sys2Proof.Machine.execEnableRx l s
  | .enableTx l => Sys2Proof.Machine.execEnableTx l s
  | .getRx l => Sys2Proof.Machine.execGetRx l s
  | .getTx l => Sys2Proof.Machine.execGetTx l s
  | .setTx l => Sys2Proof.Machine.execSetTx l s
  | .construct => Sys2Proof.Machine.execConstruct s
  | .teardown => Sys2Proof.Machine.execTeardown s
  | .start => Sys2Proof.Machine.execStart s
  | .stop => Sys2Proof.Machine.execStop s
  | .writeBit => Sys2Proof.Machine.execWriteBit s
  | .readBit => Sys2Proof.Machine.execReadBit s
  | .writeByte => Sys2Proof.Machine.execWriteByte s
  | .readByte => Sys2Proof.Machine.execReadByte s
  | .delay => Sys2Proof.Machine.execDelay s
  | .smbusBlockWrite => Sys2Proof.Machine.execSmbusBlockWrite s
  | .smbusBlockRead => Sys2Proof.Machine.execSmbusBlockRead s
  | .readAtOffset => Sys2Proof.Machine.execReadAtOffset s
  | .wireAddrWrite a => Sys2Proof.Machine.execWireAddrWrite a s
  | .wireAddrRead a => Sys2Proof.Machine.execWireAddrRead a s
  | .wireCommand c => Sys2Proof.Machine.execWireCommand c s
  | .wireCount n => Sys2Proof.Machine.execWireCount n s
  | .wireOffsetHigh h => Sys2Proof.Machine.execWireOffsetHigh h s
  | .wireOffsetLow b => Sys2Proof.Machine.execWireOffsetLow b s
  | .wireData d => Sys2Proof.Machine.execWireData d s
  | .wireAck => Sys2Proof.Machine.execWireAck s
  | .wireNack => Sys2Proof.Machine.execWireNack s

end Sys2Proof.Machine
end

