-- ==== Sys2Proof/Machine/Sequencer.lean ====
section
/-! DEFINITION. The sequencer SEQ (10_state.md R30, R31), one step of a listing at a time: a request moves
SEQ to step 1 of its listing, a call stacks the caller's position, the callee's end resumes it, and the
last step returns SEQ to Idle. `exec` is the same operation run to its end. The steps of each listing
are numbered from 1 as 41_bit_engine.md and 42_block_transfer.md write them down (note 35). At the end,
how a request word is decoded and served, or its refusal recorded in STATUS (R161, R169). -/

namespace Sys2Proof.Machine

open Sys2Proof

/-- What an operation gives back: to the listing that called it, or to the result registers (R28). -/
inductive Result where
  | nothing
  | word (w : PadWord)
  | level (b : Bool)
  | byte (v : Byte)
  | acked (a : Bool)
  | accepted (n : BitVec 6)
  | bytes (out : List Byte)
deriving DecidableEq, Repr

/-- The result register a request's result goes to (R28). -/
def storeResult (x : Result) (r : Registers) : Registers :=
  match x with
  | .nothing => r
  | .word w => { r with cfg := w }
  | .level b => { r with bit := b }
  | .byte v => { r with byte := v }
  | .acked a => { r with acked := a }
  | .accepted n => { r with count := n }
  | .bytes out => { r with rxbuf := out }

/-- A result that goes to a calling listing writes no result register, but for the flag ACKED, which every
`writeByte` writes (R29, note 20). -/
def storeFlag (x : Result) (r : Registers) : Registers :=
  match x with
  | .nothing => r
  | .word _ => r
  | .level _ => r
  | .byte _ => r
  | .acked a => { r with acked := a }
  | .accepted _ => r
  | .bytes _ => r

/-- The call that makes one of the four settings of construction (R115). -/
def settingCall (o : Registers) (x : Line × PadSetting) : SeqFrame :=
  match x.2 with
  | .inputEnabled => .start .enableRx x.1 { o with flag := true }
  | .outputDisabled => .start .enableTx x.1 { o with flag := false }
  | .gpioMode => .start .setPadMode x.1 { o with mode := .gpio }
  | .levelLow => .start .setTx x.1 { o with flag := false }

/-- The calls of the listings that are a straight line of calls, step 1 first (R115 to R120). -/
def straightCalls (f : SeqFrame) (saved : PerLine PadWord) : List SeqFrame :=
  let o := f.operands
  let rel (l : Line) := SeqFrame.start .rel l o
  let low (l : Line) := SeqFrame.start .low l o
  let delay := SeqFrame.start .delay .sda o
  match f.operation with
  | .construct =>
    Config.captureOrder.map (fun l => .start .getConfig l o) ++ Config.constructOrder.map (settingCall o)
  | .teardown =>
    Config.teardownOrder.map (fun l => .start .setConfig l { o with cfg := saved.get l })
  | .start => [rel .sda, rel .scl, delay, low .sda, delay, low .scl, delay]
  | .stop => [low .sda, delay, rel .scl, delay, rel .sda, delay]
  | .writeBit => [.start .drive .sda o, delay, rel .scl, delay, low .scl]
  | .readBit => [rel .sda, delay, rel .scl, delay, .start .smp .sda o, low .scl]
  | .openPad => []
  | .getConfig => []
  | .setConfig => []
  | .setPadMode => []
  | .enableRx => []
  | .enableTx => []
  | .getRx => []
  | .getTx => []
  | .setTx => []
  | .writeByte => []
  | .readByte => []
  | .delay => []
  | .smbusBlockWrite => []
  | .smbusBlockRead => []
  | .readAtOffset => []
  | .rel => []
  | .low => []
  | .drive => []
  | .smp => []

/-- `writeByte(d, issueStart)` as a call. -/
def writeByteCall (o : Registers) (d : Byte) (issueStart : Bool) : SeqFrame :=
  .start .writeByte .sda { o with byte := d, flag := issueStart }

/-- `readByte(sendAck)` as a call. -/
def readByteCall (o : Registers) (sendAck : Bool) : SeqFrame :=
  .start .readByte .sda { o with flag := sendAck }

/-- `writeBit(bit)` as a call. -/
def writeBitCall (o : Registers) (b : Bool) : SeqFrame := .start .writeBit .sda { o with bit := b }

/-- The call of the next step of `writeByte`: 1 the start, 2 a bit of the loop, 3 the acknowledgment, 4 the
return (R121). -/
def writeByteCalls (f : SeqFrame) : Option SeqFrame :=
  match f.nextStep with
  | 1 => if f.operands.flag then some (.start .start .sda f.operands) else none
  | 2 => some (writeBitCall f.operands (selectBit f.operands.byte f.i.toNat))
  | 3 => some (.start .readBit .sda f.operands)
  | _ => none

/-- The call of the next step of `readByte`: 1 clears `v`, 2 a bit of the loop, 3 the answer, 4 the return
(R122). -/
def readByteCalls (f : SeqFrame) : Option SeqFrame :=
  match f.nextStep with
  | 2 => some (.start .readBit .sda f.operands)
  | 3 => some (writeBitCall f.operands (ackBit f.operands.flag))
  | _ => none

/-- The call of the next step of `smbusBlockWrite`: 1 the length test, 2 to 4 address, command and count, 5 a
byte of the payload loop, 6 the stop, 7 the return (R141). -/
def blockWriteCalls (f : SeqFrame) : Option SeqFrame :=
  let o := f.operands
  match f.nextStep with
  | 2 => some (writeByteCall o (addrByte o.addr Config.rwWrite) true)
  | 3 => some (writeByteCall o o.cmd false)
  | 4 => some (writeByteCall o (countByte o.txbuf.length) false)
  | 5 => some (writeByteCall o (o.txbuf[f.k]?.getD 0) false)
  | 6 => some (.start .stop .sda o)
  | _ => none

/-- The call of the next step of `smbusBlockRead`: 1 to 3 the header, 4 the length byte, 5 a byte of the loop,
6 the stop, 7 the return (R143). -/
def blockReadCalls (f : SeqFrame) : Option SeqFrame :=
  let o := f.operands
  match f.nextStep with
  | 1 => some (writeByteCall o (addrByte o.addr Config.rwWrite) true)
  | 2 => some (writeByteCall o o.cmd false)
  | 3 => some (writeByteCall o (addrByte o.addr Config.rwRead) true)
  | 4 => some (readByteCall o true)
  | 5 => some (readByteCall o (decide (f.k + 1 ≠ f.n.toNat)))
  | 6 => some (.start .stop .sda o)
  | _ => none

/-- The call of the next step of `readAtOffset`: 1 to 4 the header, 5 a byte of the loop, 6 the stop, 7 the
return (R145). -/
def readAtOffsetCalls (f : SeqFrame) : Option SeqFrame :=
  let o := f.operands
  match f.nextStep with
  | 1 => some (writeByteCall o (addrByte o.addr Config.rwWrite) true)
  | 2 => some (writeByteCall o (offsetHigh o.offset) false)
  | 3 => some (writeByteCall o (offsetLow o.offset) false)
  | 4 => some (writeByteCall o (addrByte o.addr Config.rwRead) true)
  | 5 => some (readByteCall o (decide (f.k + 1 ≠ o.length)))
  | 6 => some (.start .stop .sda o)
  | _ => none

/-- What the next step of a listing calls, if it calls anything. -/
def callOf (f : SeqFrame) (saved : PerLine PadWord) : Option SeqFrame :=
  match f.operation with
  | .writeByte => writeByteCalls f
  | .readByte => readByteCalls f
  | .smbusBlockWrite => blockWriteCalls f
  | .smbusBlockRead => blockReadCalls f
  | .readAtOffset => readAtOffsetCalls f
  | .construct => (straightCalls f saved)[f.nextStep - 1]?
  | .teardown => (straightCalls f saved)[f.nextStep - 1]?
  | .start => (straightCalls f saved)[f.nextStep - 1]?
  | .stop => (straightCalls f saved)[f.nextStep - 1]?
  | .writeBit => (straightCalls f saved)[f.nextStep - 1]?
  | .readBit => (straightCalls f saved)[f.nextStep - 1]?
  | .openPad => none
  | .getConfig => none
  | .setConfig => none
  | .setPadMode => none
  | .enableRx => none
  | .enableTx => none
  | .getRx => none
  | .getTx => none
  | .setTx => none
  | .delay => none
  | .rel => none
  | .low => none
  | .drive => none
  | .smp => none

/-- The bit a call gave back. -/
def Result.bit (x : Result) : Bool :=
  match x with
  | .level b => b
  | .acked a => a
  | .nothing => false
  | .word _ => false
  | .byte _ => false
  | .accepted _ => false
  | .bytes _ => false

/-- The byte a call gave back. -/
def Result.value (x : Result) : Byte :=
  match x with
  | .byte v => v
  | .nothing => 0
  | .word _ => 0
  | .level _ => 0
  | .acked _ => 0
  | .accepted _ => 0
  | .bytes _ => 0

/-- The step after the next one. -/
def SeqFrame.advance (f : SeqFrame) : SeqFrame := { f with nextStep := f.nextStep + 1 }

/-- SEQ goes to step `n` of the listing. -/
def SeqFrame.goto (f : SeqFrame) (n : Nat) : SeqFrame := { f with nextStep := n }

/-- `for i in 7 downto 0`: the loop moves SEQ back to its step until `i` is 0 (R30, R121, R122). -/
def nextBit (f : SeqFrame) : SeqFrame :=
  if f.i = 0 then f.advance else { f with i := f.i - 1 }

/-- A header byte of a read is answered: on to the next step, or to the stop at step 6, as the gating has it
(92 D13); `last` says that it was the header's last byte. -/
def gateHeader (last : Bool) (x : Result) (f : SeqFrame) : SeqFrame :=
  let g := { f with ok := f.ok && x.bit }
  match Config.blockReadGating with
  | .shortCircuit => if g.ok then g.advance else g.goto 6
  | .unconditional => if !last || g.ok then g.advance else g.goto 6

/-- A loop over `n` values goes back to step 5 if a next index is below `n`, and on to the stop otherwise. -/
def loopAt5 (n : Nat) (f : SeqFrame) : SeqFrame := if f.k < n then f.goto 5 else f.goto 6

/-- A byte of `smbusBlockWrite` is answered (R141). -/
def resumeBlockWrite (x : Result) (f : SeqFrame) : SeqFrame :=
  match f.nextStep with
  | 4 => if x.bit then loopAt5 f.operands.txbuf.length f else f.goto 6
  | 5 =>
    if x.bit then loopAt5 f.operands.txbuf.length { f with cnt := f.cnt + 1, k := f.k + 1 }
    else f.goto 6
  | 6 => f.advance
  | _ => if x.bit then f.advance else f.goto 6

/-- A byte of `smbusBlockRead` is sent or read (R143). -/
def resumeBlockRead (x : Result) (f : SeqFrame) : SeqFrame :=
  match f.nextStep with
  | 3 => gateHeader true x f
  | 4 => loopAt5 x.value.toNat { f with n := x.value }
  | 5 => loopAt5 f.n.toNat { f with out := f.out ++ [x.value], k := f.k + 1 }
  | 6 => f.advance
  | _ => gateHeader false x f

/-- A byte of `readAtOffset` is sent or read (R145). -/
def resumeReadAtOffset (x : Result) (f : SeqFrame) : SeqFrame :=
  match f.nextStep with
  | 4 =>
    let g := gateHeader true x f
    if g.nextStep = 5 then loopAt5 f.operands.length g else g
  | 5 => loopAt5 f.operands.length { f with out := f.out ++ [x.value], k := f.k + 1 }
  | 6 => f.advance
  | _ => gateHeader false x f

/-- The caller's position when its callee has ended with a result (R30). -/
def resume (x : Result) (f : SeqFrame) : SeqFrame :=
  match f.operation with
  | .writeByte =>
    match f.nextStep with
    | 2 => nextBit f
    | 3 => { f with b := x.bit }.advance
    | _ => f.advance
  | .readByte =>
    match f.nextStep with
    | 2 => nextBit { f with v := assembleBit f.v f.i.toNat x.bit }
    | _ => f.advance
  | .readBit => if f.nextStep = 5 then { f with b := x.bit }.advance else f.advance
  | .smbusBlockWrite => resumeBlockWrite x f
  | .smbusBlockRead => resumeBlockRead x f
  | .readAtOffset => resumeReadAtOffset x f
  | .construct => f.advance
  | .teardown => f.advance
  | .start => f.advance
  | .stop => f.advance
  | .writeBit => f.advance
  | .openPad => f.advance
  | .getConfig => f.advance
  | .setConfig => f.advance
  | .setPadMode => f.advance
  | .enableRx => f.advance
  | .enableTx => f.advance
  | .getRx => f.advance
  | .getTx => f.advance
  | .setTx => f.advance
  | .delay => f.advance
  | .rel => f.advance
  | .low => f.advance
  | .drive => f.advance
  | .smp => f.advance

/-- `SAVED[L] <- L.getConfig()`: the word a capture of construction gives back (R115). -/
def capturedWord (caller callee : SeqFrame) (x : Result) (saved : PerLine PadWord) : PerLine PadWord :=
  match x with
  | .word w => if caller.operation = .construct then saved.set callee.line w else saved
  | .nothing => saved
  | .level _ => saved
  | .byte _ => saved
  | .acked _ => saved
  | .accepted _ => saved
  | .bytes _ => saved

/-- The listing `f` at the top of SEQ ends with a result: its caller resumes, or SEQ is Idle again. -/
def returnResult (x : Result) (f : SeqFrame) (rest : List SeqFrame) (s : State) : State :=
  match rest with
  | [] => { s with seq := [], regs := storeResult x s.regs }
  | g :: below =>
    { s with seq := resume x g :: below, regs := storeFlag x s.regs,
             saved := capturedWord g f x s.saved }

/-- What beginning a listing means: a start, stop or bit cell is in progress, so PHASE is "anything else"
(R34), and T is empty at construction (R37, R40). -/
def beginListing (f : SeqFrame) (s : State) : State :=
  match f.operation with
  | .start => { s with phase := some .undefined }
  | .stop => { s with phase := some .undefined }
  | .writeBit => { s with phase := some .undefined }
  | .readBit => { s with phase := some .undefined }
  | .construct => { s with trace := [] }
  | .openPad => s
  | .getConfig => s
  | .setConfig => s
  | .setPadMode => s
  | .enableRx => s
  | .enableTx => s
  | .getRx => s
  | .getTx => s
  | .setTx => s
  | .teardown => s
  | .writeByte => s
  | .readByte => s
  | .delay => s
  | .smbusBlockWrite => s
  | .smbusBlockRead => s
  | .readAtOffset => s
  | .rel => s
  | .low => s
  | .drive => s
  | .smp => s

/-- A step that calls: the caller's position is stacked under the callee's step 1 (R30). -/
def callStep (f callee : SeqFrame) (rest : List SeqFrame) (s : State) : State :=
  if f.nextStep = 1 then
    { beginListing f s with seq := callee :: { f with entry := s.phase } :: rest }
  else { s with seq := callee :: f :: rest }

/-- A step that calls nothing: an access to a pad, a delay, a test, or the end of the listing. -/
def localStep (f : SeqFrame) (rest : List SeqFrame) (s : State) : State :=
  let o := f.operands
  match f.operation with
  | .openPad => returnResult .nothing f rest (openIdentity { port := o.idPort, pad := o.idPad } s)
  | .getConfig => let r := getConfig f.line s; returnResult (.word r.1) f rest r.2
  | .setConfig => returnResult .nothing f rest (settlePhase (setConfig f.line o.cfg s))
  | .setPadMode => returnResult .nothing f rest (settlePhase (setPadMode f.line o.mode s))
  | .enableRx => returnResult .nothing f rest (settlePhase (enableRx f.line o.flag s))
  | .enableTx => returnResult .nothing f rest (settlePhase (enableTx f.line o.flag s))
  | .getRx => let r := getRx f.line s; returnResult (.level r.1) f rest r.2
  | .getTx => let r := getTx f.line s; returnResult (.level r.1) f rest r.2
  | .setTx => returnResult .nothing f rest (settlePhase (setTx f.line o.flag s))
  | .rel => returnResult .nothing f rest (rel f.line s)
  | .low => returnResult .nothing f rest (low f.line s)
  | .drive => returnResult .nothing f rest (drive o.bit s)
  | .smp => let r := smp s; returnResult (.level r.1) f rest r.2
  | .delay => returnResult .nothing f rest (delay s)
  | .construct => returnResult .nothing f rest { s with life := .live, phase := some .busIdle }
  | .teardown => returnResult .nothing f rest { s with life := .absent, phase := none }
  | .start => returnResult .nothing f rest { s with phase := some .inTransaction }
  | .stop => returnResult .nothing f rest { s with phase := some .busIdle }
  | .writeBit => returnResult .nothing f rest { s with phase := phaseAfterCell f.entry }
  | .readBit => returnResult (.level f.b) f rest { s with phase := phaseAfterCell f.entry }
  | .writeByte =>
    if f.nextStep = 1 then { s with seq := f.advance :: rest }
    else returnResult (.acked (ackedFlag f.b)) f rest s
  | .readByte =>
    if f.nextStep = 1 then { s with seq := { f with v := 0 }.advance :: rest }
    else returnResult (.byte f.v) f rest s
  | .smbusBlockWrite =>
    if f.nextStep = 1 then
      if o.txbuf.length > Config.maxBlock then returnResult (.accepted 0) f rest s
      else { s with seq := { f with cnt := 0 }.advance :: rest }
    else returnResult (.accepted f.cnt) f rest s
  | .smbusBlockRead => returnResult (.bytes f.out) f rest s
  | .readAtOffset => returnResult (.bytes f.out) f rest s

/-- One step of the sequencer (R30). Idle, it does nothing. -/
def tick (s : State) : State :=
  match s.seq with
  | [] => s
  | f :: rest =>
    match callOf f s.saved with
    | some callee => callStep f callee rest s
    | none => localStep f rest s

/-- Step 1 of the listing a request names, on the operands as they are now (R28, R30). A wire format is the
frame or cell it denotes (note 24). -/
def entryOf (i : Instr) (r : Registers) : SeqFrame :=
  match i with
  | .openPad => .start .openPad .sda r
  | .getConfig l => .start .getConfig l r
  | .setConfig l => .start .setConfig l r
  | .setPadMode l => .start .setPadMode l r
  | .enableRx l => .start .enableRx l r
  | .enableTx l => .start .enableTx l r
  | .getRx l => .start .getRx l r
  | .getTx l => .start .getTx l r
  | .setTx l => .start .setTx l r
  | .construct => .start .construct .sda r
  | .teardown => .start .teardown .sda r
  | .start => .start .start .sda r
  | .stop => .start .stop .sda r
  | .writeBit => .start .writeBit .sda r
  | .readBit => .start .readBit .sda r
  | .writeByte => .start .writeByte .sda r
  | .readByte => .start .readByte .sda r
  | .delay => .start .delay .sda r
  | .smbusBlockWrite => .start .smbusBlockWrite .sda r
  | .smbusBlockRead => .start .smbusBlockRead .sda r
  | .readAtOffset => .start .readAtOffset .sda r
  | .wireAddrWrite a => writeByteCall r (addrByte a Config.rwWrite) false
  | .wireAddrRead a => writeByteCall r (addrByte a Config.rwRead) false
  | .wireCommand c => writeByteCall r c false
  | .wireCount n => writeByteCall r (countByte n.toNat) false
  | .wireOffsetHigh h => writeByteCall r h false
  | .wireOffsetLow b => writeByteCall r b false
  | .wireData d => writeByteCall r d false
  | .wireAck => writeBitCall r (ackBit true)
  | .wireNack => writeBitCall r (ackBit false)

/-- A request moves SEQ to step 1 of its listing (R30), if R169 does not refuse it: `exec` says which
requests are refused, and why. -/
def post (i : Instr) (s : State) : Host.Outcome State Fault Refusal :=
  match exec i s with
  | .next _ => .next { s with seq := [entryOf i s.regs] }
  | .fault e => .fault e
  | .refused e => .refused e

/-- A refused request has no effect but STATUS, which takes Refused with the reason (R28, R161, R169). -/
def recordRefusal (o : Host.Outcome State Fault Refusal) (s : State) :
    Host.Outcome State Fault Refusal :=
  match o with
  | .next t => .next t
  | .fault e => .fault e
  | .refused why => .next (raiseFailure (.refused why) s)

/-- A request, decoded and given its meaning by `run`. -/
def serveRequest (run : Instr → State → Host.Outcome State Fault Refusal) (w : BitVec 9) (s : State) :
    Host.Outcome State Fault Refusal :=
  match decode .request w with
  | .ok i => recordRefusal (run i s) s
  | .error _ => .next (raiseFailure (.refused (.unknownSelector (w.setWidth 8))) s)

end Sys2Proof.Machine
end

