-- ==== Sys2Proof/Machine/Step.lean ====
section
/-! DEFINITION. One step: what the host does next (70_reset_and_hazards.md R204). A request it waits for is
taken, decoded and run to its end (60_exceptions.md R170: an operation, once requested, runs to its end);
a request it does not wait for moves SEQ to step 1, and each wait is one step of the sequencer
(10_state.md R30). A request without a meaning is recorded in STATUS (R28, R161, V58). -/

namespace Sys2Proof.Machine

open Sys2Proof

/-- One step. A state that records a fight of drivers is no good run and faults (R32, 93 U6). With nothing
for the host to do but wait, the sequencer goes on, and while it is Idle nothing changes (R200, R204). -/
def step (s : State) : Host.Outcome State Fault Refusal :=
  if s.contention then .fault .lineContention
  else
    match s.requests with
    | [] => .next (tick s)
    | .call r :: rest => serveRequest exec r.word (takeRequest r rest s)
    | .post r :: rest => serveRequest post r.word (takeRequest r rest s)
    | .load xs :: rest => .next { s.handOver xs with requests := rest }
    | .wait :: rest => .next (tick { s with requests := rest })

/-- The state whose next request is the word of an opcode-table row, with no operand handed over
beside it: every operand register keeps its value. -/
def State.withFetchWord (s : State) (nbits w : Nat) : State :=
  { s with
    requests := .call { loads := [], word := requestWord (w % 2 ^ nbits) } :: s.requests }

end Sys2Proof.Machine
end

