-- ==== Sys2Proof/Machine/PadBits.lean ====
section
/-! DEFINITION. The 32-bit view of a pad word (10_state.md R21 to R25) under any layout of its fields and
any mode codes (92 D4, D5): R93 to R98 slice this word, the meanings work on the fields. -/

namespace Sys2Proof.Machine

open Sys2Proof

/-- The 25 bit positions outside the five fields, in rising order (R25). -/
def freePositions (p : PadLayout) : List Nat :=
  (List.range 32).filter (fun i => i ∉ p.positions)

/-- The mode whose code the 3-bit selector holds (R22). -/
def modeOfCode (code : PadMode → BitVec 3) (c : BitVec 3) : PadMode :=
  (PadMode.all.find? (fun m => code m = c)).getD .gpio

/-- Bit `i` of the 32-bit word. -/
def PadWord.bitAt (p : PadLayout) (code : PadMode → BitVec 3) (w : PadWord) (i : Nat) : Bool :=
  if p.pmodeLsb ≤ i ∧ i < p.pmodeLsb + 3 then (code w.pmode).getLsbD (i - p.pmodeLsb)
  else if i = p.rxdisBit then w.rxdis
  else if i = p.txdisBit then w.txdis
  else if i = p.rxlvlBit then w.rxlvl
  else if i = p.txlvlBit then w.txlvl
  else w.other.getLsbD ((freePositions p).idxOf i)

/-- The 32-bit word of the fields. -/
def PadWord.toBits (p : PadLayout) (code : PadMode → BitVec 3) (w : PadWord) : BitVec 32 :=
  BitVec.ofFnLE (fun i : Fin 32 => PadWord.bitAt p code w i.val)

/-- The fields of a 32-bit word. -/
def PadWord.ofBits (p : PadLayout) (code : PadMode → BitVec 3) (v : BitVec 32) : PadWord :=
  { pmode := modeOfCode code (v.extractLsb' p.pmodeLsb 3)
    rxdis := v.getLsbD p.rxdisBit
    txdis := v.getLsbD p.txdisBit
    rxlvl := v.getLsbD p.rxlvlBit
    txlvl := v.getLsbD p.txlvlBit
    other := BitVec.ofFnLE (fun j : Fin 25 => v.getLsbD ((freePositions p).getD j.val 0)) }

/-- `c[i] <- b` on a 32-bit word. -/
def replaceBit (v : BitVec 32) (i : Nat) (b : Bool) : BitVec 32 :=
  BitVec.ofFnLE (fun j : Fin 32 => if j.val = i then b else v.getLsbD j.val)

/-- `c[lsb+2 : lsb] <- f` on a 32-bit word. -/
def replaceField (v : BitVec 32) (lsb : Nat) (f : BitVec 3) : BitVec 32 :=
  BitVec.ofFnLE (fun j : Fin 32 =>
    if lsb ≤ j.val ∧ j.val < lsb + 3 then f.getLsbD (j.val - lsb) else v.getLsbD j.val)

/-- The 32-bit word stored in PAD[L] under this hardware's layout. -/
def State.padBits (s : State) (l : Line) : BitVec 32 :=
  PadWord.toBits Config.padLayout Config.modeCode (s.pads.get l)

/-- CFG as a 32-bit word under this hardware's layout. -/
def State.cfgBits (s : State) : BitVec 32 :=
  PadWord.toBits Config.padLayout Config.modeCode s.regs.cfg

end Sys2Proof.Machine
end

