-- ==== Sys2Proof/Machine/Wire.lean ====
section
/-! DEFINITION. What an observer reads off the trace T (10_state.md R37): how many delays and register
accesses there are (70 R202), and the start conditions, stop conditions and bit cells the master's
two drives make (30_encoding.md R71 to R75). -/

namespace Sys2Proof.Machine

open Sys2Proof

/-- An event without the word: a read of a line, a write that leaves it released or driven, a delay. -/
inductive Shape where
  | read (l : Line)
  | write (l : Line) (released : Bool)
  | delay
deriving DecidableEq, Repr

/-- The shape of an event. -/
def Event.shape (e : Event) : Shape :=
  match e with
  | .rd l _ => .read l
  | .wr l w => .write l (released w)
  | .dly => .delay

/-- `rel(L)` as two events (R37). -/
def relShape (l : Line) : List Shape := [.read l, .write l true]

/-- `low(L)` as two events (R37). -/
def lowShape (l : Line) : List Shape := [.read l, .write l false]

/-- `drive(b)` as two events: a 1 releases SDA, a 0 pulls it low (R113). -/
def driveShape (b : Bool) : List Shape := [.read .sda, .write .sda b]

/-- The events of `start()` in their order (R117). -/
def startShape : List Shape :=
  relShape .sda ++ relShape .scl ++ [.delay] ++ lowShape .sda ++ [.delay] ++ lowShape .scl ++ [.delay]

/-- The events of `stop()` in their order (R118). -/
def stopShape : List Shape :=
  lowShape .sda ++ [.delay] ++ relShape .scl ++ [.delay] ++ relShape .sda ++ [.delay]

/-- The events of `writeBit(b)` in their order (R119). -/
def writeBitShape (b : Bool) : List Shape :=
  driveShape b ++ [.delay] ++ relShape .scl ++ [.delay] ++ lowShape .scl

/-- The events of `readBit()` in their order (R120). -/
def readBitShape : List Shape :=
  relShape .sda ++ [.delay] ++ relShape .scl ++ [.delay] ++ [.read .sda] ++ lowShape .scl

/-- The events of eight written bit cells, bit 7 first (R121, R55). -/
def writeBitsShape (d : Byte) : List Shape := bitOrder.flatMap (fun i => writeBitShape (selectBit d i))

/-- The events of `writeByte(d, false)`: eight written cells and the read ninth (R121). -/
def writeByteShape (d : Byte) : List Shape := writeBitsShape d ++ readBitShape

/-- The events of `readByte(sendAck)`: eight read cells and the written ninth (R122). -/
def readByteShape (sendAck : Bool) : List Shape :=
  (List.replicate 8 readBitShape).flatten ++ writeBitShape (ackBit sendAck)

/-- A delay event. -/
def Event.isDelay (e : Event) : Bool :=
  match e with
  | .rd _ _ => false
  | .wr _ _ => false
  | .dly => true

/-- The delays among some events (R202). -/
def delayCount (es : List Event) : Nat := es.countP Event.isDelay

/-- The register accesses among some events: one `rd` or one `wr` each (R202). -/
def accessCount (es : List Event) : Nat := es.countP (fun e => !e.isDelay)

/-- The least duration of some events in microseconds: their delays only (R201, R202). -/
def minDuration (es : List Event) : Nat := Config.halfPeriod * delayCount es

/-- What the master puts on the wire: a start or stop condition, or one clock pulse with the level it
leaves on the data line (true: released, false: pulled low). -/
inductive Symbol where
  | startCond
  | stopCond
  | bit (b : Bool)
deriving DecidableEq, Repr

/-- An observer of the master's two drives: the drives (true: released), the data level since the
clock rose if no condition has been seen since, and the symbols so far. -/
structure Observer where
  scl : Bool
  sda : Bool
  pending : Option Bool
  symbols : List Symbol
deriving DecidableEq, Repr

/-- A rising clock presents a bit; a falling clock ends it; a data edge under a high clock is a start
or a stop condition ("data high→low while clock high", "data low→high while clock high", R10). -/
def observe (o : Observer) (e : Event) : Observer :=
  match e with
  | .wr .scl w =>
    if released w && !o.scl then { o with scl := true, pending := some o.sda }
    else if !released w && o.scl then
      { o with scl := false, pending := none,
               symbols := o.symbols ++ o.pending.toList.map Symbol.bit }
    else o
  | .wr .sda w =>
    if o.scl && (released w != o.sda) then
      { o with sda := released w, pending := none,
               symbols := o.symbols ++ [if released w then .stopCond else .startCond] }
    else { o with sda := released w }
  | .rd _ _ => o
  | .dly => o

/-- The observer that has seen nothing yet, at the drives of a state. -/
def observerAt (s : State) : Observer :=
  { scl := released (s.pad .scl), sda := released (s.pad .sda), pending := none, symbols := [] }

/-- The pads with the two drivers set (true: released, R33) and every other bit kept. -/
def withDrives (p : PerLine PadWord) (sclReleased sdaReleased : Bool) : PerLine PadWord :=
  { scl := { p.scl with txdis := sclReleased }, sda := { p.sda with txdis := sdaReleased } }

/-- The events performed between two states. -/
def newEvents (s t : State) : List Event := t.trace.drop s.trace.length

/-- The symbols the master put on the wire between two states. -/
def symbolsBetween (s t : State) : List Symbol :=
  ((newEvents s t).foldl observe (observerAt s)).symbols

/-- The nine symbols of a byte the master writes: bit 7 first, then the slot it releases for the
acknowledgment (R75). -/
def writtenByte (d : Byte) : List Symbol :=
  [.bit (d.getLsbD 7), .bit (d.getLsbD 6), .bit (d.getLsbD 5), .bit (d.getLsbD 4),
   .bit (d.getLsbD 3), .bit (d.getLsbD 2), .bit (d.getLsbD 1), .bit (d.getLsbD 0), .bit true]

/-- The nine symbols of a byte the master reads: eight released slots, then its acknowledgment, low to
request more (R75, R76). -/
def readFrame (sendAck : Bool) : List Symbol := List.replicate 8 (.bit true) ++ [.bit (!sendAck)]

/-- A byte frame of a transfer as the master sends it: the byte, and whether a start comes before it. -/
abbrev Frame := Byte × Bool

/-- The symbols of a byte frame with its start, if it has one (R79 to R81). -/
def frameSymbols (f : Frame) : List Symbol :=
  (if f.2 then [.startCond] else []) ++ writtenByte f.1

/-- The events of a byte frame with its start, if it has one (R121). -/
def frameShape (f : Frame) : List Shape := (if f.2 then startShape else []) ++ writeByteShape f.1

/-- The delays of a byte frame: 3 of a start, 18 of a written byte (R202). -/
def frameDelays (f : Frame) : Nat := (if f.2 then 3 else 0) + 18

/-- The register accesses of a byte frame: 8 of a start, 55 of a written byte (R202). -/
def frameAccesses (f : Frame) : Nat := (if f.2 then 8 else 0) + 55

/-- The events of a byte frame: 11 of a start, 73 of a written byte (R117, R121). -/
def frameLength (f : Frame) : Nat := (if f.2 then 11 else 0) + 73

/-- The event of a byte frame at which its acknowledgment is sampled, counted from the frame's first. -/
def frameSample (f : Frame) : Nat := (if f.2 then 11 else 0) + 70

/-- The frames that are sent when each is sent only if the one before it was acknowledged: up to and
with the first that is answered high. `answer k` is what the released data line reads at event `k`,
and the first frame begins at event `pos`. -/
def sentFrames (answer : Nat → Bool) (pos : Nat) (frames : List Frame) : List Frame :=
  match frames with
  | [] => []
  | f :: rest =>
    if answer (pos + frameSample f) then [f]
    else f :: sentFrames answer (pos + frameLength f) rest

/-- How many frames are acknowledged before the first that is not. -/
def ackedFrames (answer : Nat → Bool) (pos : Nat) (frames : List Frame) : Nat :=
  match frames with
  | [] => 0
  | f :: rest =>
    if answer (pos + frameSample f) then 0
    else ackedFrames answer (pos + frameLength f) rest + 1

/-- The byte of eight read bit cells that begin at event `pos`: the first sampled bit is bit 7 (R78 (c)). -/
def sampledByte (answer : Nat → Bool) (pos : Nat) : Byte :=
  BitVec.ofFnLE (fun j : Fin 8 => answer (pos + 9 * (7 - j.val) + 6))

/-- The `n` bytes of read byte frames of 80 events each, the first beginning at event `pos`. -/
def sampledBytes (answer : Nat → Bool) (pos n : Nat) : List Byte :=
  (List.range n).map (fun k => sampledByte answer (pos + 80 * k))

/-- The master's answers to `n` bytes it reads: ack to all but the last (R80, R81). -/
def ackPattern (n : Nat) : List Bool :=
  match n with
  | 0 => []
  | k + 1 => List.replicate k true ++ [false]

end Sys2Proof.Machine
end

