-- ==== Sys2Proof/Safety.lean ====
section
/-! DEFINITION. What counts as a good state and a safe run, in the terms the statements use: the
open-drain premise (70 R195), the bus phase preconditions of the host (R194), a finished run (R190),
and the invariant every step keeps. -/

namespace Sys2Proof.Machine

open Sys2Proof

/-- The master cannot drive the line high, whatever its driver does: not in mode GPIO, or output level
low (R32, R195). -/
def cannotDriveHigh (w : PadWord) : Bool := decide (w.pmode ≠ .gpio) || !w.txlvl

/-- Neither line can be driven high by the master. -/
def State.openDrain (s : State) : Bool :=
  cannotDriveHigh (s.pad .scl) && cannotDriveHigh (s.pad .sda)

/-- The pad configuration construction leaves and the engine keeps: mode GPIO, input enabled, output
level low (R186, R195, R123 (c)). -/
def configured (w : PadWord) : Bool :=
  decide (w.pmode = .gpio) && !w.rxdis && !w.txlvl

/-- Both pads are as construction left them but for the driver. -/
def State.linesConfigured (s : State) : Bool :=
  configured (s.pad .scl) && configured (s.pad .sda)

/-- What the data line, released by the master, reads at the event `k` events from now: high unless the
slave pulls it low with the input enabled in mode GPIO, a free value otherwise (R32, R114). -/
def State.answerAt (s : State) (k : Nat) : Bool :=
  if !(s.pad .sda).rxdis && decide ((s.pad .sda).pmode = .gpio) then !(s.sampleAt k).sdaLow
  else (s.sampleAt k).draw

/-- The operations that need an engine: the I2CBus and BlockTransfer operations other than construction,
and the wire formats, which they put on the lines (R27). -/
def needsEngine (i : Instr) : Bool :=
  match i with
  | .openPad => false
  | .getConfig _ => false
  | .setConfig _ => false
  | .setPadMode _ => false
  | .enableRx _ => false
  | .enableTx _ => false
  | .getRx _ => false
  | .getTx _ => false
  | .setTx _ => false
  | .construct => false
  | .teardown => true
  | .start => true
  | .stop => true
  | .writeBit => true
  | .readBit => true
  | .writeByte => true
  | .readByte => true
  | .delay => true
  | .smbusBlockWrite => true
  | .smbusBlockRead => true
  | .readAtOffset => true
  | .wireAddrWrite _ => true
  | .wireAddrRead _ => true
  | .wireCommand _ => true
  | .wireCount _ => true
  | .wireOffsetHigh _ => true
  | .wireOffsetLow _ => true
  | .wireData _ => true
  | .wireAck => true
  | .wireNack => true

/-- The bus phase an operation needs on entry to make legal I2C (R194); the engine checks none of it. -/
def phasePrecondition (i : Instr) (s : State) : Bool :=
  match i with
  | .start => decide (s.phase = some .busIdle ∨ s.phase = some .inTransaction)
  | .stop => decide (s.phase = some .inTransaction)
  | .writeBit => decide (s.phase = some .inTransaction)
  | .readBit => decide (s.phase = some .inTransaction)
  | .writeByte =>
    decide (s.phase = some .inTransaction ∨ (s.regs.flag = true ∧ s.phase = some .busIdle))
  | .readByte => decide (s.phase = some .inTransaction)
  | .smbusBlockWrite => decide (s.phase = some .busIdle)
  | .smbusBlockRead => decide (s.phase = some .busIdle)
  | .readAtOffset => decide (s.phase = some .busIdle)
  | .teardown => decide (s.phase = some .busIdle)
  | .wireAddrWrite _ => decide (s.phase = some .inTransaction)
  | .wireAddrRead _ => decide (s.phase = some .inTransaction)
  | .wireCommand _ => decide (s.phase = some .inTransaction)
  | .wireCount _ => decide (s.phase = some .inTransaction)
  | .wireOffsetHigh _ => decide (s.phase = some .inTransaction)
  | .wireOffsetLow _ => decide (s.phase = some .inTransaction)
  | .wireData _ => decide (s.phase = some .inTransaction)
  | .wireAck => decide (s.phase = some .inTransaction)
  | .wireNack => decide (s.phase = some .inTransaction)
  | .openPad => true
  | .getConfig _ => true
  | .setConfig _ => true
  | .setPadMode _ => true
  | .enableRx _ => true
  | .enableTx _ => true
  | .getRx _ => true
  | .getTx _ => true
  | .setTx _ => true
  | .construct => true
  | .delay => true

/-- A finished run ends with no engine and SEQ Idle (R190). -/
def State.finished (s : State) : Bool := decide (s.life = .absent) && decide (s.seq = [])

/-- Requests one after the other, each with the operands handed over before it, stopping at the first
that does not answer a next state. -/
def runAll (rs : List (List Load × Instr)) (s : State) : Host.Outcome State Fault Refusal :=
  match rs with
  | [] => .next s
  | r :: rest =>
    match exec r.2 { s with regs := r.1.foldl applyLoad s.regs } with
    | .next t => runAll rest t
    | .fault f => .fault f
    | .refused f => .refused f

/-- With the pads at `p`, two drivers fight at the event `k` events from now: on some line the master drives
high while the slave pulls low (R32, 93 U6). -/
abbrev State.driversFight (s : State) (p : PerLine PadWord) (k : Nat) : Prop :=
  ∃ l, (p.get l).pmode = .gpio ∧ (p.get l).txdis = false ∧ (p.get l).txlvl = true
    ∧ (s.sampleAt k).low l = true

/-- The listings that a request moves SEQ into (R82). -/
def requestable (o : Operation) : Bool :=
  match o with
  | .rel => false
  | .low => false
  | .drive => false
  | .smp => false
  | .openPad => true
  | .getConfig => true
  | .setConfig => true
  | .setPadMode => true
  | .enableRx => true
  | .enableTx => true
  | .getRx => true
  | .getTx => true
  | .setTx => true
  | .construct => true
  | .teardown => true
  | .start => true
  | .stop => true
  | .writeBit => true
  | .readBit => true
  | .writeByte => true
  | .readByte => true
  | .delay => true
  | .smbusBlockWrite => true
  | .smbusBlockRead => true
  | .readAtOffset => true

/-- The listings that run on a live engine only (R27). -/
def Operation.ofEngine (o : Operation) : Bool :=
  match o with
  | .openPad => false
  | .getConfig => false
  | .setConfig => false
  | .setPadMode => false
  | .enableRx => false
  | .enableTx => false
  | .getRx => false
  | .getTx => false
  | .setTx => false
  | .construct => false
  | .teardown => true
  | .start => true
  | .stop => true
  | .writeBit => true
  | .readBit => true
  | .writeByte => true
  | .readByte => true
  | .delay => true
  | .smbusBlockWrite => true
  | .smbusBlockRead => true
  | .readAtOffset => true
  | .rel => true
  | .low => true
  | .drive => true
  | .smp => true

/-- `callee` runs what the next step of `caller` calls (R30). -/
def calledBy (saved : PerLine PadWord) (callee caller : SeqFrame) : Bool :=
  match callOf caller saved with
  | none => false
  | some c => decide (c.operation = callee.operation ∧ c.line = callee.line
      ∧ c.operands = callee.operands)

/-- SEQ's stack, innermost first: a request at the bottom, every other entry called by the one under it
(R30). -/
def stackOk (saved : PerLine PadWord) (q : List SeqFrame) : Bool :=
  match q with
  | [] => true
  | f :: rest =>
    (match rest with
      | [] => requestable f.operation
      | g :: _ => calledBy saved f g) && stackOk saved rest

/-- How a call leaves the driver of line `l` (true: released), if it sets it (R95, R111 to R113). -/
def drivenBy (l : Line) (f : SeqFrame) : Option Bool :=
  match f.operation with
  | .rel => if f.line = l then some true else none
  | .low => if f.line = l then some false else none
  | .drive => if l = .sda then some f.operands.bit else none
  | .enableTx => if f.line = l then some (!f.operands.flag) else none
  | .openPad => none
  | .getConfig => none
  | .setConfig => none
  | .setPadMode => none
  | .enableRx => none
  | .getRx => none
  | .getTx => none
  | .setTx => none
  | .construct => none
  | .teardown => none
  | .start => none
  | .stop => none
  | .writeBit => none
  | .readBit => none
  | .writeByte => none
  | .readByte => none
  | .delay => none
  | .smbusBlockWrite => none
  | .smbusBlockRead => none
  | .readAtOffset => none
  | .smp => none

/-- How some calls, first to last, leave the driver of line `l`, if one of them sets it. -/
def lastDrive (l : Line) (calls : List SeqFrame) : Option Bool :=
  calls.foldl (fun d f => (drivenBy l f).or d) none

/-- A start, a stop or a bit cell is in progress at this entry of SEQ (R34). -/
def inCell (f : SeqFrame) : Bool :=
  decide (f.operation = .rel ∨ f.operation = .low ∨ f.operation = .drive ∨ f.operation = .smp)
  || (decide (f.operation = .start ∨ f.operation = .stop ∨ f.operation = .writeBit
        ∨ f.operation = .readBit) && decide (f.nextStep ≠ 1))

/-- The locals of `smbusBlockWrite` are those of its listing: no more bytes are counted than sent, and no
more sent than there are (R141, R147). -/
def payloadOk (f : SeqFrame) : Bool :=
  if f.nextStep = 1 then decide (f.k = 0)
  else
    decide (f.operands.txbuf.length ≤ Config.maxBlock ∧ f.cnt.toNat ≤ f.k
      ∧ f.k ≤ f.operands.txbuf.length ∧ (f.nextStep = 5 → f.k < f.operands.txbuf.length))

/-- What holds of the state whatever the sequencer is doing: PHASE is defined exactly while Live (R40); in
BusIdle both lines are released and in InTransaction the clock is driven (R34); COUNT is 0 to 32 (R28);
every event of T is an instant that has passed. -/
structure State.InvData (s : State) : Prop where
  phaseDefined : s.phase.isSome = true ↔ s.life = .live
  idleReleased : s.phase = some .busIdle →
    (s.pad .scl).txdis = true ∧ (s.pad .sda).txdis = true
  openClockDriven : s.phase = some .inTransaction → (s.pad .scl).txdis = false
  countBound : s.regs.count.toNat ≤ Config.maxBlock
  traceBound : s.trace.length ≤ s.instant

/-- What holds of SEQ (R30): at most four entries, a request at the bottom and every other entry called by
the one under it; an engine listing runs while Live (R27) and `construct` while Absent (R115); PHASE is
"anything else" while a start, stop or bit cell is in progress (R34); a line is as the last finished call
of the running listing left it; a block write's locals are those of its listing (R147). -/
structure State.InvSeq (s : State) : Prop where
  depth : s.seq.length ≤ 4
  stack : stackOk s.saved s.seq = true
  stepsFromOne : ∀ f ∈ s.seq, 1 ≤ f.nextStep
  engineLive : ∀ f ∈ s.seq, f.operation.ofEngine = true → s.life = .live
  constructAbsent : ∀ f ∈ s.seq, f.operation = .construct → s.life = .absent
  cellPhase : ∀ f ∈ s.seq, inCell f = true → s.phase = some .undefined
  driven : ∀ f ∈ s.seq, ∀ l r,
    lastDrive l ((straightCalls f s.saved).take (f.nextStep - 1)) = some r → (s.pad l).txdis = r
  payload : ∀ f ∈ s.seq, f.operation = .smbusBlockWrite → payloadOk f = true

/-- The invariant of the block. -/
structure State.Inv (s : State) : Prop where
  data : s.InvData
  seq : s.InvSeq

end Sys2Proof.Machine
end

