-- ==== Sys2Proof/Certificates/Slice0/Obligations.lean ====
section
/-! DEFINITION. The statements about the block for the provers: encodings, the step, the sequencer, each
operation's result and frame, the frames on the wire, and the invariants. A statement marked "model's
choice" rests on the log entry it names. Three fields are the model's own or left open by a rule: PHASE
after a write by the host or a bit cell, the instant, and the recorded fights. A statement that formalises
a rule leaves them free (`∃ p c j`); what they become is said once, in PhaseAfterHostWrites,
PhaseAfterBitCells, EveryEventIsOneInstant, FightsStayRecorded and EngineChangesDrivesOnly. Every statement
about a GpioLine operation holds also where its line's handle was never opened: model's choice (note 37). -/

open Sys2Proof Sys2Proof.Machine

/-- R82, R75 to R79: no bit of an encoding is dropped. Model's choice (note 24): a wire format is
decoded by its place in a frame. -/
def Obligations.DecodeOfEncodeIsTheInstruction : Prop :=
  ∀ i : Instr, i.wellFormed = true → decode (slotOf i) (encode i) = .ok i

/-- The other direction: what decodes is well formed, met in its own slot, and re-encodes to the same
word, or, for a request, to the same word but for the line bit. Model's choice (note 23): the line bit
is not looked at outside the GpioLine operations. -/
def Obligations.DecodedWordIsReencoded : Prop :=
  ∀ (slot : Slot) (w : BitVec 9) (i : Instr), decode slot w = .ok i →
    i.wellFormed = true ∧ slotOf i = slot
      ∧ (encode i = w ∨ (slot = .request ∧ encode i = w &&& 0x0FF#9))

/-- The request rows of the opcode table are told apart by their fixed bits. -/
def Obligations.RequestRowsDoNotOverlap : Prop :=
  requestRows.Pairwise (fun p q => (p.pattern ^^^ q.pattern) &&& (p.mask &&& q.mask) ≠ 0)

/-- Words written out from R82 and R77 to R79. PRESUMED by the spec (note 17): the direction bit in the
address byte. -/
def Obligations.WrittenOutWordsDecode : Prop :=
  decode .request 0b100000101#9 = .ok (.enableTx .sda)
  ∧ decode .request 0b000000001#9 = .ok (.getConfig .scl)
  ∧ decode .request 0b000010110#9 = .ok .writeByte
  ∧ decode .request 0b000100001#9 = .ok .smbusBlockRead
  ∧ decode .addressByte 0b001000111#9 = .ok (.wireAddrRead 0x23)
  ∧ decode .countByte 0b000100000#9 = .ok (.wireCount 32)
  ∧ decode .countByte 0b000100001#9 = .error (.countAboveMaximum 33)

/-- R84, R169 (c): a selector that is not in R82 is refused by name; the refusal stands in STATUS and
nothing else changes (R28, R161). -/
def Obligations.UnlistedSelectorIsRefused : Prop :=
  ∀ (s : State) (r : Request) (rest : List HostAct),
    s.contention = false → s.requests = .call r :: rest ∨ s.requests = .post r :: rest →
    (∀ p ∈ requestRows, (r.word &&& 0x0FF#9) ≠ p.pattern) →
    step s = .next { s with
      requests := rest
      regs := { r.loads.foldl applyLoad s.regs with
        status := .refused (.unknownSelector (r.word.setWidth 8)) } }

/-- R170, R28, R204: a request the host waits for, decoded, runs to its end on the operands handed over with
it. One it does not wait for moves SEQ to step 1 of its listing (R30). A refused one has no effect but
STATUS, which takes the reason (R161, R169). -/
def Obligations.StepRunsTheDecodedRequest : Prop :=
  ∀ (s s' : State) (r : Request) (rest : List HostAct) (i : Instr),
    s.contention = false → decode .request r.word = .ok i →
    s' = { s with regs := r.loads.foldl applyLoad s.regs, requests := rest } →
    (s.requests = .call r :: rest → ∀ t, exec i s' = .next t → step s = .next t)
    ∧ (s.requests = .post r :: rest → ∀ t, exec i s' = .next t →
        step s = .next { s' with seq := [entryOf i s'.regs] })
    ∧ (s.requests = .call r :: rest ∨ s.requests = .post r :: rest →
        ∀ why, exec i s' = .refused why →
          step s = .next { s' with regs := { s'.regs with status := .refused why } })

/-- Model's choice (notes 2, 3): with nothing asked of it the block makes one step of the sequencer, which
changes nothing while SEQ is Idle; operands may be handed over without a request (R204). -/
def Obligations.StepWithoutRequestWaits : Prop :=
  ∀ s : State, s.contention = false →
    (s.requests = [] → s.seq = [] → step s = .next s)
    ∧ (s.requests = [] → step s = .next (tick s))
    ∧ (∀ rest, s.requests = .wait :: rest → step s = .next (tick { s with requests := rest }))
    ∧ ∀ xs rest, s.requests = .load xs :: rest →
        step s = .next { s with regs := xs.foldl applyLoad s.regs, requests := rest }

/-- R32 with 93 U6; model's choice (note 13): the fight is recorded and the next step faults. -/
def Obligations.StepAfterDriversFoughtFaults : Prop :=
  ∀ s : State, s.contention = true → step s = .fault .lineContention

/-- R169 (d), R193: while SEQ is not Idle every request is refused. Model's choice (note 24): so is
every wire format, which R82 makes no request. -/
def Obligations.RequestWhileBusyIsRefused : Prop :=
  ∀ (i : Instr) (s : State), s.seq ≠ [] → exec i s = .refused .busy

/-- R27, R169 (a): while Absent every operation of the engine is refused. Model's choice: that every
wire format, which R82 makes no request, is refused with them (note 24), and DEDUCED that `delay` is
(note 33). -/
def Obligations.EngineOperationWhileAbsentIsRefused : Prop :=
  ∀ (i : Instr) (s : State), s.seq = [] → s.life = .absent → needsEngine i = true →
    exec i s = .refused .engineAbsent

/-- R169 (b): `construct` is refused while Live, and for one pad handed over twice. -/
def Obligations.SenselessConstructIsRefused : Prop :=
  (∀ s : State, s.seq = [] → s.life = .live → exec .construct s = .refused .engineLive)
  ∧ ∀ (s : State) (p : PadId), s.seq = [] → s.life = .absent →
      s.regs.clock = some p → s.regs.data = some p → exec .construct s = .refused .samePad

/-- Every operation and wire format completes wherever R169 does not refuse it; SEQ is Idle again
afterwards, and neither the requests to come nor the environment's answers change. Model's choice: that
`construct` completes with a handle never handed over, to which R115 gives no meaning (note 19), that
the wire formats complete (note 24), and a GpioLine operation on a line never opened (note 37). -/
def Obligations.EveryInstructionCompletes : Prop :=
  ∀ (i : Instr) (s : State), s.seq = [] → (needsEngine i = true → s.life = .live) →
    (i = .construct → s.life = .absent ∧ (s.regs.clock = none ∨ s.regs.clock ≠ s.regs.data)) →
    ∃ t, exec i s = .next t ∧ t.seq = [] ∧ t.requests = s.requests ∧ t.slave = s.slave
      ∧ s.instant ≤ t.instant

/-- R167, R172: no operation ends in a fault. Model's choice (note 13): a fight of drivers is recorded.
It is said of the wire formats too (note 24). -/
def Obligations.NoOperationFaults : Prop :=
  ∀ (i : Instr) (s : State) (f : Fault), exec i s ≠ .fault f

/-- R90, R161, R162: a handle and Ok, or no handle and IdentityNotFound with the identity; no pad is touched.
Model's choice (note 19): the handle is the identity it was resolved from. -/
def Obligations.OpenAnswersHandleOrIdentityNotFound : Prop :=
  ∀ s : State, s.seq = [] →
    exec .openPad s = .next { s with regs := { s.regs with
      handle := if Config.resolves ⟨s.regs.idPort, s.regs.idPad⟩
        then some ⟨s.regs.idPort, s.regs.idPad⟩ else none
      status := if Config.resolves ⟨s.regs.idPort, s.regs.idPad⟩
        then .ok else .identityNotFound ⟨s.regs.idPort, s.regs.idPad⟩ } }

/-- R91: one read; CFG takes the stored word with the live input level.
Model's choice (note 37): also on a line whose handle was never opened. -/
def Obligations.GetConfigReadsTheLiveWord : Prop :=
  ∀ (l : Line) (s : State), s.seq = [] →
    ∃ c j, exec (.getConfig l) s = .next { s with
      regs := { s.regs with cfg := s.readWord l }
      trace := s.record [.rd l (s.readWord l)]
      instant := j, contention := c }

/-- R92: one write of all 32 bits, of which the input level is not kept (92 D22). Model's choice (note
37): also on a line whose handle was never opened. PRESUMED by the spec (note 12): a write does not set
the input level. -/
def Obligations.SetConfigWritesTheWord : Prop :=
  ∀ (l : Line) (s : State), s.seq = [] →
    ∃ p c j, exec (.setConfig l) s = .next { s with
      pads := s.pads.set l { s.regs.cfg with rxlvl := (s.pad l).rxlvl }
      trace := s.record [.wr l s.regs.cfg]
      phase := p, instant := j, contention := c }

/-- R93: PMODE is rewritten in the copy, one read and one write.
Model's choice (note 37): also on a line whose handle was never opened. -/
def Obligations.SetPadModeRewritesTheMode : Prop :=
  ∀ (l : Line) (s : State), s.seq = [] →
    ∃ p c j, exec (.setPadMode l) s = .next { s with
      pads := s.pads.set l { s.pad l with pmode := s.regs.mode }
      trace := s.record [.rd l (s.readWord l), .wr l { s.readWord l with pmode := s.regs.mode }]
      phase := p, instant := j, contention := c }

/-- R94: RXDIS is 0 for true and 1 for false.
Model's choice (note 37): also on a line whose handle was never opened. -/
def Obligations.EnableRxWritesTheInputDisable : Prop :=
  ∀ (l : Line) (s : State), s.seq = [] →
    ∃ p c j, exec (.enableRx l) s = .next { s with
      pads := s.pads.set l { s.pad l with rxdis := !s.regs.flag }
      trace := s.record [.rd l (s.readWord l), .wr l { s.readWord l with rxdis := !s.regs.flag }]
      phase := p, instant := j, contention := c }

/-- R95: TXDIS is 0 for true and 1 for false.
Model's choice (note 37): also on a line whose handle was never opened. -/
def Obligations.EnableTxWritesTheOutputDisable : Prop :=
  ∀ (l : Line) (s : State), s.seq = [] →
    ∃ p c j, exec (.enableTx l) s = .next { s with
      pads := s.pads.set l { s.pad l with txdis := !s.regs.flag }
      trace := s.record [.rd l (s.readWord l), .wr l { s.readWord l with txdis := !s.regs.flag }]
      phase := p, instant := j, contention := c }

/-- R96: one read; BIT takes the input level.
Model's choice (note 37): also on a line whose handle was never opened. -/
def Obligations.GetRxReadsTheInputLevel : Prop :=
  ∀ (l : Line) (s : State), s.seq = [] →
    ∃ c j, exec (.getRx l) s = .next { s with
      regs := { s.regs with
        bit := inputLevel (s.pad l) ((s.sampleAt 0).low l) (s.sampleAt 0).draw }
      trace := s.record [.rd l (s.readWord l)]
      instant := j, contention := c }

/-- R97: one read; BIT takes the output level as last written.
Model's choice (note 37): also on a line whose handle was never opened. -/
def Obligations.GetTxReadsTheOutputLevel : Prop :=
  ∀ (l : Line) (s : State), s.seq = [] →
    ∃ c j, exec (.getTx l) s = .next { s with
      regs := { s.regs with bit := (s.pad l).txlvl }
      trace := s.record [.rd l (s.readWord l)]
      instant := j, contention := c }

/-- R98: TXLVL is 1 for true and 0 for false.
Model's choice (note 37): also on a line whose handle was never opened. -/
def Obligations.SetTxWritesTheOutputLevel : Prop :=
  ∀ (l : Line) (s : State), s.seq = [] →
    ∃ p c j, exec (.setTx l) s = .next { s with
      pads := s.pads.set l { s.pad l with txlvl := s.regs.flag }
      trace := s.record [.rd l (s.readWord l), .wr l { s.readWord l with txlvl := s.regs.flag }]
      phase := p, instant := j, contention := c }

/-- R99: each of the four mutating operations is exactly one read and one write of the same line,
changes only its own field in the word it read, and leaves the other line alone. -/
def Obligations.MutatorsAreOneReadAndOneWrite : Prop :=
  ∀ (i : Instr) (l : Line) (s : State), s.seq = [] →
    i = .setPadMode l ∨ i = .enableRx l ∨ i = .enableTx l ∨ i = .setTx l →
    ∃ t w w', exec i s = .next t
      ∧ t.trace = s.record [.rd l w, .wr l w'] ∧ t.instant = s.instant + 2
      ∧ (i = .setPadMode l → { w' with pmode := w.pmode } = w)
      ∧ (i = .enableRx l → { w' with rxdis := w.rxdis } = w)
      ∧ (i = .enableTx l → { w' with txdis := w.txdis } = w)
      ∧ (i = .setTx l → { w' with txlvl := w.txlvl } = w)
      ∧ w = { s.pad l with rxlvl := w.rxlvl }
      ∧ t.pad l = { w' with rxlvl := (s.pad l).rxlvl }
      ∧ ∀ m, m ≠ l → t.pad m = s.pad m

/-- R24, R32: with the input enabled in mode GPIO and no fight of drivers, BIT is 0 exactly if the
master or the slave pulls the line low; otherwise it is the free value of the instant (92 D21). Model's
choice (note 13): the fight is recorded. -/
def Obligations.InputLevelFollowsTheLine : Prop :=
  ∀ (l : Line) (s : State), s.seq = [] →
    ∃ t, exec (.getRx l) s = .next t
      ∧ ((s.pad l).pmode = .gpio → (s.pad l).rxdis = false →
          (((s.pad l).txdis = false ∧ (s.pad l).txlvl = false) ∨
            ((s.pad l).txdis = true ∧ (s.sampleAt 0).low l = true)) → t.regs.bit = false)
      ∧ ((s.pad l).pmode = .gpio → (s.pad l).rxdis = false →
          (s.sampleAt 0).low l = false →
          ((s.pad l).txdis = true ∨ (s.pad l).txlvl = true) → t.regs.bit = true)
      ∧ ((s.pad l).pmode ≠ .gpio ∨ (s.pad l).rxdis = true →
          t.regs.bit = (s.sampleAt 0).draw)
      ∧ ((s.pad l).pmode = .gpio → (s.pad l).txdis = false → (s.pad l).txlvl = true →
          (s.sampleAt 0).low l = true →
          t.regs.bit = (s.sampleAt 0).draw ∧ t.contention = true)

/-- 92 D22: what stands at the input level in a written word leaves no mark on the pads. PRESUMED by the
spec (note 12). -/
def Obligations.WrittenInputLevelIsNotKept : Prop :=
  ∀ (l : Line) (s : State) (b : Bool), s.seq = [] →
    ∃ t u, exec (.setConfig l) s = .next t
      ∧ exec (.setConfig l)
          { s with regs := { s.regs with cfg := { s.regs.cfg with rxlvl := b } } } = .next u
      ∧ t.pads = u.pads ∧ (∀ m, t.readWord m = u.readWord m)

/-- R25, 92 D4, D5: under every valid layout and injective mode code the fields and the 32-bit word are
two views of the same thing. -/
def Obligations.PadWordViewsAreInverse : Prop :=
  ∀ (p : PadLayout) (code : PadMode → BitVec 3), p.Valid → ValidModeCode code →
    (∀ w, PadWord.ofBits p code (PadWord.toBits p code w) = w)
    ∧ ∀ v, PadWord.toBits p code (PadWord.ofBits p code v) = v

/-- R93 to R95, R98 as bit slices: writing a field writes its bits in the 32-bit word and no other. -/
def Obligations.FieldWritesAreBitWrites : Prop :=
  ∀ (p : PadLayout) (code : PadMode → BitVec 3) (w : PadWord) (m : PadMode) (b : Bool), p.Valid →
    PadWord.toBits p code { w with pmode := m }
        = replaceField (PadWord.toBits p code w) p.pmodeLsb (code m)
    ∧ PadWord.toBits p code { w with rxdis := b }
        = replaceBit (PadWord.toBits p code w) p.rxdisBit b
    ∧ PadWord.toBits p code { w with txdis := b }
        = replaceBit (PadWord.toBits p code w) p.txdisBit b
    ∧ PadWord.toBits p code { w with txlvl := b }
        = replaceBit (PadWord.toBits p code w) p.txlvlBit b

/-- R115, R186: construction completes, in some order of its captures and of its settings (open, R5,
note 16), with both words captured and both lines configured, after 18 accesses and no delay. In the
default order (92 D8) the 18 accesses stand as listed. Model's choice (note 36): the operand and result
registers keep their values. Model's choice: that construction runs and acts on the two pads with no
handle handed over, where R115 takes two opened handles (note 19), and that T holds its 18 accesses, the
option of R40 taken (note 14). -/
def Obligations.ConstructCapturesAndConfigures : Prop :=
  ∀ s : State, s.seq = [] → s.life = .absent →
    (s.regs.clock = none ∨ s.regs.clock ≠ s.regs.data) →
    (∃ captures settings sv es c j,
      captures.Perm [.scl, .sda] ∧ settings.Perm Config.defaultConstructOrder
      ∧ exec .construct s = .next (constructWith captures settings s)
      ∧ exec .construct s = .next { s with
          pads :=
            { scl := { s.pads.scl with pmode := .gpio, rxdis := false, txdis := true, txlvl := false }
              sda := { s.pads.sda with pmode := .gpio, rxdis := false, txdis := true, txlvl := false } }
          saved := sv
          life := .live, phase := some .busIdle
          trace := es, instant := j, contention := c }
      ∧ (∀ l, { sv.get l with rxlvl := (s.pad l).rxlvl } = s.pad l)
      ∧ accessCount es = 18 ∧ delayCount es = 0)
    ∧ ∃ es c j,
      constructWith Config.defaultCaptureOrder Config.defaultConstructOrder s = { s with
        pads :=
          { scl := { s.pads.scl with pmode := .gpio, rxdis := false, txdis := true, txlvl := false }
            sda := { s.pads.sda with pmode := .gpio, rxdis := false, txdis := true, txlvl := false } }
        saved :=
          { scl := { s.pads.scl with
              rxlvl := inputLevel s.pads.scl (s.sampleAt 0).sclLow (s.sampleAt 0).draw }
            sda := { s.pads.sda with
              rxlvl := inputLevel s.pads.sda (s.sampleAt 1).sdaLow (s.sampleAt 1).draw } }
        life := .live, phase := some .busIdle
        trace := es, instant := j, contention := c }
      ∧ es.map Event.shape =
          [.read .scl, .read .sda,
           .read .scl, .write .scl s.pads.scl.txdis, .read .scl, .write .scl true,
           .read .scl, .write .scl true, .read .scl, .write .scl true,
           .read .sda, .write .sda s.pads.sda.txdis, .read .sda, .write .sda true,
           .read .sda, .write .sda true, .read .sda, .write .sda true]

/-- R115, R198, 92 D8: for every order of the captures and of the settings, construction captures both
words before it writes, in the order given, leaves both lines configured and released, performs 18
accesses and no delay, and changes nothing else. Model's choice (note 36): the operand and result
registers keep their values. Model's choice: it looks at no handle (note 19), and T holds its 18
accesses, the option of R40 taken (note 14). -/
def Obligations.ConstructEndStateForEveryOrder : Prop :=
  ∀ (captures : List Line) (settings : List (Line × PadSetting)) (s : State),
    captures.Perm [.scl, .sda] → settings.Perm Config.defaultConstructOrder →
    ∃ sv es c j, constructWith captures settings s = { s with
        pads :=
          { scl := { s.pads.scl with pmode := .gpio, rxdis := false, txdis := true, txlvl := false }
            sda := { s.pads.sda with pmode := .gpio, rxdis := false, txdis := true, txlvl := false } }
        saved := sv
        life := .live, phase := some .busIdle, seq := []
        trace := es, instant := j, contention := c }
      ∧ (∀ l, { sv.get l with rxlvl := (s.pad l).rxlvl } = s.pad l)
      ∧ (es.take 2).map Event.shape = captures.map Shape.read
      ∧ accessCount es = 18 ∧ delayCount es = 0

/-- R116: teardown completes with one write of the saved word of each line, in one of the two orders
(open, R5, note 16); every bit but the input level is restored. In the default order (92 D9) the clock
line comes first. Model's choice (note 14): T takes the two writes before it closes. PRESUMED by the
spec (note 12): they do not set the input level. -/
def Obligations.TeardownWritesTheSavedWords : Prop :=
  ∀ s : State, s.seq = [] → s.life = .live →
    (∃ order c j, order.Perm [.scl, .sda] ∧ exec .teardown s = .next { s with
        pads := { scl := { s.saved.scl with rxlvl := s.pads.scl.rxlvl }
                  sda := { s.saved.sda with rxlvl := s.pads.sda.rxlvl } }
        life := .absent, phase := none
        trace := s.trace ++ order.map (fun l => Event.wr l (s.saved.get l))
        instant := j, contention := c }
      ∧ exec .teardown s = .next (teardownWith order s))
    ∧ ∃ c j, teardownWith Config.defaultTeardownOrder s = { s with
        pads := { scl := { s.saved.scl with rxlvl := s.pads.scl.rxlvl }
                  sda := { s.saved.sda with rxlvl := s.pads.sda.rxlvl } }
        life := .absent, phase := none
        trace := s.trace ++ [.wr .scl s.saved.scl, .wr .sda s.saved.sda]
        instant := j, contention := c }

/-- R116, S8 (C2): whatever requests come between a construction and its teardown, with whatever
operands, the teardown completes and both pads are what they were right before construction, in every
bit but the live input level. Model's choice: also with no handle handed over (note 19), and with wire
formats among the requests (note 24). -/
def Obligations.TeardownRestoresWhatConstructFound : Prop :=
  ∀ (s t u : State) (rs : List (List Load × Instr)),
    exec .construct s = .next t → runAll rs t = .next u → (∀ r ∈ rs, r.2 ≠ .teardown) →
    ∃ v, exec .teardown u = .next v ∧ v.life = .absent
      ∧ ∀ l, { v.pad l with rxlvl := (s.pad l).rxlvl } = s.pad l

/-- R26: SAVED is written by construction only. -/
def Obligations.SavedIsWrittenByConstructOnly : Prop :=
  ∀ (i : Instr) (s t : State), i ≠ .construct → exec i s = .next t → t.saved = s.saved

/-- R110: a delay is one event and touches no register. -/
def Obligations.DelayIsOneEvent : Prop :=
  ∀ s : State, s.seq = [] → s.life = .live →
    ∃ c j, exec .delay s = .next { s with
      trace := s.trace ++ [.dly]
      instant := j, contention := c }

/-- R117: the seven events in their order; both lines pulled low; InTransaction; nothing else changes. -/
def Obligations.StartIsItsSevenEvents : Prop :=
  ∀ s : State, s.seq = [] → s.life = .live →
    ∃ es c j, exec .start s = .next { s with
        pads := withDrives s.pads false false, phase := some .inTransaction
        trace := s.trace ++ es, instant := j, contention := c }
      ∧ es.map Event.shape = relShape .sda ++ relShape .scl ++ [.delay] ++ lowShape .sda ++ [.delay]
          ++ lowShape .scl ++ [.delay]

/-- R118: the six events in their order; both lines released; BusIdle; nothing else changes. -/
def Obligations.StopIsItsSixEvents : Prop :=
  ∀ s : State, s.seq = [] → s.life = .live →
    ∃ es c j, exec .stop s = .next { s with
        pads := withDrives s.pads true true, phase := some .busIdle
        trace := s.trace ++ es, instant := j, contention := c }
      ∧ es.map Event.shape = lowShape .sda ++ [.delay] ++ relShape .scl ++ [.delay]
          ++ relShape .sda ++ [.delay]

/-- R119: the five events in their order, a 1 sent by releasing SDA and a 0 by pulling it low; nothing else
changes. Performed in any bus phase (R194). -/
def Obligations.WriteBitIsItsFiveEvents : Prop :=
  ∀ s : State, s.seq = [] → s.life = .live →
    ∃ es c j p, exec .writeBit s = .next { s with
        pads := withDrives s.pads false s.regs.bit, phase := p
        trace := s.trace ++ es, instant := j, contention := c }
      ∧ es.map Event.shape =
          (if s.regs.bit then relShape .sda else lowShape .sda) ++ [.delay] ++ relShape .scl
            ++ [.delay] ++ lowShape .scl

/-- R120: the six events in their order; BIT takes the level sampled after the second delay, which is the
level itself; nothing else changes. -/
def Obligations.ReadBitIsItsSixEvents : Prop :=
  ∀ s : State, s.seq = [] → s.life = .live →
    ∃ es c j p, exec .readBit s = .next { s with
        pads := withDrives s.pads false true, phase := p
        regs := { s.regs with bit := s.answerAt 6 }
        trace := s.trace ++ es, instant := j, contention := c }
      ∧ es.map Event.shape = relShape .sda ++ [.delay] ++ relShape .scl ++ [.delay] ++ [.read .sda]
          ++ lowShape .scl

/-- R121, R202: an optional start, eight written cells bit 7 first, one read cell whose negated level is ACKED,
each event where the cells have it; 18 delays and 55 accesses, 21 and 63 with the start; nothing else
changes. Model's choice (note 20): BIT keeps its value under the inner `readBit`. The events are these
also with SCL released on entry and no start (R194). -/
def Obligations.WriteByteSendsAByteFrame : Prop :=
  ∀ s : State, s.seq = [] → s.life = .live →
    ∃ es c j p, exec .writeByte s = .next { s with
        pads := withDrives s.pads false true
        phase := p
        regs := { s.regs with acked := !(s.answerAt (frameSample (s.regs.byte, s.regs.flag))) }
        trace := s.trace ++ es
        instant := j, contention := c }
      ∧ es.map Event.shape = frameShape (s.regs.byte, s.regs.flag)
      ∧ delayCount es = (if s.regs.flag then 21 else 18)
      ∧ accessCount es = (if s.regs.flag then 63 else 55)
      ∧ (((s.pad .scl).txdis = true → s.regs.flag = true ∧ (s.pad .sda).txdis = true) →
          (es.foldl observe (observerAt s)).symbols = frameSymbols (s.regs.byte, s.regs.flag))

/-- R122, R202: eight read cells assembled bit 7 first, then the negation of `sendAck` written, each event
where the cells have it; 18 delays and 62 accesses; nothing else changes. Model's choice (note 20): BIT
keeps its value under the inner `readBit`. The events are these also with SCL released on entry (R194). -/
def Obligations.ReadByteAssemblesAByte : Prop :=
  ∀ s : State, s.seq = [] → s.life = .live →
    ∃ es c j p v, exec .readByte s = .next { s with
        pads := withDrives s.pads false (!s.regs.flag), phase := p
        regs := { s.regs with byte := v }
        trace := s.trace ++ es, instant := j, contention := c }
      ∧ (∀ k, k < 8 → v.getLsbD (7 - k) = s.answerAt (9 * k + 6))
      ∧ es.map Event.shape = readByteShape s.regs.flag
      ∧ delayCount es = 18 ∧ accessCount es = 62
      ∧ ((s.pad .scl).txdis = false →
          (es.foldl observe (observerAt s)).symbols = readFrame s.regs.flag)

/-- R55: both directions move bit 7 in the first cell and bit 0 in the eighth. -/
def Obligations.BitsMoveMostSignificantFirst : Prop :=
  (∀ s : State, s.seq = [] → s.life = .live →
    ((s.pad .scl).txdis = true → s.regs.flag = true ∧ (s.pad .sda).txdis = true) →
    ∃ t, exec .writeByte s = .next t
      ∧ ∀ k, k < 8 → (symbolsBetween s t)[k + if s.regs.flag then 1 else 0]?
          = some (.bit (s.regs.byte.getLsbD (7 - k))))
  ∧ ∀ s : State, s.seq = [] → s.life = .live →
    ∃ t, exec .readByte s = .next t
      ∧ ∀ k, k < 8 → t.regs.byte.getLsbD (7 - k) = s.answerAt (9 * k + 6)

/-- R124, S2: the bits one `writeByte` puts on the wire, answered to a `readByte`, give the byte back. -/
def Obligations.LoopbackGivesTheByteBack : Prop :=
  ∀ u v s : State, u.seq = [] → u.life = .live →
    ((u.pad .scl).txdis = true → u.regs.flag = true ∧ (u.pad .sda).txdis = true) →
    exec .writeByte u = .next v → s.seq = [] → s.life = .live →
    (∀ k, k < 8 → (symbolsBetween u v)[k + if u.regs.flag then 1 else 0]?
      = some (.bit (s.answerAt (9 * k + 6)))) →
    ∃ t, exec .readByte s = .next t ∧ t.regs.byte = u.regs.byte

/-- R34; model's choice (note 15): after a write by the host PHASE stays while the drives it asks for hold,
and is Undefined otherwise. -/
def Obligations.PhaseAfterHostWrites : Prop :=
  ∀ (i : Instr) (l : Line) (s : State), s.seq = [] →
    i = .setConfig l ∨ i = .setPadMode l ∨ i = .enableRx l ∨ i = .enableTx l ∨ i = .setTx l →
    ∃ t, exec i s = .next t
      ∧ t.phase = s.phase.map (fun p => if phaseHolds p t then p else .undefined)

/-- R34; model's choice (note 15): a bit cell or byte frame keeps InTransaction, and is Undefined from
any other phase; with its start a frame is InTransaction. The wire formats are among them (note 24). -/
def Obligations.PhaseAfterBitCells : Prop :=
  ∀ (i : Instr) (s : State), s.seq = [] → s.life = .live →
    i = .writeBit ∨ i = .readBit ∨ i = .writeByte ∨ i = .readByte ∨ slotOf i ≠ .request →
    ∃ t, exec i s = .next t
      ∧ t.phase = (if s.phase = some .inTransaction ∨ (i = .writeByte ∧ s.regs.flag = true)
          then some .inTransaction else some .undefined)

/-- Model's choice (notes 9, 14): each event is one instant of the environment. T takes the events while an
engine is Live, begins anew with those of construction, and is closed otherwise (R37, R40). -/
def Obligations.EveryEventIsOneInstant : Prop :=
  ∀ (i : Instr) (s t : State), exec i s = .next t →
    ∃ es : List Event, t.instant = s.instant + es.length
      ∧ t.trace = (if i = .construct then es else if s.life = .live then s.trace ++ es else s.trace)

/-- R32 with 93 U6; model's choice (note 13): a fight of drivers at an event is recorded, and nothing else
is; once recorded it stays so. A write takes effect before its own event (R59). -/
def Obligations.FightsStayRecorded : Prop :=
  (∀ (i : Instr) (s t : State), exec i s = .next t → s.contention = true → t.contention = true)
  ∧ (∀ (i : Instr) (l : Line) (s : State), s.seq = [] →
      i = .setPadMode l ∨ i = .enableRx l ∨ i = .enableTx l ∨ i = .setTx l →
      ∃ t, exec i s = .next t
        ∧ (t.contention = true ↔
            s.contention = true ∨ s.driversFight s.pads 0 ∨ s.driversFight t.pads 1))
  ∧ (∀ (l : Line) (s : State), s.seq = [] →
      ∃ t, exec (.setConfig l) s = .next t
        ∧ (t.contention = true ↔ s.contention = true ∨ s.driversFight t.pads 0))
  ∧ ∀ (i : Instr) (l : Line) (s : State), s.seq = [] →
      i = .getConfig l ∨ i = .getRx l ∨ i = .getTx l →
      ∃ t, exec i s = .next t
        ∧ (t.contention = true ↔ s.contention = true ∨ s.driversFight s.pads 0)

/-- R123 (c), R33: an engine operation other than teardown completes on a live engine, changes nothing
in the pads but the two drives, and without a line that can be driven high no drivers fight. Model's
choice (note 24): the wire formats are among them. -/
def Obligations.EngineChangesDrivesOnly : Prop :=
  ∀ (i : Instr) (s : State), needsEngine i = true → i ≠ .teardown → s.seq = [] → s.life = .live →
    ∃ t a b, exec i s = .next t ∧ t.pads = withDrives s.pads a b ∧ t.life = .live
      ∧ (s.openDrain = true → t.contention = s.contention)
      ∧ (s.linesConfigured = true → t.linesConfigured = true)

/-- R123 (a): with the clock pulled low on entry, a cell or frame without a start puts bits on the wire
and neither a start nor a stop condition, and leaves the clock pulled low. Model's choice (note 24): the
wire formats are among them. -/
def Obligations.NoConditionInsideATransaction : Prop :=
  ∀ (i : Instr) (s : State), needsEngine i = true → s.seq = [] → s.life = .live →
    (s.pad .scl).txdis = false →
    (i ≠ .teardown ∧ i ≠ .start ∧ i ≠ .stop ∧ i ≠ .delay ∧ i ≠ .smbusBlockWrite
      ∧ i ≠ .smbusBlockRead ∧ i ≠ .readAtOffset ∧ (i = .writeByte → s.regs.flag = false)) →
    ∃ t, exec i s = .next t ∧ symbolsBetween s t ≠ []
      ∧ (∀ y ∈ symbolsBetween s t, ∃ b, y = .bit b) ∧ (t.pad .scl).txdis = false

/-- R165: a payload above 32 bytes answers 0 with no bus activity. -/
def Obligations.OverlongBlockWriteOnlyAnswersZero : Prop :=
  ∀ s : State, s.seq = [] → s.life = .live → 32 < s.regs.txbuf.length →
    exec .smbusBlockWrite s = .next { s with regs := { s.regs with count := 0 } }

/-- R141, R202: over-length payloads answer 0 and do nothing; otherwise address, command, count byte and
payload are sent, each only if the one before it was acknowledged, then one stop, each event where the
frames and the stop have it; COUNT is the number of payload bytes acknowledged before the first that was
not; nothing else changes. Model's choice (notes 17, 20): the direction bit of the address byte; ACKED is
written, and no other register of the inner operations. -/
def Obligations.BlockWriteSendsItsFrame : Prop :=
  ∀ s : State, s.seq = [] → s.life = .live →
    if s.regs.txbuf.length > 32 then
      exec .smbusBlockWrite s = .next { s with regs := { s.regs with count := 0 } }
    else
      ∃ es c j a n, exec .smbusBlockWrite s = .next { s with
          pads := withDrives s.pads true true, phase := some .busIdle
          regs := { s.regs with acked := a, count := n }
          trace := s.trace ++ es, instant := j, contention := c }
        ∧ (let frames : List Frame :=
            [(s.regs.addr ++ 0#1, true), (s.regs.cmd, false),
             (BitVec.ofNat 8 s.regs.txbuf.length, false)] ++ s.regs.txbuf.map (fun d => (d, false))
          let sent := sentFrames s.answerAt 0 frames
          n.toNat = ackedFrames s.answerAt 0 frames - 3
          ∧ (((s.pad .scl).txdis = true → (s.pad .sda).txdis = true) →
              (es.foldl observe (observerAt s)).symbols
                = sent.flatMap frameSymbols ++ [.stopCond])
          ∧ es.map Event.shape = sent.flatMap frameShape ++ stopShape
          ∧ delayCount es = 6 + 18 * sent.length
          ∧ accessCount es = 14 + 55 * sent.length)

/-- R143, R144, R202 in the staged reading (92 D13, note 18): the three header bytes, then, if all were
acknowledged, a length byte that is acked and that many data bytes, ack to all but the last; one stop
on every path, each event where the frames and the stop have it; RXBUF is the data, or empty; nothing else
changes. Model's choice (notes 17, 20): the direction bits; ACKED is written, and no other register of
the inner operations. -/
def Obligations.BlockReadReadsItsFrame : Prop :=
  ∀ s : State, s.seq = [] → s.life = .live →
    ∃ es c j a out, exec .smbusBlockRead s = .next { s with
        pads := withDrives s.pads true true, phase := some .busIdle
        regs := { s.regs with acked := a, rxbuf := out }
        trace := s.trace ++ es, instant := j, contention := c }
      ∧ (let header : List Frame :=
          [(s.regs.addr ++ 0#1, true), (s.regs.cmd, false), (s.regs.addr ++ 1#1, true)]
        let sent := sentFrames s.answerAt 0 header
        let n := (sampledByte s.answerAt 241).toNat
        if ackedFrames s.answerAt 0 header = 3 then
          out = sampledBytes s.answerAt 321 n
          ∧ es.map Event.shape = header.flatMap frameShape ++ readByteShape true
            ++ (ackPattern n).flatMap readByteShape ++ stopShape
          ∧ delayCount es = 63 + 18 * (1 + n)
          ∧ accessCount es = 187 + 62 * (1 + n)
          ∧ (((s.pad .scl).txdis = true → (s.pad .sda).txdis = true) →
              (es.foldl observe (observerAt s)).symbols
                = header.flatMap frameSymbols ++ readFrame true
                  ++ (ackPattern n).flatMap readFrame ++ [.stopCond])
        else
          out = []
          ∧ es.map Event.shape = sent.flatMap frameShape ++ stopShape
          ∧ delayCount es = 3 + (sent.map frameDelays).sum
          ∧ accessCount es = 6 + (sent.map frameAccesses).sum
          ∧ (((s.pad .scl).txdis = true → (s.pad .sda).txdis = true) →
              (es.foldl observe (observerAt s)).symbols
                = sent.flatMap frameSymbols ++ [.stopCond]))

/-- R145, R202 in the staged reading (92 D14, note 18): the four header bytes, offset high byte first,
then, if all were acknowledged, exactly LENGTH data bytes with no length byte; one stop on every path, each
event where the frames and the stop have it. Model's choice (notes 17, 20): the direction bits; ACKED is
written, and no other register of the inner operations. -/
def Obligations.ReadAtOffsetReadsItsFrame : Prop :=
  ∀ s : State, s.seq = [] → s.life = .live →
    ∃ es c j a out, exec .readAtOffset s = .next { s with
        pads := withDrives s.pads true true, phase := some .busIdle
        regs := { s.regs with acked := a, rxbuf := out }
        trace := s.trace ++ es, instant := j, contention := c }
      ∧ (let header : List Frame :=
          [(s.regs.addr ++ 0#1, true), (s.regs.offset.extractLsb' 8 8, false),
           (s.regs.offset.extractLsb' 0 8, false), (s.regs.addr ++ 1#1, true)]
        let sent := sentFrames s.answerAt 0 header
        let n := s.regs.length
        if ackedFrames s.answerAt 0 header = 4 then
          out = sampledBytes s.answerAt 314 n
          ∧ es.map Event.shape = header.flatMap frameShape ++ (ackPattern n).flatMap readByteShape ++ stopShape
          ∧ delayCount es = 81 + 18 * n
          ∧ accessCount es = 242 + 62 * n
          ∧ (((s.pad .scl).txdis = true → (s.pad .sda).txdis = true) →
              (es.foldl observe (observerAt s)).symbols
                = header.flatMap frameSymbols ++ (ackPattern n).flatMap readFrame ++ [.stopCond])
        else
          out = []
          ∧ es.map Event.shape = sent.flatMap frameShape ++ stopShape
          ∧ delayCount es = 3 + (sent.map frameDelays).sum
          ∧ accessCount es = 6 + (sent.map frameAccesses).sum
          ∧ (((s.pad .scl).txdis = true → (s.pad .sda).txdis = true) →
              (es.foldl observe (observerAt s)).symbols
                = sent.flatMap frameSymbols ++ [.stopCond]))

/-- R140: a transfer that touches the bus begins with a start, ends with a stop and holds no other stop,
whatever the slave answers, and takes the bus to BusIdle with both lines released. -/
def Obligations.TransferIsOneTransaction : Prop :=
  ∀ (i : Instr) (s : State), s.seq = [] → s.life = .live →
    ((s.pad .scl).txdis = true → (s.pad .sda).txdis = true) →
    (i = .smbusBlockWrite ∧ s.regs.txbuf.length ≤ 32) ∨ i = .smbusBlockRead ∨ i = .readAtOffset →
    ∃ t, exec i s = .next t
      ∧ (symbolsBetween s t).head? = some .startCond
      ∧ (symbolsBetween s t).getLast? = some .stopCond
      ∧ (symbolsBetween s t).count .stopCond = 1
      ∧ t.phase = some .busIdle ∧ (t.pad .scl).txdis = true ∧ (t.pad .sda).txdis = true

/-- Model's choice (note 24): a wire byte format puts the byte of its encoding on the wire, bit 7 first,
with the slot released for the acknowledgment, whose negated level is ACKED; nothing else changes.
PRESUMED by the spec (note 17): the direction bit. -/
def Obligations.WireByteSendsItsEncoding : Prop :=
  ∀ (i : Instr) (s : State), i.wellFormed = true → slotOf i ≠ .request → slotOf i ≠ .ackBit →
    s.seq = [] → s.life = .live →
    ∃ es c j p, exec i s = .next { s with
        pads := withDrives s.pads false true, phase := p
        regs := { s.regs with acked := !(s.answerAt 70) }
        trace := s.trace ++ es, instant := j, contention := c }
      ∧ es.map Event.shape = writeByteShape ((encode i).setWidth 8)
      ∧ ((s.pad .scl).txdis = false →
          (es.foldl observe (observerAt s)).symbols = writtenByte ((encode i).setWidth 8))

/-- Model's choice (note 24): an acknowledgment format puts its one bit on the wire, 0 for ack and 1 for
nack (R76); nothing else changes. -/
def Obligations.WireAckSendsItsBit : Prop :=
  ∀ (i : Instr) (s : State), i = .wireAck ∨ i = .wireNack → s.seq = [] → s.life = .live →
    ∃ es c j p, exec i s = .next { s with
        pads := withDrives s.pads false ((encode i).getLsbD 0), phase := p
        trace := s.trace ++ es, instant := j, contention := c }
      ∧ es.map Event.shape = writeBitShape ((encode i).getLsbD 0)
      ∧ ((s.pad .scl).txdis = false →
          (es.foldl observe (observerAt s)).symbols = [.bit ((encode i).getLsbD 0)])

/-- R28, R29: no operation writes an operand-only register, and each result register is written only by
the operations that have it as a result (ACKED: by every byte frame, note 20). -/
def Obligations.ResultRegistersAreWrittenByTheirOperations : Prop :=
  ∀ (i : Instr) (s t : State), exec i s = .next t →
    t.regs.idPort = s.regs.idPort ∧ t.regs.idPad = s.regs.idPad
    ∧ t.regs.clock = s.regs.clock ∧ t.regs.data = s.regs.data ∧ t.regs.mode = s.regs.mode
    ∧ t.regs.flag = s.regs.flag ∧ t.regs.addr = s.regs.addr ∧ t.regs.cmd = s.regs.cmd
    ∧ t.regs.offset = s.regs.offset ∧ t.regs.length = s.regs.length
    ∧ t.regs.txbuf = s.regs.txbuf
    ∧ (i ≠ .openPad → t.regs.handle = s.regs.handle ∧ t.regs.status = s.regs.status)
    ∧ ((∀ l, i ≠ .getConfig l) → t.regs.cfg = s.regs.cfg)
    ∧ ((∀ l, i ≠ .getRx l ∧ i ≠ .getTx l) → i ≠ .readBit → t.regs.bit = s.regs.bit)
    ∧ (i ≠ .readByte → t.regs.byte = s.regs.byte)
    ∧ (i ≠ .smbusBlockWrite → t.regs.count = s.regs.count)
    ∧ (i ≠ .smbusBlockRead → i ≠ .readAtOffset → t.regs.rxbuf = s.regs.rxbuf)
    ∧ (i ≠ .writeByte → i ≠ .smbusBlockWrite → i ≠ .smbusBlockRead → i ≠ .readAtOffset →
        (slotOf i = .request ∨ slotOf i = .ackBit) → t.regs.acked = s.regs.acked)

/-- R27, R30, R34, R190: what is stated of LIFE, SEQ and PHASE before construction. Model's choice: T, which R40
does not define then, is empty and closed (note 14), no fight is recorded (note 13), and the pads are
the platform's free words (note 5). -/
def Obligations.ResetIsBeforeConstruction : Prop :=
  State.reset.life = .absent ∧ State.reset.seq = [] ∧ State.reset.phase = none
  ∧ State.reset.trace = [] ∧ State.reset.traceOpen = false ∧ State.reset.contention = false
  ∧ State.reset.finished = true
  ∧ ∀ l, State.reset.pad l = Config.platformPad l

/-- The invariant holds before construction. It rests on the model's choice that COUNT is 0 (note 7), T
empty (note 14) and the event number 0 (note 8) at reset. -/
def Obligations.InvariantHoldsAtReset : Prop := State.reset.Inv

/-- R30, R34, R40, R28: from every state with the invariant, in the middle of a listing or Idle,
whatever the host does, a step that answers a next state keeps it. Model's choice: PHASE inside a cell
and after misuse (note 15), what one step is (note 35), and the instants of T (notes 9, 14). -/
def Obligations.EveryStepKeepsTheInvariant : Prop :=
  ∀ s t : State, s.Inv → step s = .next t → t.Inv

/-- R28, R204: each operand handed over goes to its own register and to no other. 92 D18: what is handed
over while an operation runs has no effect on it; a step of the sequencer writes at most the result of
one operation, whatever the registers hold. Model's choice (note 35): what one step is. -/
def Obligations.HandingOverWritesTheNamedOperand : Prop :=
  (∀ (r : Registers) (v : Nat), applyLoad r (.idPort v) = { r with idPort := v }
    ∧ applyLoad r (.idPad v) = { r with idPad := v })
  ∧ (∀ (r : Registers) (h : Option PadId), applyLoad r (.clock h) = { r with clock := h }
    ∧ applyLoad r (.data h) = { r with data := h })
  ∧ (∀ (r : Registers) (w : PadWord), applyLoad r (.cfg w) = { r with cfg := w })
  ∧ (∀ (r : Registers) (m : PadMode), applyLoad r (.mode m) = { r with mode := m })
  ∧ (∀ (r : Registers) (b : Bool), applyLoad r (.flag b) = { r with flag := b }
    ∧ applyLoad r (.bit b) = { r with bit := b })
  ∧ (∀ (r : Registers) (d : Byte), applyLoad r (.byte d) = { r with byte := d }
    ∧ applyLoad r (.cmd d) = { r with cmd := d })
  ∧ (∀ (r : Registers) (a : BitVec 7), applyLoad r (.addr a) = { r with addr := a })
  ∧ (∀ (r : Registers) (o : BitVec 16), applyLoad r (.offset o) = { r with offset := o })
  ∧ (∀ (r : Registers) (n : Nat), applyLoad r (.length n) = { r with length := n })
  ∧ (∀ (r : Registers) (xs : List Byte), applyLoad r (.txbuf xs) = { r with txbuf := xs })
  ∧ ∀ s : State, ∃ g : Registers → Registers,
      (∀ r, tick { s with regs := r } = { tick s with regs := g r })
      ∧ ((∀ r, g r = r) ∨ (∃ h st, ∀ r, g r = { r with handle := h, status := st })
        ∨ (∃ w, ∀ r, g r = { r with cfg := w }) ∨ (∃ b, ∀ r, g r = { r with bit := b })
        ∨ (∃ d, ∀ r, g r = { r with byte := d }) ∨ (∃ a, ∀ r, g r = { r with acked := a })
        ∨ (∃ n, ∀ r, g r = { r with count := n }) ∨ ∃ xs, ∀ r, g r = { r with rxbuf := xs })

/-- R30, R170: a request that R169 does not refuse moves SEQ to step 1 of its listing, and the steps of
the sequencer from there, SEQ busy and at most four deep before each of them, end in the state that the
operation as a whole gives. Model's choice (note 35): what one step is. The wire formats are run too
(note 24). -/
def Obligations.SequencerRunsTheListing : Prop :=
  ∀ (i : Instr) (s t : State), exec i s = .next t →
    post i s = .next { s with seq := [entryOf i s.regs] }
    ∧ ∃ n, 0 < n ∧ tick^[n] { s with seq := [entryOf i s.regs] } = t
      ∧ ∀ m, m < n → 0 < (tick^[m] { s with seq := [entryOf i s.regs] }).seq.length
        ∧ (tick^[m] { s with seq := [entryOf i s.regs] }).seq.length ≤ 4
end

