-- ==== Sys2Proof/Laws/State.lean ====
section
/-! SUPPORT. One lemma per field per named update of the state, and the laws of a pair of lines. -/

namespace Sys2Proof

@[simp] theorem PerLine.get_scl {α : Type} (p : PerLine α) : p.get .scl = p.scl := rfl
@[simp] theorem PerLine.get_sda {α : Type} (p : PerLine α) : p.get .sda = p.sda := rfl
@[simp] theorem PerLine.set_scl {α : Type} (p : PerLine α) (v : α) :
    p.set .scl v = { p with scl := v } := rfl
@[simp] theorem PerLine.set_sda {α : Type} (p : PerLine α) (v : α) :
    p.set .sda v = { p with sda := v } := rfl

/-- A line reads what was put there. -/
@[simp] theorem PerLine.get_set_self {α : Type} (p : PerLine α) (l : Line) (v : α) :
    (p.set l v).get l = v := by cases l <;> rfl

/-- Setting one line leaves the other alone. -/
theorem PerLine.get_set_other {α : Type} (p : PerLine α) (l m : Line) (v : α) (h : m ≠ l) :
    (p.set l v).get m = p.get m := by cases l <;> cases m <;> simp_all

/-- Setting a line twice keeps the second value. -/
@[simp] theorem PerLine.set_set {α : Type} (p : PerLine α) (l : Line) (v w : α) :
    (p.set l v).set l w = p.set l w := by cases l <;> rfl

/-- Setting a line to what it holds changes nothing. -/
@[simp] theorem PerLine.set_get {α : Type} (p : PerLine α) (l : Line) : p.set l (p.get l) = p := by
  cases l <;> rfl

namespace Machine

@[simp] theorem State.pad_scl (s : State) : s.pad .scl = s.pads.scl := rfl
@[simp] theorem State.pad_sda (s : State) : s.pad .sda = s.pads.sda := rfl

/-- T is open while Live (R40). -/
@[simp] theorem State.traceOpen_of_live {s : State} (h : s.life = .live) : s.traceOpen = true := by
  simp [State.traceOpen, h]

/-- T is closed while Absent and SEQ is not in a construction (R40). -/
theorem State.traceOpen_of_absent {s : State} (h : s.life = .absent) (hq : s.seq = []) :
    s.traceOpen = false := by simp [State.traceOpen, h, hq]

@[simp] theorem State.record_nil (s : State) : s.record [] = s.trace := by simp [State.record]

theorem State.record_of_open {s : State} (h : s.traceOpen = true) (es : List Event) :
    s.record es = s.trace ++ es := by simp [State.record, h]

/-- While Live every event is recorded. -/
theorem State.record_of_live {s : State} (h : s.life = .live) (es : List Event) :
    s.record es = s.trace ++ es := State.record_of_open (State.traceOpen_of_live h) es

theorem State.record_of_closed {s : State} (h : s.traceOpen = false) (es : List Event) :
    s.record es = s.trace := by simp [State.record, h]

/-- While Idle T grows exactly if LIFE is Live. -/
theorem State.record_of_idle {s : State} (h : s.seq = []) (es : List Event) :
    s.record es = if s.life = .live then s.trace ++ es else s.trace := by
  cases hl : s.life <;> simp [State.record, State.traceOpen, h, hl]

/-- Events recorded after others that were recorded. -/
theorem State.record_append {s t : State} {es : List Event} (h : t.trace = s.record es)
    (ho : t.traceOpen = s.traceOpen) (es' : List Event) : t.record es' = s.record (es ++ es') := by
  cases hs : s.traceOpen <;> simp [State.record, ho, hs, h]

/-- T never grows by more than the events that happen. -/
theorem State.record_length (s : State) (es : List Event) :
    (s.record es).length ≤ s.trace.length + es.length := by
  cases hs : s.traceOpen <;> simp [State.record, hs]

@[simp] theorem emit_pads (e : Event) (s : State) : (emit e s).pads = s.pads := rfl
@[simp] theorem emit_saved (e : Event) (s : State) : (emit e s).saved = s.saved := rfl
@[simp] theorem emit_life (e : Event) (s : State) : (emit e s).life = s.life := rfl
@[simp] theorem emit_seq (e : Event) (s : State) : (emit e s).seq = s.seq := rfl
@[simp] theorem emit_phase (e : Event) (s : State) : (emit e s).phase = s.phase := rfl
@[simp] theorem emit_trace (e : Event) (s : State) : (emit e s).trace = s.record [e] := rfl
@[simp] theorem emit_regs (e : Event) (s : State) : (emit e s).regs = s.regs := rfl
@[simp] theorem emit_requests (e : Event) (s : State) : (emit e s).requests = s.requests := rfl
@[simp] theorem emit_slave (e : Event) (s : State) : (emit e s).slave = s.slave := rfl
@[simp] theorem emit_instant (e : Event) (s : State) : (emit e s).instant = s.instant + 1 := rfl
@[simp] theorem emit_contention (e : Event) (s : State) :
    (emit e s).contention = (s.contention || s.fightsWith s.pads 0) := rfl

@[simp] theorem memWrite_pads (l : Line) (v : PadWord) (s : State) :
    (memWrite l v s).pads = s.pads.set l (storedWord (s.pad l) v) := rfl
@[simp] theorem memWrite_saved (l : Line) (v : PadWord) (s : State) :
    (memWrite l v s).saved = s.saved := rfl
@[simp] theorem memWrite_life (l : Line) (v : PadWord) (s : State) :
    (memWrite l v s).life = s.life := rfl
@[simp] theorem memWrite_seq (l : Line) (v : PadWord) (s : State) :
    (memWrite l v s).seq = s.seq := rfl
@[simp] theorem memWrite_phase (l : Line) (v : PadWord) (s : State) :
    (memWrite l v s).phase = s.phase := rfl
@[simp] theorem memWrite_trace (l : Line) (v : PadWord) (s : State) :
    (memWrite l v s).trace = s.record [.wr l v] := rfl
@[simp] theorem memWrite_regs (l : Line) (v : PadWord) (s : State) :
    (memWrite l v s).regs = s.regs := rfl
@[simp] theorem memWrite_requests (l : Line) (v : PadWord) (s : State) :
    (memWrite l v s).requests = s.requests := rfl
@[simp] theorem memWrite_slave (l : Line) (v : PadWord) (s : State) :
    (memWrite l v s).slave = s.slave := rfl
@[simp] theorem memWrite_instant (l : Line) (v : PadWord) (s : State) :
    (memWrite l v s).instant = s.instant + 1 := rfl

@[simp] theorem raiseFailure_status (f : Status) (s : State) :
    (raiseFailure f s).regs.status = f := rfl
@[simp] theorem raiseFailure_pads (f : Status) (s : State) : (raiseFailure f s).pads = s.pads := rfl
@[simp] theorem raiseFailure_trace (f : Status) (s : State) :
    (raiseFailure f s).trace = s.trace := rfl
@[simp] theorem raiseFailure_life (f : Status) (s : State) : (raiseFailure f s).life = s.life := rfl
@[simp] theorem raiseFailure_seq (f : Status) (s : State) : (raiseFailure f s).seq = s.seq := rfl
@[simp] theorem raiseFailure_saved (f : Status) (s : State) :
    (raiseFailure f s).saved = s.saved := rfl
@[simp] theorem raiseFailure_phase (f : Status) (s : State) :
    (raiseFailure f s).phase = s.phase := rfl
@[simp] theorem raiseFailure_instant (f : Status) (s : State) :
    (raiseFailure f s).instant = s.instant := rfl
@[simp] theorem raiseFailure_contention (f : Status) (s : State) :
    (raiseFailure f s).contention = s.contention := rfl

@[simp] theorem handOver_pads (xs : List Load) (s : State) : (s.handOver xs).pads = s.pads := rfl
@[simp] theorem handOver_saved (xs : List Load) (s : State) : (s.handOver xs).saved = s.saved := rfl
@[simp] theorem handOver_life (xs : List Load) (s : State) : (s.handOver xs).life = s.life := rfl
@[simp] theorem handOver_seq (xs : List Load) (s : State) : (s.handOver xs).seq = s.seq := rfl
@[simp] theorem handOver_phase (xs : List Load) (s : State) : (s.handOver xs).phase = s.phase := rfl
@[simp] theorem handOver_trace (xs : List Load) (s : State) : (s.handOver xs).trace = s.trace := rfl
@[simp] theorem handOver_regs (xs : List Load) (s : State) :
    (s.handOver xs).regs = xs.foldl applyLoad s.regs := rfl
@[simp] theorem handOver_requests (xs : List Load) (s : State) :
    (s.handOver xs).requests = s.requests := rfl
@[simp] theorem handOver_slave (xs : List Load) (s : State) : (s.handOver xs).slave = s.slave := rfl
@[simp] theorem handOver_instant (xs : List Load) (s : State) :
    (s.handOver xs).instant = s.instant := rfl
@[simp] theorem handOver_contention (xs : List Load) (s : State) :
    (s.handOver xs).contention = s.contention := rfl

@[simp] theorem takeRequest_pads (r : Request) (q : List HostAct) (s : State) :
    (takeRequest r q s).pads = s.pads := rfl
@[simp] theorem takeRequest_saved (r : Request) (q : List HostAct) (s : State) :
    (takeRequest r q s).saved = s.saved := rfl
@[simp] theorem takeRequest_life (r : Request) (q : List HostAct) (s : State) :
    (takeRequest r q s).life = s.life := rfl
@[simp] theorem takeRequest_seq (r : Request) (q : List HostAct) (s : State) :
    (takeRequest r q s).seq = s.seq := rfl
@[simp] theorem takeRequest_phase (r : Request) (q : List HostAct) (s : State) :
    (takeRequest r q s).phase = s.phase := rfl
@[simp] theorem takeRequest_trace (r : Request) (q : List HostAct) (s : State) :
    (takeRequest r q s).trace = s.trace := rfl
@[simp] theorem takeRequest_regs (r : Request) (q : List HostAct) (s : State) :
    (takeRequest r q s).regs = r.loads.foldl applyLoad s.regs := rfl
@[simp] theorem takeRequest_requests (r : Request) (q : List HostAct) (s : State) :
    (takeRequest r q s).requests = q := rfl
@[simp] theorem takeRequest_slave (r : Request) (q : List HostAct) (s : State) :
    (takeRequest r q s).slave = s.slave := rfl
@[simp] theorem takeRequest_instant (r : Request) (q : List HostAct) (s : State) :
    (takeRequest r q s).instant = s.instant := rfl
@[simp] theorem takeRequest_contention (r : Request) (q : List HostAct) (s : State) :
    (takeRequest r q s).contention = s.contention := rfl

end Machine

end Sys2Proof
end

