-- ==== Sys2Proof/Laws/Ops.lean ====
section
/-! SUPPORT. One lemma for each shared operation over the pads that says all it can do. -/

namespace Sys2Proof.Machine

open Sys2Proof

/-- The environment after `n` events is the environment `n` events on. -/
theorem State.sampleAt_of_instant (s t : State) (n k : Nat) (hs : t.slave = s.slave)
    (hi : t.instant = s.instant + n) : t.sampleAt k = s.sampleAt (n + k) := by
  simp [State.sampleAt, hs, hi, Nat.add_assoc]

/-- A read-modify-write by `f`, where `f` keeps the input level and treats it as no operand: one read,
one write, the stored word changed by `f` (R99). -/
theorem modify_eq (l : Line) (f : PadWord → PadWord) (s : State)
    (hf : ∀ w b, f { w with rxlvl := b } = { f w with rxlvl := b }) :
    modify l f s =
      { s with
        pads := s.pads.set l (f (s.pad l))
        trace := s.record [.rd l (s.readWord l), .wr l (f (s.readWord l))]
        instant := s.instant + 2
        contention := s.contention || s.fightsWith s.pads 0
          || s.fightsWith (s.pads.set l (f (s.pad l))) 1 } := by
  have hst : storedWord (s.pad l) (f (s.readWord l)) = f (s.pad l) := by
    have h1 := hf (s.pad l) (inputLevel (s.pad l) (s.sample.low l) s.sample.draw)
    have h2 := hf (s.pad l) (s.pad l).rxlvl
    simp only [State.readWord, storedWord, h1]
    exact h2.symm
  have htr : ∀ p a b, ({ emit a s with pads := p } : State).record [b] = s.record [a, b] :=
    fun p a b => State.record_append (t := { emit a s with pads := p }) (emit_trace a s) rfl [b]
  simp only [emit] at htr
  simp only [modify, memRead, memWrite, emit, State.pad] at hst ⊢
  rw [hst, htr]
  simp [State.fightsWith, State.sampleAt, Nat.add_assoc]

/-- `setPadMode` rewrites PMODE and nothing else (R93). -/
theorem setPadMode_eq (l : Line) (m : PadMode) (s : State) :
    setPadMode l m s =
      { s with
        pads := s.pads.set l { s.pad l with pmode := m }
        trace := s.record [.rd l (s.readWord l), .wr l { s.readWord l with pmode := m }]
        instant := s.instant + 2
        contention := s.contention || s.fightsWith s.pads 0
          || s.fightsWith (s.pads.set l { s.pad l with pmode := m }) 1 } :=
  modify_eq l _ s (fun _ _ => rfl)

/-- `enableRx` rewrites RXDIS and nothing else (R94). -/
theorem enableRx_eq (l : Line) (f : Bool) (s : State) :
    enableRx l f s =
      { s with
        pads := s.pads.set l { s.pad l with rxdis := !f }
        trace := s.record [.rd l (s.readWord l), .wr l { s.readWord l with rxdis := !f }]
        instant := s.instant + 2
        contention := s.contention || s.fightsWith s.pads 0
          || s.fightsWith (s.pads.set l { s.pad l with rxdis := !f }) 1 } :=
  modify_eq l _ s (fun _ _ => rfl)

/-- `enableTx` rewrites TXDIS and nothing else (R95). -/
theorem enableTx_eq (l : Line) (f : Bool) (s : State) :
    enableTx l f s =
      { s with
        pads := s.pads.set l { s.pad l with txdis := !f }
        trace := s.record [.rd l (s.readWord l), .wr l { s.readWord l with txdis := !f }]
        instant := s.instant + 2
        contention := s.contention || s.fightsWith s.pads 0
          || s.fightsWith (s.pads.set l { s.pad l with txdis := !f }) 1 } :=
  modify_eq l _ s (fun _ _ => rfl)

/-- `setTx` rewrites TXLVL and nothing else (R98). -/
theorem setTx_eq (l : Line) (f : Bool) (s : State) :
    setTx l f s =
      { s with
        pads := s.pads.set l { s.pad l with txlvl := f }
        trace := s.record [.rd l (s.readWord l), .wr l { s.readWord l with txlvl := f }]
        instant := s.instant + 2
        contention := s.contention || s.fightsWith s.pads 0
          || s.fightsWith (s.pads.set l { s.pad l with txlvl := f }) 1 } :=
  modify_eq l _ s (fun _ _ => rfl)

/-- No driver can fight the slave on a line the master cannot drive high. -/
theorem fights_of_cannotDriveHigh (w : PadWord) (b : Bool) (h : cannotDriveHigh w = true) :
    fights w b = false := by
  rcases w with ⟨m, r, t, x, v, o⟩
  cases v <;> simp_all [fights, masterHigh, cannotDriveHigh]

/-- Without a line the master can drive high no fight is ever recorded. -/
theorem fightsWith_of_cannotDriveHigh (s : State) (p : PerLine PadWord) (k : Nat)
    (hc : cannotDriveHigh p.scl = true) (hd : cannotDriveHigh p.sda = true) :
    s.fightsWith p k = false := by
  simp [State.fightsWith, fights_of_cannotDriveHigh _ _ hc, fights_of_cannotDriveHigh _ _ hd]

end Sys2Proof.Machine
end

