-- ==== Sys2Proof/Laws/Wire.lean ====
section
/-! SUPPORT. What the engine's listings do, said once in terms of the shapes of their events: `Performed`
relates the states before and after, and each listing has one lemma that gives its shapes. -/

namespace Sys2Proof.Machine

open Sys2Proof

/-- What the observer makes of an event depends on the event's shape only. -/
def observeShape (o : Observer) (e : Shape) : Observer :=
  match e with
  | .write .scl r =>
    if r && !o.scl then { o with scl := true, pending := some o.sda }
    else if !r && o.scl then
      { o with scl := false, pending := none,
               symbols := o.symbols ++ o.pending.toList.map Symbol.bit }
    else o
  | .write .sda r =>
    if o.scl && (r != o.sda) then
      { o with sda := r, pending := none,
               symbols := o.symbols ++ [if r then .stopCond else .startCond] }
    else { o with sda := r }
  | .read _ => o
  | .delay => o

theorem observe_eq_shape (o : Observer) (e : Event) : observe o e = observeShape o e.shape := by
  rcases e with ⟨_ | _, w⟩ | ⟨_ | _, w⟩ | _ <;> rfl

theorem foldl_observe_eq_shape (es : List Event) (o : Observer) :
    es.foldl observe o = (es.map Event.shape).foldl observeShape o := by
  induction es generalizing o with
  | nil => rfl
  | cons e es ih => simp [observe_eq_shape, ih]

/-- The symbols already seen are kept in front of the new ones. -/
theorem observeShape_symbols (o : Observer) (e : Shape) (p : List Symbol) :
    observeShape { o with symbols := p ++ o.symbols } e
      = { observeShape o e with symbols := p ++ (observeShape o e).symbols } := by
  rcases o with ⟨c, d, q, y⟩
  rcases e with ⟨_ | _⟩ | ⟨_ | _, _ | _⟩ | _ <;> cases c <;> cases d <;> simp [observeShape]

theorem foldl_observeShape_symbols (es : List Shape) (o : Observer) (p : List Symbol) :
    es.foldl observeShape { o with symbols := p ++ o.symbols }
      = { es.foldl observeShape o with symbols := p ++ (es.foldl observeShape o).symbols } := by
  induction es generalizing o with
  | nil => rfl
  | cons e es ih => simp [observeShape_symbols, ih]

theorem delayCount_eq_shape (es : List Event) :
    delayCount es = (es.map Event.shape).countP (fun e => decide (e = .delay)) := by
  induction es with
  | nil => rfl
  | cons e es ih =>
    rcases e with _ | _ | _ <;> simp_all [delayCount, Event.isDelay, Event.shape, List.countP_cons]

/-- From `s`, the events of the shapes `sh` and nothing else happen (and T takes them if it is open), the
pads end at `p`, PHASE ends at `ph`, and no field but the pads, T, the instant, the recorded fights, PHASE
and ACKED changes. -/
structure Performed (s t : State) (sh : List Shape) (p : PerLine PadWord)
    (ph : Option BusPhase) : Prop where
  frame : t = { s with pads := p, trace := t.trace, instant := s.instant + sh.length,
                       contention := t.contention, phase := ph,
                       regs := { s.regs with acked := t.regs.acked } }
  events : ∃ es, t.trace = s.record es ∧ es.map Event.shape = sh
  fightsKept : s.contention = true → t.contention = true
  noFight : s.openDrain = true → t.contention = s.contention
  lines : ∃ a b, p = withDrives s.pads a b

namespace Performed

variable {s t u : State} {sh sh' : List Shape} {p p' : PerLine PadWord} {ph ph' : Option BusPhase}

theorem pads (h : Performed s t sh p ph) : t.pads = p := by rw [h.frame]
theorem saved (h : Performed s t sh p ph) : t.saved = s.saved := by rw [h.frame]
theorem life (h : Performed s t sh p ph) : t.life = s.life := by rw [h.frame]
theorem seq (h : Performed s t sh p ph) : t.seq = s.seq := by rw [h.frame]
theorem phase (h : Performed s t sh p ph) : t.phase = ph := by rw [h.frame]
theorem requests (h : Performed s t sh p ph) : t.requests = s.requests := by rw [h.frame]
theorem slave (h : Performed s t sh p ph) : t.slave = s.slave := by rw [h.frame]
theorem instant (h : Performed s t sh p ph) : t.instant = s.instant + sh.length := by
  rw [h.frame]
theorem regs (h : Performed s t sh p ph) :
    t.regs = { s.regs with acked := t.regs.acked } := by rw [h.frame]

theorem traceOpen (h : Performed s t sh p ph) : t.traceOpen = s.traceOpen := by
  simp [State.traceOpen, h.life, h.seq]

/-- The environment after the events. -/
theorem sampleAt (h : Performed s t sh p ph) (k : Nat) :
    t.sampleAt k = s.sampleAt (sh.length + k) :=
  State.sampleAt_of_instant s t _ k h.slave h.instant

/-- What the released data line reads after the events. -/
theorem answerAt (h : Performed s t sh p ph) (k : Nat) :
    t.answerAt k = s.answerAt (sh.length + k) := by
  obtain ⟨a, b, hp⟩ := h.lines
  simp only [State.answerAt, h.sampleAt, State.pad_sda, h.pads, hp, withDrives]
  rfl

/-- The open-drain premise is kept. -/
theorem openDrain (h : Performed s t sh p ph) (hs : s.openDrain = true) : t.openDrain = true := by
  obtain ⟨a, b, hp⟩ := h.lines
  have hd := h.pads
  simp only [State.openDrain, State.pad_scl, State.pad_sda, hd, hp, withDrives,
    cannotDriveHigh] at hs ⊢
  exact hs

/-- One listing after another. -/
theorem trans (h : Performed s t sh p ph) (h' : Performed t u sh' p' ph') :
    Performed s u (sh ++ sh') p' ph' := by
  obtain ⟨es, he, hes⟩ := h.events
  obtain ⟨es', he', hes'⟩ := h'.events
  obtain ⟨a, b, hp⟩ := h.lines
  obtain ⟨a', b', hp'⟩ := h'.lines
  refine ⟨?_, ⟨es ++ es', by rw [he', State.record_append he h.traceOpen], by simp [hes, hes']⟩,
    fun c => h'.fightsKept (h.fightsKept c),
    fun c => (h'.noFight (h.openDrain c)).trans (h.noFight c), ⟨a', b', ?_⟩⟩
  · have h1 := h'.frame
    rw [h1]
    simp only [h.saved, h.life, h.seq, h.requests, h.slave, h.instant, List.length_append,
      Nat.add_assoc]
    rw [h.regs]
  · rw [hp', h.pads, hp]
    rfl

/-- Nothing performed. -/
theorem refl (s : State) : Performed s s [] s.pads s.phase :=
  ⟨rfl, ⟨[], by simp, rfl⟩, id, fun _ => rfl, ⟨s.pads.scl.txdis, s.pads.sda.txdis, rfl⟩⟩

/-- PHASE is written at the end of a listing. -/
theorem setPhase (h : Performed s t sh p ph) (q : Option BusPhase) :
    Performed s { t with phase := q } sh p q :=
  ⟨by conv_lhs => rw [h.frame], h.events, h.fightsKept, h.noFight, h.lines⟩

/-- ACKED is written at the end of a listing. -/
theorem setAcked (h : Performed s t sh p ph) (a : Bool) :
    Performed s { t with regs := { t.regs with acked := a } } sh p ph :=
  ⟨by conv_lhs => rw [h.frame], h.events, h.fightsKept, h.noFight, h.lines⟩

/-- The events as T has them while it is open. -/
theorem eventsOpen (h : Performed s t sh p ph) (ho : s.traceOpen = true) :
    ∃ es, t.trace = s.trace ++ es ∧ es.map Event.shape = sh := by
  obtain ⟨es, he, hes⟩ := h.events
  exact ⟨es, by rw [he, State.record_of_open ho], hes⟩

/-- The observer's view of the events between the two states, while T is open. -/
theorem observed (h : Performed s t sh p ph) (ho : s.traceOpen = true) (o : Observer) :
    (newEvents s t).foldl observe o = sh.foldl observeShape o := by
  obtain ⟨es, he, hes⟩ := h.eventsOpen ho
  simp [newEvents, he, foldl_observe_eq_shape, hes]

end Performed

/-- `enableTx` of line `l` as a listing. -/
theorem enableTx_performed (l : Line) (f : Bool) (s : State) :
    Performed s (enableTx l f s) [.read l, .write l (!f)]
      (s.pads.set l { s.pad l with txdis := !f }) s.phase := by
  rw [enableTx_eq]
  refine ⟨rfl, ⟨_, rfl, ?_⟩, ?_, ?_, ?_⟩
  · simp [Event.shape, released]
  · intro h
    simp [h]
  · intro h
    simp only [State.openDrain, State.pad_scl, State.pad_sda, Bool.and_eq_true] at h
    have h1 : s.fightsWith s.pads 0 = false := fightsWith_of_cannotDriveHigh s _ _ h.1 h.2
    have h2 : s.fightsWith (s.pads.set l { s.pad l with txdis := !f }) 1 = false := by
      cases l <;> exact fightsWith_of_cannotDriveHigh s _ _ h.1 h.2
    simp [h1, h2]
  · cases l
    · exact ⟨!f, s.pads.sda.txdis, rfl⟩
    · exact ⟨s.pads.scl.txdis, !f, rfl⟩

/-- A delay touches no register (R110). -/
theorem delay_performed (s : State) : Performed s (delay s) [.delay] s.pads s.phase := by
  refine ⟨rfl, ⟨_, rfl, rfl⟩, ?_, ?_, ⟨s.pads.scl.txdis, s.pads.sda.txdis, rfl⟩⟩
  · intro h
    simp [delay, h]
  · intro h
    simp only [State.openDrain, State.pad_scl, State.pad_sda, Bool.and_eq_true] at h
    simp [delay, fightsWith_of_cannotDriveHigh s s.pads 0 h.1 h.2]

/-- A read of a line changes no register of the pads. -/
theorem getConfig_performed (l : Line) (s : State) :
    Performed s (getConfig l s).2 [.read l] s.pads s.phase := by
  refine ⟨rfl, ⟨_, rfl, rfl⟩, ?_, ?_, ⟨s.pads.scl.txdis, s.pads.sda.txdis, rfl⟩⟩
  · intro h
    simp [getConfig, memRead, h]
  · intro h
    simp only [State.openDrain, State.pad_scl, State.pad_sda, Bool.and_eq_true] at h
    simp [getConfig, memRead, fightsWith_of_cannotDriveHigh s s.pads 0 h.1 h.2]

theorem rel_performed (l : Line) (s : State) :
    Performed s (rel l s) (relShape l) (s.pads.set l { s.pad l with txdis := true }) s.phase :=
  enableTx_performed l false s

theorem low_performed (l : Line) (s : State) :
    Performed s (low l s) (lowShape l) (s.pads.set l { s.pad l with txdis := false }) s.phase :=
  enableTx_performed l true s

theorem drive_performed (b : Bool) (s : State) :
    Performed s (drive b s) (driveShape b) (s.pads.set .sda { s.pad .sda with txdis := b })
      s.phase := by
  cases b
  · exact enableTx_performed .sda true s
  · exact enableTx_performed .sda false s

/-- `start()` (R117). -/
theorem start_performed (s : State) :
    Performed s (start s) startShape (withDrives s.pads false false) (some .inTransaction) := by
  have h := ((((((rel_performed .sda s).trans (rel_performed .scl _)).trans
    (delay_performed _)).trans (low_performed .sda _)).trans (delay_performed _)).trans
    (low_performed .scl _)).trans (delay_performed _)
  exact h.setPhase _

/-- `stop()` (R118). -/
theorem stop_performed (s : State) :
    Performed s (stop s) stopShape (withDrives s.pads true true) (some .busIdle) := by
  have h := (((((low_performed .sda s).trans (delay_performed _)).trans
    (rel_performed .scl _)).trans (delay_performed _)).trans (rel_performed .sda _)).trans
    (delay_performed _)
  exact h.setPhase _

/-- `writeBit(b)` (R119). -/
theorem writeBit_performed (b : Bool) (s : State) :
    Performed s (writeBit b s) (writeBitShape b) (withDrives s.pads false b)
      (phaseAfterCell s.phase) := by
  have h := ((((drive_performed b s).trans (delay_performed _)).trans
    (rel_performed .scl _)).trans (delay_performed _)).trans (low_performed .scl _)
  cases b <;> exact h.setPhase _

/-- `readBit()` (R120). -/
theorem readBit_performed (s : State) :
    Performed s (readBit s).2 readBitShape (withDrives s.pads false true)
      (phaseAfterCell s.phase) := by
  have h := (((((rel_performed .sda s).trans (delay_performed _)).trans
    (rel_performed .scl _)).trans (delay_performed _)).trans (getConfig_performed .sda _)).trans
    (low_performed .scl _)
  exact h.setPhase _

/-- A released line, read with the input enabled in mode GPIO, is high unless the slave pulls it low;
read otherwise it is any value. -/
theorem inputLevel_of_released (w : PadWord) (a d : Bool) (h : w.txdis = true) :
    inputLevel w a d = if !w.rxdis && decide (w.pmode = .gpio) then !a else d := by
  rcases w with ⟨m, r, t, x, v, o⟩
  subst h
  cases r <;> cases m <;> cases a <;>
    simp [inputLevel, lineLevel, fights, masterHigh, masterLow]

/-- The bit `readBit` returns is what the released data line reads at the sample, six events on
(R74, R114, R120). -/
theorem readBit_value (s : State) : (readBit s).1 = s.answerAt 6 := by
  have h := (((rel_performed .sda s).trans (delay_performed _)).trans
    (rel_performed .scl _)).trans (delay_performed _)
  generalize hu : delay (rel .scl (delay (rel .sda s))) = u at h
  have hp := h.pads
  have ha := h.answerAt 0
  have hv : (readBit s).1 = u.answerAt 0 := by
    have h0 : (readBit s).1
        = inputLevel u.pads.sda ((u.sampleAt 0).low .sda) (u.sampleAt 0).draw := by
      rw [← hu]
      rfl
    have ht : u.pads.sda.txdis = true := by rw [hp]; rfl
    rw [h0, inputLevel_of_released _ _ _ ht]
    rfl
  rw [hv, ha]
  rfl

/-- PHASE after a cell is PHASE after two cells. -/
@[simp] theorem phaseAfterCell_idem (p : Option BusPhase) :
    phaseAfterCell (phaseAfterCell p) = phaseAfterCell p := by
  rcases p with _ | _ | _ | _ <;> rfl

@[simp] theorem phaseAfterCell_inTransaction :
    phaseAfterCell (some .inTransaction) = some .inTransaction := rfl

@[simp] theorem withDrives_withDrives (p : PerLine PadWord) (a b c d : Bool) :
    withDrives (withDrives p a b) c d = withDrives p c d := rfl

/-- The eight written bit cells of a byte (R75, R121). -/
theorem writeBits_performed (d : Byte) (s : State) :
    Performed s (writeBits d s) (writeBitsShape d) (withDrives s.pads false (d.getLsbD 0))
      (phaseAfterCell s.phase) := by
  have step : ∀ (l : List Nat) (i : Nat) (u : State),
      ∃ p ph, Performed u ((i :: l).foldl (fun t j => writeBit (selectBit d j) t) u)
        ((i :: l).flatMap (fun j => writeBitShape (selectBit d j))) p ph
        ∧ p = withDrives u.pads false (d.getLsbD ((i :: l).getLast (by simp)))
        ∧ ph = phaseAfterCell u.phase := by
    intro l
    induction l with
    | nil =>
      intro i u
      exact ⟨_, _, by simpa [selectBit] using writeBit_performed (selectBit d i) u, rfl, rfl⟩
    | cons j l ih =>
      intro i u
      have h1 := writeBit_performed (selectBit d i) u
      obtain ⟨p, ph, h2, hp, hph⟩ := ih j (writeBit (selectBit d i) u)
      refine ⟨p, ph, by simpa using h1.trans h2, ?_, ?_⟩
      · rw [hp, h1.pads]
        simp
      · rw [hph, h1.phase]
        simp
  obtain ⟨p, ph, h, hp, hph⟩ := step [6, 5, 4, 3, 2, 1, 0] 7 s
  subst hp hph
  exact h

/-- `writeByte(d, false)` (R121): what it does, and that ACKED and its result are the negation of the
level sampled in the ninth cell, 70 events on. -/
theorem writeByte_false_performed (d : Byte) (s : State) :
    Performed s (writeByte d false s).2 (writeByteShape d) (withDrives s.pads false true)
      (phaseAfterCell s.phase)
    ∧ (writeByte d false s).1 = !(s.answerAt 70)
    ∧ (writeByte d false s).2.regs.acked = (writeByte d false s).1 := by
  have h1 := writeBits_performed d s
  have h2 := readBit_performed (writeBits d s)
  have hlen : (writeBitsShape d).length = 64 := rfl
  refine ⟨?_, ?_, rfl⟩
  · have h3 := (h1.trans h2).setAcked (writeByte d false s).1
    rw [h1.pads, h1.phase, phaseAfterCell_idem] at h3
    exact h3
  · have hv : (writeByte d false s).1 = !(readBit (writeBits d s)).1 := rfl
    rw [hv, readBit_value, h1.answerAt, hlen]

/-- `writeByte(d, true)` is `start()` and then `writeByte(d, false)` (R121). -/
theorem writeByte_true_eq (d : Byte) (s : State) : writeByte d true s = writeByte d false (start s) :=
  rfl

/-- Read bit cells (R75, R122): their events, and the bits they put in place. -/
theorem readBits_performed (l : List Nat) (v : Byte) (s : State) (hl : l ≠ []) :
    Performed s (readBits l v s).2 ((List.replicate l.length readBitShape).flatten)
      (withDrives s.pads false true) (phaseAfterCell s.phase) := by
  induction l generalizing v s with
  | nil => exact absurd rfl hl
  | cons i l ih =>
    have h1 := readBit_performed s
    by_cases h : l = []
    · subst h
      simpa [readBits] using h1
    · have h2 := ih (assembleBit v i (readBit s).1) (readBit s).2 h
      have h3 := h1.trans h2
      rw [h1.pads, h1.phase] at h3
      simpa [readBits, List.replicate_succ] using h3

/-- Bit `j` after bit `i` has been put in place. -/
theorem getLsbD_assembleBit (v : Byte) (i j : Nat) (b : Bool) (hi : i < 8) (hj : j < 8) :
    (assembleBit v i b).getLsbD j = if j = i then b else v.getLsbD j := by
  have key : (1#8 <<< i).getLsbD j = decide (j = i) := by
    interval_cases i <;> interval_cases j <;> rfl
  unfold assembleBit
  cases b
  · rw [if_neg (by simp), BitVec.getLsbD_and, BitVec.getLsbD_not, key]
    by_cases h : j = i <;> simp [h, hj, -BitVec.getLsbD_eq_getElem, hi]
  · rw [if_pos rfl, BitVec.getLsbD_or, key]
    by_cases h : j = i <;> simp [h, -BitVec.getLsbD_eq_getElem]

/-- The byte the read cells assemble: bit `7 - k` is the level sampled in cell `k` (R75, R122). -/
theorem readBits_value (s : State) (k : Nat) (hk : k < 8) :
    (readBits bitOrder 0 s).1.getLsbD (7 - k) = s.answerAt (9 * k + 6) := by
  have gen : ∀ (l : List Nat) (v : Byte) (u : State) (m : Nat), (∀ i ∈ l, i < 8) → l.Nodup →
      (∀ (n : Nat) (hn : n < l.length),
        (readBits l v u).1.getLsbD l[n] = u.answerAt (9 * n + 6)) ∧
      (m < 8 → m ∉ l → (readBits l v u).1.getLsbD m = v.getLsbD m) := by
    intro l
    induction l with
    | nil => intro v u m _ _; exact ⟨by simp, fun _ _ => rfl⟩
    | cons i l ih =>
      intro v u m hb hd
      have hd' := List.nodup_cons.mp hd
      have hi : i < 8 := hb i (by simp)
      have hr := readBit_performed u
      have hbl : ∀ j ∈ l, j < 8 := fun j hj => hb j (by simp [hj])
      refine ⟨fun n hn => ?_, fun hm hml => ?_⟩
      · cases n with
        | zero =>
          have h2 := (ih (assembleBit v i (readBit u).1) (readBit u).2 i hbl hd'.2).2 hi hd'.1
          simp only [readBits, List.getElem_cons_zero]
          rw [h2, getLsbD_assembleBit _ _ _ _ hi hi, readBit_value]
          simp
        | succ n =>
          have h2 := (ih (assembleBit v i (readBit u).1) (readBit u).2 0 hbl hd'.2).1 n
            (by simpa using hn)
          simp only [readBits, List.getElem_cons_succ]
          rw [h2, hr.answerAt]
          congr 1
          simp [readBitShape, relShape, lowShape]
          omega
      · have h2 := (ih (assembleBit v i (readBit u).1) (readBit u).2 m hbl hd'.2).2 hm
          (fun h => hml (by simp [h]))
        simp only [readBits]
        rw [h2, getLsbD_assembleBit _ _ _ _ hi hm]
        simp only [List.mem_cons, not_or] at hml
        simp [hml.1]
  have h := (gen bitOrder 0 s 0 (by decide) (by decide)).1 k hk
  have hix : bitOrder[k]'hk = 7 - k := by
    interval_cases k <;> rfl
  rw [← h, hix]

/-- `readByte(sendAck)` (R122). -/
theorem readByte_performed (sendAck : Bool) (s : State) :
    Performed s (readByte sendAck s).2 (readByteShape sendAck)
      (withDrives s.pads false (!sendAck)) (phaseAfterCell s.phase) := by
  have h1 := readBits_performed bitOrder 0 s (by decide)
  have h2 := h1.trans (writeBit_performed (ackBit sendAck) _)
  rw [h1.pads, h1.phase] at h2
  simpa [readByteShape, readByte, ackBit, bitOrder] using h2

/-- The byte `readByte` returns: bit `7 - k` is the level sampled in cell `k` (R122). -/
theorem readByte_value (sendAck : Bool) (s : State) (k : Nat) (hk : k < 8) :
    (readByte sendAck s).1.getLsbD (7 - k) = s.answerAt (9 * k + 6) :=
  readBits_value s k hk

end Sys2Proof.Machine
end

