-- ==== Sys2Proof/Laws/Construct.lean ====
section
/-! SUPPORT. What the loops of construction and teardown do, said once, for every order of their steps
(41_bit_engine.md R115, R116). -/

namespace Sys2Proof.Machine

open Sys2Proof

/-- The captures of construction are the two lines in some order (92 D8). -/
theorem captureOrder_perm : Config.captureOrder.Perm Config.defaultCaptureOrder := by
  unfold Config.captureOrder
  split
  · assumption
  · exact List.Perm.refl _

/-- The settings of construction are the eight in some order (92 D8). -/
theorem constructOrder_perm : Config.constructOrder.Perm Config.defaultConstructOrder := by
  unfold Config.constructOrder
  split
  · assumption
  · exact List.Perm.refl _

/-- The restoring writes are those of the two lines in some order (92 D9). -/
theorem teardownOrder_perm : Config.teardownOrder.Perm Config.defaultTeardownOrder := by
  unfold Config.teardownOrder
  split
  · assumption
  · exact List.Perm.refl _

/-- Two lines in some order. -/
theorem lineOrder_cases {o : List Line} (h : o.Perm [.scl, .sda]) :
    o = [.scl, .sda] ∨ o = [.sda, .scl] := by
  have hl := h.length_eq
  have hn := h.nodup_iff.mpr (by decide)
  match o, hl with
  | [a, b], _ => cases a <;> cases b <;> simp_all

/-- Two states with equal fields are equal. -/
theorem State.eq_of_fields {s t : State} (h1 : s.pads = t.pads) (h2 : s.saved = t.saved)
    (h3 : s.life = t.life) (h4 : s.seq = t.seq) (h5 : s.phase = t.phase) (h6 : s.trace = t.trace)
    (h7 : s.regs = t.regs) (h8 : s.requests = t.requests) (h9 : s.slave = t.slave)
    (h10 : s.instant = t.instant) (h11 : s.contention = t.contention) : s = t := by
  cases s
  cases t
  simp_all

/-- What one setting of construction makes of a pad word. -/
def settingWord (p : PadSetting) (w : PadWord) : PadWord :=
  match p with
  | .inputEnabled => { w with rxdis := false }
  | .outputDisabled => { w with txdis := true }
  | .gpioMode => { w with pmode := .gpio }
  | .levelLow => { w with txlvl := false }

/-- One setting of construction: one read and one write of its line. -/
theorem applySetting_eq (l : Line) (p : PadSetting) (s : State) :
    applySetting l p s =
      { s with
        pads := s.pads.set l (settingWord p (s.pad l))
        trace := s.record [.rd l (s.readWord l), .wr l (settingWord p (s.readWord l))]
        instant := s.instant + 2
        contention := s.contention || s.fightsWith s.pads 0
          || s.fightsWith (s.pads.set l (settingWord p (s.pad l))) 1 } := by
  cases p
  · exact enableRx_eq l true s
  · exact enableTx_eq l false s
  · exact setPadMode_eq l .gpio s
  · exact setTx_eq l false s

/-- The pads after some settings. -/
def settledPads (settings : List (Line × PadSetting)) (p : PerLine PadWord) : PerLine PadWord :=
  settings.foldl (fun q x => q.set x.1 (settingWord x.2 (q.get x.1))) p

/-- What some settings one after another do. -/
structure Settled (s t : State) (settings : List (Line × PadSetting)) : Prop where
  pads : t.pads = settledPads settings s.pads
  saved : t.saved = s.saved
  seq : t.seq = s.seq
  regs : t.regs = s.regs
  requests : t.requests = s.requests
  slave : t.slave = s.slave
  instant : t.instant = s.instant + 2 * settings.length
  life : t.life = s.life
  events : ∃ es, t.trace = s.record es ∧ accessCount es = 2 * settings.length
    ∧ delayCount es = 0
  fightsKept : s.contention = true → t.contention = true

/-- The settings loop of construction. -/
theorem applySettings_settled (settings : List (Line × PadSetting)) (s : State) :
    Settled s (settings.foldl (fun t p => applySetting p.1 p.2 t) s) settings := by
  induction settings generalizing s with
  | nil => exact ⟨rfl, rfl, rfl, rfl, rfl, rfl, rfl, rfl, ⟨[], by simp, rfl, rfl⟩, id⟩
  | cons x rest ih =>
    have h := ih (applySetting x.1 x.2 s)
    have hx := applySetting_eq x.1 x.2 s
    obtain ⟨es, he, ha, hd⟩ := h.events
    have ho : (applySetting x.1 x.2 s).traceOpen = s.traceOpen := by
      rw [hx]
      rfl
    have ht : (applySetting x.1 x.2 s).trace
        = s.record [.rd x.1 (s.readWord x.1), .wr x.1 (settingWord x.2 (s.readWord x.1))] := by
      rw [hx]
    rw [State.record_append ht ho] at he
    refine ⟨?_, ?_, ?_, ?_, ?_, ?_, ?_, ?_,
      ⟨[.rd x.1 (s.readWord x.1), .wr x.1 (settingWord x.2 (s.readWord x.1))] ++ es, ?_, ?_, ?_⟩, ?_⟩
    · rw [List.foldl_cons, h.pads, hx]
      rfl
    · rw [List.foldl_cons, h.saved, hx]
    · rw [List.foldl_cons, h.seq, hx]
    · rw [List.foldl_cons, h.regs, hx]
    · rw [List.foldl_cons, h.requests, hx]
    · rw [List.foldl_cons, h.slave, hx]
    · rw [List.foldl_cons, h.instant, hx]
      simp only [List.length_cons]
      omega
    · rw [List.foldl_cons, h.life, hx]
    · rw [List.foldl_cons, he]
    · rw [accessCount, List.countP_append]
      rw [accessCount] at ha
      rw [ha]
      simp [Event.isDelay]
      omega
    · rw [delayCount, List.countP_append]
      rw [delayCount] at hd
      rw [hd]
      simp [Event.isDelay]
    · intro hc
      exact h.fightsKept (by simp [hx, hc])

/-- One capture of construction: one read of its line into SAVED. -/
theorem capture_eq (l : Line) (s : State) :
    capture l s =
      { s with
        saved := s.saved.set l (s.readWord l)
        trace := s.record [.rd l (s.readWord l)]
        instant := s.instant + 1
        contention := s.contention || s.fightsWith s.pads 0 } := rfl

/-- One restoring write of teardown. -/
theorem setConfig_eq (l : Line) (v : PadWord) (s : State) :
    setConfig l v s =
      { s with
        pads := s.pads.set l { v with rxlvl := (s.pad l).rxlvl }
        trace := s.record [.wr l v]
        instant := s.instant + 1
        contention := s.contention
          || s.fightsWith (s.pads.set l { v with rxlvl := (s.pad l).rxlvl }) 0 } := rfl

end Sys2Proof.Machine
end

