-- ==== Sys2Proof/Laws/Transfer.lean ====
section
/-! SUPPORT. What the loops of the block transfers do, said once: header and payload frames, read bytes,
and what an observer of the wire makes of them. -/

namespace Sys2Proof.Machine

open Sys2Proof

theorem writeBitsShape_length (d : Byte) : (writeBitsShape d).length = 64 := rfl
theorem writeByteShape_length (d : Byte) : (writeByteShape d).length = 73 := rfl
theorem readByteShape_length (b : Bool) : (readByteShape b).length = 80 := rfl

theorem frameShape_length (f : Frame) : (frameShape f).length = frameLength f := by
  rcases f with ⟨d, _ | _⟩ <;> rfl

/-- Answers counted from a later event. -/
theorem sentFrames_shift (a b : Nat → Bool) (n : Nat) (h : ∀ k, b k = a (n + k)) (pos : Nat)
    (l : List Frame) : sentFrames b pos l = sentFrames a (n + pos) l := by
  induction l generalizing pos with
  | nil => rfl
  | cons f l ih => simp [sentFrames, h, ih, Nat.add_assoc]

theorem ackedFrames_shift (a b : Nat → Bool) (n : Nat) (h : ∀ k, b k = a (n + k)) (pos : Nat)
    (l : List Frame) : ackedFrames b pos l = ackedFrames a (n + pos) l := by
  induction l generalizing pos with
  | nil => rfl
  | cons f l ih => simp [ackedFrames, h, ih, Nat.add_assoc]

theorem sampledByte_shift (a b : Nat → Bool) (n : Nat) (h : ∀ k, b k = a (n + k)) (pos : Nat) :
    sampledByte b pos = sampledByte a (n + pos) := by
  simp [sampledByte, h, Nat.add_assoc]

theorem sampledBytes_shift (a b : Nat → Bool) (n : Nat) (h : ∀ k, b k = a (n + k)) (pos m : Nat) :
    sampledBytes b pos m = sampledBytes a (n + pos) m := by
  simp [sampledBytes, sampledByte_shift a b n h, Nat.add_assoc]

/-- PHASE after a byte frame. -/
def phaseAfterFrame (f : Frame) (p : Option BusPhase) : Option BusPhase :=
  if f.2 then some .inTransaction else phaseAfterCell p

/-- One byte frame: what it does, and that it is acknowledged exactly if its sample reads low. -/
theorem writeByte_performed (f : Frame) (s : State) :
    Performed s (writeByte f.1 f.2 s).2 (frameShape f) (withDrives s.pads false true)
      (phaseAfterFrame f s.phase)
    ∧ (writeByte f.1 f.2 s).1 = !(s.answerAt (frameSample f))
    ∧ (writeByte f.1 f.2 s).2.regs.acked = (writeByte f.1 f.2 s).1 := by
  rcases f with ⟨d, _ | _⟩
  · have h := writeByte_false_performed d s
    exact ⟨h.1, by simpa [frameSample] using h.2.1, h.2.2⟩
  · have hs := start_performed s
    have h := writeByte_false_performed d (start s)
    have h1 := hs.trans h.1
    rw [hs.pads, hs.phase] at h1
    refine ⟨h1, ?_, h.2.2⟩
    have h2 := h.2.1
    rw [hs.answerAt] at h2
    exact h2

/-- Staged header frames (R141, R143, R145 with 92 D13). -/
theorem sendHeader_performed (f : Frame) (l : List Frame) (s : State)
    (hf : f.2 = true ∨ s.phase = some .inTransaction) :
    Performed s (sendHeader .shortCircuit (f :: l) s).2
      ((sentFrames s.answerAt 0 (f :: l)).flatMap frameShape)
      (withDrives s.pads false true) (some .inTransaction)
    ∧ (sendHeader .shortCircuit (f :: l) s).1
        = decide (ackedFrames s.answerAt 0 (f :: l) = l.length + 1) := by
  induction l generalizing f s with
  | nil =>
    obtain ⟨h1, h2, -⟩ := writeByte_performed f s
    have hph : phaseAfterFrame f s.phase = some .inTransaction := by
      rcases hf with h | h <;> simp [phaseAfterFrame, h]
    rw [hph] at h1
    by_cases hb : s.answerAt (frameSample f) = true
    · simp [sendHeader, h2, hb, sentFrames, ackedFrames, h1]
    · simp [sendHeader, h2, hb, sentFrames, ackedFrames, h1]
  | cons g l ih =>
    obtain ⟨h1, h2, -⟩ := writeByte_performed f s
    have hph : phaseAfterFrame f s.phase = some .inTransaction := by
      rcases hf with h | h <;> simp [phaseAfterFrame, h]
    rw [hph] at h1
    by_cases hb : s.answerAt (frameSample f) = true
    · rw [sendHeader]
      simp [h2, hb, sentFrames, ackedFrames, h1]
    · obtain ⟨h3, h4⟩ := ih g (writeByte f.1 f.2 s).2 (Or.inr h1.phase)
      have h5 := h1.trans h3
      rw [h1.pads] at h5
      rw [sentFrames_shift s.answerAt _ _ h1.answerAt, frameShape_length] at h5
      rw [ackedFrames_shift s.answerAt _ _ h1.answerAt, frameShape_length] at h4
      rw [sendHeader, sentFrames, ackedFrames]
      simp only [Bool.not_eq_true] at hb
      simp only [h2, hb, Nat.zero_add, Bool.not_false, if_true, Bool.false_eq_true, if_false,
        List.flatMap_cons]
      refine ⟨h5, ?_⟩
      rw [h4]
      simp

/-- The payload loop (R141): frames up to and with the first that is not acknowledged, and the count of
those that are. -/
theorem sendPayload_performed (l : List Byte) (c : BitVec 6) (s : State)
    (hp : s.pads = withDrives s.pads false true) (hph : s.phase = some .inTransaction) :
    Performed s (sendPayload l c s).2
      ((sentFrames s.answerAt 0 (l.map (fun d => (d, false)))).flatMap frameShape)
      (withDrives s.pads false true) (some .inTransaction)
    ∧ (sendPayload l c s).1
        = c + BitVec.ofNat 6 (ackedFrames s.answerAt 0 (l.map (fun d => (d, false)))) := by
  induction l generalizing c s with
  | nil =>
    have h := Performed.refl s
    rw [hph] at h
    rw [← hp]
    exact ⟨h, by simp [sendPayload, ackedFrames]⟩
  | cons d l ih =>
    obtain ⟨h1, h2, -⟩ := writeByte_performed (d, false) s
    have hph1 : phaseAfterFrame (d, false) s.phase = some .inTransaction := by
      simp [phaseAfterFrame, hph]
    rw [hph1] at h1
    simp only at h1 h2
    by_cases hb : s.answerAt (frameSample (d, false)) = true
    · simp [sendPayload, h2, hb, sentFrames, ackedFrames, h1]
    · obtain ⟨h3, h4⟩ := ih (c + 1) (writeByte d false s).2 (by rw [h1.pads]; rfl) h1.phase
      have h5 := h1.trans h3
      rw [h1.pads] at h5
      rw [sentFrames_shift s.answerAt _ _ h1.answerAt, frameShape_length] at h5
      rw [ackedFrames_shift s.answerAt _ _ h1.answerAt, frameShape_length] at h4
      rw [sendPayload, List.map_cons, sentFrames, ackedFrames]
      simp only [Bool.not_eq_true] at hb
      simp only [h2, hb, Nat.zero_add, Bool.not_false, if_true, Bool.false_eq_true, if_false,
        List.flatMap_cons]
      refine ⟨h5, ?_⟩
      rw [h4, BitVec.ofNat_add, BitVec.add_assoc, Nat.add_zero]
      congr 1
      exact BitVec.add_comm _ _

/-- The byte `readByte` returns, from the sampled levels. -/
theorem readByte_eq_sampledByte (b : Bool) (s : State) :
    (readByte b s).1 = sampledByte s.answerAt 0 := by
  apply BitVec.eq_of_getLsbD_eq
  intro j hj
  have h := readByte_value b s (7 - j) (by omega)
  rw [show 7 - (7 - j) = j by omega] at h
  rw [h, sampledByte, BitVec.getLsbD_ofFnLE, dif_pos hj]
  simp

/-- The read loop (R143, R145): `n` bytes, ack to all but the last. -/
theorem readData_performed (n : Nat) (out : List Byte) (s : State)
    (hp : n = 0 ∨ s.phase = some .inTransaction) :
    Performed s (readData n out s).2 ((ackPattern n).flatMap readByteShape)
      (if n = 0 then s.pads else withDrives s.pads false true) s.phase
    ∧ (readData n out s).1 = out ++ sampledBytes s.answerAt 0 n := by
  induction n generalizing out s with
  | zero => exact ⟨Performed.refl s, by simp [readData, sampledBytes]⟩
  | succ k ih =>
    have hph : s.phase = some .inTransaction := by simpa using hp
    have h1 := readByte_performed (decide (k ≠ 0)) s
    rw [hph, phaseAfterCell_inTransaction] at h1
    obtain ⟨h2, h3⟩ := ih (out ++ [(readByte (decide (k ≠ 0)) s).1])
      (readByte (decide (k ≠ 0)) s).2 (Or.inr h1.phase)
    have h4 := h1.trans h2
    rw [h1.pads, h1.phase] at h4
    rw [sampledBytes_shift s.answerAt _ _ h1.answerAt, readByteShape_length] at h3
    rw [hph]
    refine ⟨?_, ?_⟩
    · cases k with
      | zero => simpa [readData, ackPattern] using h4
      | succ k => simpa [readData, ackPattern, List.replicate_succ] using h4
    · rw [readData]
      rw [h3, readByte_eq_sampledByte]
      simp [sampledBytes, List.range_succ_eq_map, Function.comp_def, Nat.mul_succ,
        Nat.add_comm]

/-- An observer of a clock held low sees one bit of a written cell. -/
theorem observe_writeBitShape (b d : Bool) (y : List Symbol) :
    (writeBitShape b).foldl observeShape ⟨false, d, none, y⟩ = ⟨false, b, none, y ++ [.bit b]⟩ := by
  cases b <;> cases d <;> simp [writeBitShape, driveShape, relShape, lowShape, observeShape]

/-- An observer sees a read cell as a released bit. -/
theorem observe_readBitShape (d : Bool) (y : List Symbol) :
    readBitShape.foldl observeShape ⟨false, d, none, y⟩ = ⟨false, true, none, y ++ [.bit true]⟩ := by
  cases d <;> simp [readBitShape, relShape, lowShape, observeShape]

/-- An observer of a released bus, or of a clock held low, sees a start condition. -/
theorem observe_startShape (c d : Bool) (y : List Symbol) (h : c = true → d = true) :
    startShape.foldl observeShape ⟨c, d, none, y⟩ = ⟨false, false, none, y ++ [.startCond]⟩ := by
  cases c <;> cases d <;> simp_all [startShape, relShape, lowShape, observeShape]

/-- An observer of a clock held low sees a stop condition. -/
theorem observe_stopShape (d : Bool) (y : List Symbol) :
    stopShape.foldl observeShape ⟨false, d, none, y⟩ = ⟨true, true, none, y ++ [.stopCond]⟩ := by
  cases d <;> simp [stopShape, relShape, lowShape, observeShape]

/-- An observer of a clock held low sees the nine bits of a written byte frame. -/
theorem observe_writeByteShape (w : Byte) (d : Bool) (y : List Symbol) :
    (writeByteShape w).foldl observeShape ⟨false, d, none, y⟩
      = ⟨false, true, none, y ++ writtenByte w⟩ := by
  simp only [writeByteShape, writeBitsShape, bitOrder, List.flatMap_cons, List.flatMap_nil,
    List.append_nil, List.foldl_append, observe_writeBitShape, observe_readBitShape]
  simp [writtenByte, selectBit]

/-- An observer of a clock held low sees the nine bits of a read byte frame. -/
theorem observe_readByteShape (b d : Bool) (y : List Symbol) :
    (readByteShape b).foldl observeShape ⟨false, d, none, y⟩
      = ⟨false, !b, none, y ++ readFrame b⟩ := by
  simp only [readByteShape, List.replicate_succ, List.replicate_zero, List.flatten_cons,
    List.flatten_nil, List.append_nil, List.foldl_append, observe_writeBitShape,
    observe_readBitShape]
  simp [readFrame, ackBit]

/-- An observer of a clock held low, or of a released bus before a start, sees a frame's symbols. -/
theorem observe_frameShape (f : Frame) (c d : Bool) (y : List Symbol)
    (h : c = true → d = true ∧ f.2 = true) :
    (frameShape f).foldl observeShape ⟨c, d, none, y⟩
      = ⟨false, true, none, y ++ frameSymbols f⟩ := by
  rcases f with ⟨w, _ | _⟩
  · have hc : c = false := by
      cases c
      · rfl
      · exact absurd (h rfl).2 (by simp)
    subst hc
    simpa [frameShape, frameSymbols] using observe_writeByteShape w d y
  · simp [frameShape, frameSymbols, List.foldl_append,
      observe_startShape c d y (fun hc => (h hc).1), observe_writeByteShape]

/-- Frames after one another. -/
theorem observe_frameShapes (l : List Frame) (c d : Bool) (y : List Symbol) (hl : l ≠ [])
    (h : c = true → d = true ∧ ∀ f ∈ l.head?, f.2 = true) :
    (l.flatMap frameShape).foldl observeShape ⟨c, d, none, y⟩
      = ⟨false, true, none, y ++ l.flatMap frameSymbols⟩ := by
  induction l generalizing c d y with
  | nil => exact absurd rfl hl
  | cons f l ih =>
    have h1 := observe_frameShape f c d y (fun hc => ⟨(h hc).1, (h hc).2 f (by simp)⟩)
    by_cases hn : l = []
    · subst hn
      simpa using h1
    · have h2 := ih false true (y ++ frameSymbols f) hn (by simp)
      simp only [List.flatMap_cons, List.foldl_append, h1, h2, List.append_assoc]

/-- Read frames after one another. -/
theorem observe_readShapes (l : List Bool) (d : Bool) (y : List Symbol) :
    ∃ e, (l.flatMap readByteShape).foldl observeShape ⟨false, d, none, y⟩
      = ⟨false, e, none, y ++ l.flatMap readFrame⟩ := by
  induction l generalizing d y with
  | nil => exact ⟨d, by simp⟩
  | cons b l ih =>
    obtain ⟨e, he⟩ := ih (!b) (y ++ readFrame b)
    exact ⟨e, by simp only [List.flatMap_cons, List.foldl_append, observe_readByteShape, he,
      List.append_assoc]⟩

end Sys2Proof.Machine
end

