-- ==== Sys2Proof/Laws/Invariant.lean ====
section
/-! SUPPORT. The invariant of SEQ (10_state.md R30) under each kind of step: a call (`callStep_inv`), the
end of a leaf, of a GpioLine call, of a cell and of a byte frame or block transfer (`leaf_return`,
`lineOp_return`, `cell_return`, `byte_return`), and a step that moves on by itself (`advance_inv`). -/

namespace Sys2Proof.Machine

open Sys2Proof

/-- How deep a listing can stand in SEQ: a listing calls only listings of a lower rank (R82, R87). -/
def rank (o : Operation) : Nat :=
  match o with
  | .smbusBlockWrite => 4
  | .smbusBlockRead => 4
  | .readAtOffset => 4
  | .writeByte => 3
  | .readByte => 3
  | .start => 2
  | .stop => 2
  | .writeBit => 2
  | .readBit => 2
  | .construct => 2
  | .teardown => 2
  | _ => 1

/-- Who calls whom. -/
def mayCall (a b : Operation) : Prop :=
  match a with
  | .smbusBlockWrite => b = .writeByte ∨ b = .stop
  | .smbusBlockRead => b = .writeByte ∨ b = .readByte ∨ b = .stop
  | .readAtOffset => b = .writeByte ∨ b = .readByte ∨ b = .stop
  | .writeByte => b = .start ∨ b = .writeBit ∨ b = .readBit
  | .readByte => b = .writeBit ∨ b = .readBit
  | .construct => b = .getConfig ∨ b = .enableRx ∨ b = .enableTx ∨ b = .setPadMode ∨ b = .setTx
  | .teardown => b = .setConfig
  | .start => b = .rel ∨ b = .low ∨ b = .delay
  | .stop => b = .rel ∨ b = .low ∨ b = .delay
  | .writeBit => b = .rel ∨ b = .low ∨ b = .delay ∨ b = .drive
  | .readBit => b = .rel ∨ b = .low ∨ b = .delay ∨ b = .smp
  | _ => False

/-- What a listing calls: a listing it may call, at step 1. -/
theorem callOf_cases {f c : SeqFrame} {saved : PerLine PadWord} (h : callOf f saved = some c) :
    mayCall f.operation c.operation ∧ ∃ o, c = SeqFrame.start c.operation c.line o := by
  have hm : ∀ {l : List SeqFrame} {n : Nat}, l[n]? = some c → c ∈ l := List.mem_of_getElem?
  rcases hop : f.operation <;> simp only [callOf, hop] at h
  all_goals first | (exact absurd h (by simp)) | skip
  case construct =>
    have := hm h
    simp only [straightCalls, hop, List.mem_append, List.mem_map] at this
    rcases this with ⟨l, -, rfl⟩ | ⟨⟨l, _ | _ | _ | _⟩, -, rfl⟩ <;>
      exact ⟨by simp [mayCall, SeqFrame.start, settingCall], ⟨_, rfl⟩⟩
  case teardown =>
    have := hm h
    simp only [straightCalls, hop, List.mem_map] at this
    rcases this with ⟨l, -, rfl⟩
    exact ⟨rfl, ⟨_, rfl⟩⟩
  case start =>
    have := hm h
    simp only [straightCalls, hop, List.mem_cons, List.not_mem_nil, or_false] at this
    rcases this with rfl | rfl | rfl | rfl | rfl | rfl | rfl <;>
      exact ⟨by simp [mayCall, SeqFrame.start], ⟨_, rfl⟩⟩
  case stop =>
    have := hm h
    simp only [straightCalls, hop, List.mem_cons, List.not_mem_nil, or_false] at this
    rcases this with rfl | rfl | rfl | rfl | rfl | rfl <;>
      exact ⟨by simp [mayCall, SeqFrame.start], ⟨_, rfl⟩⟩
  case writeBit =>
    have := hm h
    simp only [straightCalls, hop, List.mem_cons, List.not_mem_nil, or_false] at this
    rcases this with rfl | rfl | rfl | rfl | rfl <;>
      exact ⟨by simp [mayCall, SeqFrame.start], ⟨_, rfl⟩⟩
  case readBit =>
    have := hm h
    simp only [straightCalls, hop, List.mem_cons, List.not_mem_nil, or_false] at this
    rcases this with rfl | rfl | rfl | rfl | rfl | rfl <;>
      exact ⟨by simp [mayCall, SeqFrame.start], ⟨_, rfl⟩⟩
  case writeByte =>
    unfold writeByteCalls at h
    split at h
    · split at h
      · cases h
        exact ⟨.inl rfl, ⟨_, rfl⟩⟩
      · cases h
    · cases h
      exact ⟨.inr (.inl rfl), ⟨_, rfl⟩⟩
    · cases h
      exact ⟨.inr (.inr rfl), ⟨_, rfl⟩⟩
    · cases h
  case readByte =>
    unfold readByteCalls at h
    split at h
    · cases h
      exact ⟨.inr rfl, ⟨_, rfl⟩⟩
    · cases h
      exact ⟨.inl rfl, ⟨_, rfl⟩⟩
    · cases h
  case smbusBlockWrite =>
    unfold blockWriteCalls at h
    split at h
    all_goals first
      | (cases h; exact ⟨by simp [mayCall, writeByteCall, SeqFrame.start], ⟨_, rfl⟩⟩)
      | cases h
  case smbusBlockRead =>
    unfold blockReadCalls at h
    split at h
    all_goals first
      | (cases h; exact ⟨by simp [mayCall, writeByteCall, readByteCall, SeqFrame.start], ⟨_, rfl⟩⟩)
      | cases h
  case readAtOffset =>
    unfold readAtOffsetCalls at h
    split at h
    all_goals first
      | (cases h; exact ⟨by simp [mayCall, writeByteCall, readByteCall, SeqFrame.start], ⟨_, rfl⟩⟩)
      | cases h

/-- A callee has a lower rank than its caller. -/
theorem rank_of_mayCall {a b : Operation} (h : mayCall a b) : rank b < rank a := by
  revert h
  cases a <;> cases b <;> simp [mayCall, rank]

/-- What it means to be called. -/
theorem calledBy_iff {saved : PerLine PadWord} {f g : SeqFrame} :
    calledBy saved f g = true ↔ ∃ c, callOf g saved = some c ∧ c.operation = f.operation
      ∧ c.line = f.line ∧ c.operands = f.operands := by
  unfold calledBy
  split
  · simp [*]
  · simp [*]

theorem calledBy_mayCall {saved : PerLine PadWord} {f g : SeqFrame} (h : calledBy saved f g = true) :
    mayCall g.operation f.operation := by
  obtain ⟨c, hc, ho, -, -⟩ := calledBy_iff.mp h
  have := (callOf_cases hc).1
  rwa [ho] at this

theorem stackOk_cons2 {saved : PerLine PadWord} {f g : SeqFrame} {r : List SeqFrame} :
    stackOk saved (f :: g :: r) = true ↔ calledBy saved f g = true ∧ stackOk saved (g :: r) = true := by
  simp [stackOk]

/-- A stack of entries, each of a higher rank than the one above it, is not deeper than the rank of its
bottom. -/
theorem stackOk_ranks {saved : PerLine PadWord} {f : SeqFrame} {r : List SeqFrame}
    (h : stackOk saved (f :: r) = true) :
    (∀ g ∈ r, rank f.operation < rank g.operation) ∧ rank f.operation + r.length ≤ 4 := by
  induction r generalizing f with
  | nil => exact ⟨by simp, by rcases f.operation <;> decide⟩
  | cons g r ih =>
    obtain ⟨h1, h2⟩ := stackOk_cons2.mp h
    have hr := rank_of_mayCall (calledBy_mayCall h1)
    obtain ⟨h3, h4⟩ := ih h2
    refine ⟨?_, by simp; omega⟩
    intro k hk
    rcases List.mem_cons.mp hk with rfl | hk
    · exact hr
    · exact hr.trans (h3 k hk)

/-- SEQ holds at most four entries (R30). -/
theorem stackOk_depth {saved : PerLine PadWord} {q : List SeqFrame} (h : stackOk saved q = true) :
    q.length ≤ 4 := by
  rcases q with _ | ⟨f, r⟩
  · simp
  · have := (stackOk_ranks h).2
    have h1 : 1 ≤ rank f.operation := by rcases f.operation <;> decide
    simp
    omega

theorem nextStep_loopAt5 (n : Nat) (f : SeqFrame) : 1 ≤ (loopAt5 n f).nextStep := by
  unfold loopAt5
  split <;> simp [SeqFrame.goto]

/-- A caller that resumes keeps its listing, its line, its operands and the phase it began in. -/
theorem resume_fields (x : Result) (f : SeqFrame) :
    (resume x f).operation = f.operation ∧ (resume x f).line = f.line
    ∧ (resume x f).operands = f.operands ∧ (resume x f).entry = f.entry
    ∧ (1 ≤ f.nextStep → 1 ≤ (resume x f).nextStep) := by
  have hg : ∀ last (f : SeqFrame), (gateHeader last x f).operation = f.operation
    ∧ (gateHeader last x f).line = f.line ∧ (gateHeader last x f).operands = f.operands ∧ (gateHeader last x f).entry = f.entry
    ∧ (1 ≤ (gateHeader last x f).nextStep) := by
    intro last f
    unfold gateHeader
    simp only [Config.blockReadGating]
    split <;> simp [SeqFrame.advance, SeqFrame.goto]
  have hl : ∀ n (f : SeqFrame), (loopAt5 n f).operation = f.operation ∧ (loopAt5 n f).line = f.line
    ∧ (loopAt5 n f).operands = f.operands ∧ (loopAt5 n f).entry = f.entry
    ∧ (1 ≤ (loopAt5 n f).nextStep) := by
    intro n f
    unfold loopAt5
    split <;> simp [SeqFrame.goto]
  have hn : ∀ (f : SeqFrame), (nextBit f).operation = f.operation ∧ (nextBit f).line = f.line
    ∧ (nextBit f).operands = f.operands ∧ (nextBit f).entry = f.entry
    ∧ (1 ≤ f.nextStep → 1 ≤ (nextBit f).nextStep) := by
    intro f
    unfold nextBit
    split <;> simp [SeqFrame.advance]
  rcases hop : f.operation <;> simp only [resume, hop]
  all_goals first
    | (simp [SeqFrame.advance, hop]; done)
    | skip
  case readBit => split <;> simp [SeqFrame.advance, hop]
  case writeByte =>
    split
    · have := hn f
      simp_all
    · simp [SeqFrame.advance]
    · simp [SeqFrame.advance, hop]
  case readByte =>
    split
    · have := hn { f with v := assembleBit f.v f.i.toNat x.bit }
      simp_all
    · simp [SeqFrame.advance, hop]
  case smbusBlockWrite =>
    unfold resumeBlockWrite
    split
    · split
      · have := hl f.operands.txbuf.length f
        simp_all
      · simp [SeqFrame.goto, hop]
    · split
      · have := hl f.operands.txbuf.length { f with cnt := f.cnt + 1, k := f.k + 1 }
        simp_all
      · simp [SeqFrame.goto, hop]
    · simp [SeqFrame.advance, hop]
    · split <;> simp [SeqFrame.advance, SeqFrame.goto, hop]
  case smbusBlockRead =>
    unfold resumeBlockRead
    split
    · have := hg true f; simp_all
    · have := hl x.value.toNat { f with n := x.value }
      simp_all
    · have := hl f.n.toNat { f with out := f.out ++ [x.value], k := f.k + 1 }
      simp_all
    · simp [SeqFrame.advance, hop]
    · have := hg false f; simp_all
  case readAtOffset =>
    unfold resumeReadAtOffset
    split
    · have h1 := hg true f
      have h2 := hl f.operands.length (gateHeader true x f)
      dsimp only
      split
      · simp_all
      · simp_all
    · have := hl f.operands.length { f with out := f.out ++ [x.value], k := f.k + 1 }
      simp_all
    · simp [SeqFrame.advance, hop]
    · have := hg false f; simp_all

/-- The calls of a straight listing depend on its operation and its operands only. -/
theorem straightCalls_fields (f g : SeqFrame) (saved : PerLine PadWord)
    (h1 : f.operation = g.operation) (h2 : f.operands = g.operands) :
    straightCalls f saved = straightCalls g saved := by
  unfold straightCalls
  rw [h1, h2]

/-- What a listing calls does not depend on the phase it began in. -/
theorem callOf_entry (f : SeqFrame) (e : Option BusPhase) (saved : PerLine PadWord) :
    callOf { f with entry := e } saved = callOf f saved := by
  rcases f with ⟨op⟩
  cases op <;> rfl

theorem straightCalls_of_rank {f : SeqFrame} (h : 3 ≤ rank f.operation) (saved : PerLine PadWord) :
    straightCalls f saved = [] := by
  rcases hop : f.operation <;> simp [hop, rank] at h <;> simp [straightCalls, hop]

/-- A byte frame or a block transfer is no start, stop or bit cell. -/
theorem inCell_of_rank {f : SeqFrame} (h : 3 ≤ rank f.operation) : inCell f = false := by
  rcases hop : f.operation <;> simp [hop, rank] at h <;> simp [inCell, hop]

theorem lastDrive_append (l : Line) (a : List SeqFrame) (c : SeqFrame) :
    lastDrive l (a ++ [c]) = (drivenBy l c).or (lastDrive l a) := by
  simp [lastDrive]

/-- One more finished call, and the drivers are as it leaves them. -/
theorem lastDrive_take {calls : List SeqFrame} {n : Nat} {c : SeqFrame} (l : Line)
    (h : calls[n]? = some c) :
    lastDrive l (calls.take (n + 1)) = (drivenBy l c).or (lastDrive l (calls.take n)) := by
  rw [List.take_add_one, h]
  exact lastDrive_append l _ c

theorem drivenBy_fields {f g : SeqFrame} (h1 : f.operation = g.operation) (h2 : f.line = g.line)
    (h3 : f.operands = g.operands) (l : Line) : drivenBy l f = drivenBy l g := by
  unfold drivenBy
  rw [h1, h2, h3]

theorem invSeq_nil {s : State} (h : s.seq = []) : s.InvSeq :=
  ⟨by simp [h], by simp [h, stackOk], by simp [h], by simp [h], by simp [h], by simp [h], by simp [h],
    by simp [h]⟩

/-- The entries under a called listing are byte frames and block transfers. -/
theorem below_rank {saved : PerLine PadWord} {g : SeqFrame} {below : List SeqFrame}
    (h : stackOk saved (g :: below) = true) (hg : 2 ≤ rank g.operation) :
    ∀ k ∈ below, 3 ≤ rank k.operation := fun k hk => by
  have := (stackOk_ranks h).1 k hk
  omega

/-- The stack with its top replaced by the same listing at another step. -/
theorem stackOk_top {saved : PerLine PadWord} {g g' : SeqFrame} {below : List SeqFrame}
    (h : stackOk saved (g :: below) = true) (h1 : g'.operation = g.operation) (h2 : g'.line = g.line)
    (h3 : g'.operands = g.operands) : stackOk saved (g' :: below) = true := by
  rcases below with _ | ⟨k, r⟩
  · simpa [stackOk, h1] using h
  · rw [stackOk_cons2] at h ⊢
    refine ⟨?_, h.2⟩
    obtain ⟨c, hc, a, b, d⟩ := calledBy_iff.mp h.1
    exact calledBy_iff.mpr ⟨c, hc, a.trans h1.symm, b.trans h2.symm, d.trans h3.symm⟩

/-- No listing calls a construction, a teardown, `open` or a block transfer. -/
theorem not_called_construct {saved : PerLine PadWord} {f g : SeqFrame}
    (h : calledBy saved f g = true) : f.operation ≠ .construct ∧ f.operation ≠ .teardown
      ∧ f.operation ≠ .openPad ∧ rank f.operation ≤ 3 := by
  have := calledBy_mayCall h
  rcases hg : g.operation <;> rw [hg] at this <;> simp only [mayCall] at this <;>
    rcases hf : f.operation <;> simp_all [rank]

/-- A listing ends and its caller resumes: what is to be shown of SEQ then. -/
theorem invSeq_resume {s s' : State} {f g : SeqFrame} {below : List SeqFrame} {x : Result}
    (hs : s.InvSeq) (hq : s.seq = f :: g :: below) (hq' : s'.seq = resume x g :: below)
    (hlife : s'.life = s.life) (hsav : s'.saved = s.saved ∨ g.operation = .construct)
    (hphase : inCell (resume x g) = true → s'.phase = some .undefined)
    (hdr : ∀ l r, lastDrive l ((straightCalls g s'.saved).take ((resume x g).nextStep - 1)) = some r →
      (s'.pad l).txdis = r)
    (hpay : g.operation = .smbusBlockWrite → payloadOk (resume x g) = true) : s'.InvSeq := by
  obtain ⟨r1, r2, r3, r4, r5⟩ := resume_fields x g
  have hst := hs.stack
  rw [hq, stackOk_cons2] at hst
  have hg2 : 2 ≤ rank g.operation := by
    have := rank_of_mayCall (calledBy_mayCall hst.1)
    have h1 : 1 ≤ rank f.operation := by rcases f.operation <;> decide
    omega
  have hb := below_rank hst.2 hg2
  have hbelow : g.operation = .construct → below = [] := by
    intro hc
    rcases below with _ | ⟨k, r⟩
    · rfl
    · exact absurd hc (not_called_construct (stackOk_cons2.mp hst.2).1).1
  have hstack : stackOk s'.saved (resume x g :: below) = true := by
    rcases hsav with h | h
    · rw [h]
      exact stackOk_top hst.2 r1 r2 r3
    · have := hst.2
      rw [hbelow h] at this ⊢
      simpa [stackOk, r1] using this
  have hmem : ∀ k, k ∈ below → k ∈ s.seq := fun k hk => by rw [hq]; simp [hk]
  have hgm : g ∈ s.seq := by rw [hq]; simp
  refine ⟨?_, ?_, ?_, ?_, ?_, ?_, ?_, ?_⟩ <;> rw [hq']
  · exact stackOk_depth hstack
  · exact hstack
  all_goals intro k hk
  all_goals rcases List.mem_cons.mp hk with rfl | hk
  · exact r5 (hs.stepsFromOne g hgm)
  · exact hs.stepsFromOne k (hmem k hk)
  · rw [r1, hlife]
    exact hs.engineLive g hgm
  · rw [hlife]
    exact hs.engineLive k (hmem k hk)
  · rw [r1, hlife]
    exact hs.constructAbsent g hgm
  · rw [hlife]
    exact hs.constructAbsent k (hmem k hk)
  · exact hphase
  · intro h
    rw [inCell_of_rank (hb k hk)] at h
    cases h
  · rw [straightCalls_fields _ g _ r1 r3]
    exact hdr
  · rw [straightCalls_of_rank (hb k hk)]
    simp [lastDrive]
  · rw [r1]
    exact hpay
  · exact hs.payload k (hmem k hk)

/-- All that beginning a listing changes is PHASE and T. -/
theorem beginListing_fields (f : SeqFrame) (s : State) :
    (beginListing f s).pads = s.pads ∧ (beginListing f s).saved = s.saved
    ∧ (beginListing f s).life = s.life ∧ (beginListing f s).regs = s.regs
    ∧ (beginListing f s).instant = s.instant
    ∧ (beginListing f s).trace.length ≤ s.trace.length
    ∧ (rank f.operation = 2 → f.operation ≠ .construct → f.operation ≠ .teardown →
        (beginListing f s).phase = some .undefined)
    ∧ ((beginListing f s).phase = s.phase
      ∨ (f.operation.ofEngine = true ∧ (beginListing f s).phase = some .undefined)) := by
  unfold beginListing
  split <;> simp_all [rank, Operation.ofEngine]

/-- Only an engine listing calls an engine listing (R27). -/
theorem ofEngine_of_mayCall {a b : Operation} (h : mayCall a b) (hb : b.ofEngine = true) :
    a.ofEngine = true := by
  revert h hb
  cases a <;> cases b <;> simp [mayCall, Operation.ofEngine]

/-- Only a start, a stop or a bit cell calls the pseudo-operations (R87). -/
theorem pseudo_caller {a b : Operation} (h : mayCall a b)
    (hb : b = .rel ∨ b = .low ∨ b = .drive ∨ b = .smp) :
    rank a = 2 ∧ a ≠ .construct ∧ a ≠ .teardown := by
  revert h
  rcases hb with rfl | rfl | rfl | rfl <;> cases a <;> simp [mayCall, rank]

/-- A cell past its first step is in progress. -/
theorem cell_of_rank {f : SeqFrame} (h : rank f.operation = 2) (h1 : f.operation ≠ .construct)
    (h2 : f.operation ≠ .teardown) (h3 : f.nextStep ≠ 1) : inCell f = true := by
  rcases hop : f.operation <;> simp_all [rank, inCell]

/-- A step that calls keeps the invariant. -/
theorem callStep_inv {s : State} {f c : SeqFrame} {rest : List SeqFrame} (hs : s.Inv)
    (hq : s.seq = f :: rest) (hc : callOf f s.saved = some c) : (callStep f c rest s).Inv := by
  obtain ⟨hm, o, ho⟩ := callOf_cases hc
  obtain ⟨b1, b2, b3, b4, b5, b6, b7, b8⟩ := beginListing_fields f s
  have hfm : f ∈ s.seq := by rw [hq]; simp
  have hst := hs.seq.stack
  rw [hq] at hst
  -- the new state, in both cases
  obtain ⟨s', f', hcall, hseq, hp, hsav, hl, hr, hi, ht, hph, hph2, hf⟩ : ∃ s' f', callStep f c rest s = s'
      ∧ s'.seq = c :: f' :: rest ∧ s'.pads = s.pads ∧ s'.saved = s.saved ∧ s'.life = s.life
      ∧ s'.regs = s.regs ∧ s'.instant = s.instant ∧ s'.trace.length ≤ s.trace.length
      ∧ (s'.phase = s.phase ∨ (f.operation.ofEngine = true ∧ s'.phase = some .undefined))
      ∧ (rank f.operation = 2 → f.operation ≠ .construct → f.operation ≠ .teardown →
          s'.phase = some .undefined)
      ∧ ∃ e, f' = { f with entry := e } := by
    by_cases h1 : f.nextStep = 1
    · refine ⟨_, { f with entry := s.phase }, rfl, ?_⟩
      rw [callStep, if_pos h1]
      exact ⟨rfl, b1, b2, b3, b4, b5, b6, b8, b7, ⟨_, rfl⟩⟩
    · refine ⟨_, f, rfl, ?_⟩
      rw [callStep, if_neg h1]
      exact ⟨rfl, rfl, rfl, rfl, rfl, rfl, le_refl _, .inl rfl,
        fun a b d => hs.seq.cellPhase f hfm (cell_of_rank a b d h1), ⟨f.entry, rfl⟩⟩
  rw [hcall]
  obtain ⟨e, rfl⟩ := hf
  have hstack : stackOk s'.saved (c :: { f with entry := e } :: rest) = true := by
    rw [stackOk_cons2, hsav]
    exact ⟨calledBy_iff.mpr ⟨c, (callOf_entry f e s.saved).trans hc, rfl, rfl, rfl⟩,
      stackOk_top hst rfl rfl rfl⟩
  have hmem : ∀ k, k ∈ rest → k ∈ s.seq := fun k hk => by rw [hq]; simp [hk]
  refine ⟨⟨?_, ?_, ?_, ?_, ?_⟩, ⟨?_, ?_, ?_, ?_, ?_, ?_, ?_, ?_⟩⟩
  · rw [hl]
    rcases hph with h | ⟨h, h'⟩
    · rw [h]
      exact hs.data.phaseDefined
    · rw [h']
      exact ⟨fun _ => hs.seq.engineLive f hfm h, fun _ => rfl⟩
  · intro h
    rcases hph with h' | ⟨-, h'⟩
    · simp only [State.pad, hp]
      exact hs.data.idleReleased (h'.symm.trans h)
    · exact absurd (h'.symm.trans h) (by decide)
  · intro h
    rcases hph with h' | ⟨-, h'⟩
    · simp only [State.pad, hp]
      exact hs.data.openClockDriven (h'.symm.trans h)
    · exact absurd (h'.symm.trans h) (by decide)
  · rw [hr]
    exact hs.data.countBound
  · rw [hi]
    exact ht.trans hs.data.traceBound
  · rw [hseq]
    exact stackOk_depth hstack
  · rw [hseq]
    exact hstack
  all_goals rw [hseq]
  all_goals intro k hk
  all_goals rw [List.mem_cons, List.mem_cons] at hk
  all_goals rcases hk with rfl | rfl | hk
  · rw [ho]
    exact le_refl 1
  · exact hs.seq.stepsFromOne f hfm
  · exact hs.seq.stepsFromOne k (hmem k hk)
  · rw [hl]
    exact fun h => hs.seq.engineLive f hfm (ofEngine_of_mayCall hm h)
  · rw [hl]
    exact hs.seq.engineLive f hfm
  · rw [hl]
    exact hs.seq.engineLive k (hmem k hk)
  · intro h
    exact absurd h (not_called_construct (stackOk_cons2.mp hstack).1).1
  · rw [hl]
    exact hs.seq.constructAbsent f hfm
  · rw [hl]
    exact hs.seq.constructAbsent k (hmem k hk)
  · intro h
    have h1 : k.nextStep = 1 := by rw [ho]; rfl
    have h2 : k.operation = .rel ∨ k.operation = .low ∨ k.operation = .drive ∨ k.operation = .smp := by
      simpa [inCell, h1] using h
    obtain ⟨a, b, d⟩ := pseudo_caller hm h2
    exact hph2 a b d
  · intro h
    have h0 : inCell f = true := h
    rcases hph with h' | ⟨-, h'⟩
    · rw [h']
      exact hs.seq.cellPhase f hfm h0
    · exact h'
  · intro h
    rcases hph with h' | ⟨-, h'⟩
    · rw [h']
      exact hs.seq.cellPhase k (hmem k hk) h
    · exact h'
  · intro l r h
    have h1 : k.nextStep = 1 := by rw [ho]; rfl
    rw [h1] at h
    simp [lastDrive] at h
  · intro l r h
    simp only [State.pad, hp]
    rw [hsav, straightCalls_fields { f with entry := e } f s.saved rfl rfl] at h
    exact hs.seq.driven f hfm l r h
  · intro l r h
    simp only [State.pad, hp]
    rw [hsav] at h
    exact hs.seq.driven k (hmem k hk) l r h
  · intro h
    have := (not_called_construct (stackOk_cons2.mp hstack).1).2.2.2
    rw [h] at this
    exact absurd this (by decide)
  · intro h
    exact hs.seq.payload f hfm h
  · exact hs.seq.payload k (hmem k hk)

/-- The call of a straight listing's next step stands at that step. -/
theorem straight_call {f c : SeqFrame} {saved : PerLine PadWord} (h : callOf f saved = some c)
    (hr : rank f.operation = 2) : (straightCalls f saved)[f.nextStep - 1]? = some c := by
  rcases hop : f.operation <;> simp [hop, rank] at hr <;> simpa [callOf, hop] using h

/-- A straight listing ends after its last call. -/
theorem straight_end {f : SeqFrame} {saved : PerLine PadWord} (h : callOf f saved = none)
    (hr : rank f.operation = 2) : (straightCalls f saved).take (f.nextStep - 1) = straightCalls f saved := by
  have h1 : (straightCalls f saved)[f.nextStep - 1]? = none := by
    rcases hop : f.operation <;> simp [hop, rank] at hr <;> simpa [callOf, hop] using h
  exact List.take_of_length_le (List.getElem?_eq_none_iff.mp h1)

/-- A straight listing goes on to its next step. -/
theorem resume_rank2 (x : Result) {g : SeqFrame} (h : rank g.operation = 2) :
    (resume x g).nextStep = g.nextStep + 1 := by
  rcases hop : g.operation <;> simp [hop, rank] at h <;> simp only [resume, hop] <;> (try split) <;>
    simp [SeqFrame.advance]

theorem straightCalls_construct {g : SeqFrame} (h : g.operation = .construct) (a b : PerLine PadWord) :
    straightCalls g a = straightCalls g b := by
  simp [straightCalls, h]

theorem caller_of_setConfig {a : Operation} (h : mayCall a .setConfig) : a = .teardown := by
  revert h
  cases a <;> simp [mayCall]

theorem lastDrive_none (l : Line) (calls : List SeqFrame) (h : ∀ c ∈ calls, drivenBy l c = none) :
    lastDrive l calls = none := by
  induction calls using List.reverseRecOn with
  | nil => rfl
  | append_singleton cs c ih =>
    rw [lastDrive_append, h c (by simp), ih (fun d hd => h d (by simp [hd]))]
    rfl

/-- Only a result of `smbusBlockWrite` goes to COUNT. -/
theorem storeResult_count (x : Result) (r : Registers) (h : ∀ n, x ≠ .accepted n) :
    (storeResult x r).count = r.count := by
  cases x <;> first | rfl | exact absurd rfl (h _)

theorem storeFlag_count (x : Result) (r : Registers) : (storeFlag x r).count = r.count := by
  cases x <;> rfl

/-- A listing ends: the invariant of what follows. -/
theorem return_inv {s s1 : State} {f : SeqFrame} {rest : List SeqFrame} {x : Result} (hs : s.Inv)
    (hq : s.seq = f :: rest) (hd : s1.InvData)
    (hx : ∀ n, x = .accepted n → n.toNat ≤ Config.maxBlock)
    (hlife : rest = [] ∨ s1.life = s.life) (hsav : s1.saved = s.saved)
    (hw : (∀ w, x ≠ .word w) ∨ f.operation = .getConfig)
    (hphase : ∀ g below, rest = g :: below → inCell (resume x g) = true → s1.phase = some .undefined)
    (hdrive : ∀ l, f.operation = .setConfig ∨ match drivenBy l f with
      | some r => (s1.pad l).txdis = r
      | none => (s1.pad l).txdis = (s.pad l).txdis)
    (hpay : ∀ g below, rest = g :: below → g.operation = .smbusBlockWrite → payloadOk (resume x g) = true) :
    (returnResult x f rest s1).Inv := by
  rcases rest with _ | ⟨g, below⟩
  · refine ⟨⟨hd.phaseDefined, hd.idleReleased, hd.openClockDriven, ?_, hd.traceBound⟩, invSeq_nil rfl⟩
    show (storeResult x s1.regs).count.toNat ≤ _
    by_cases h : ∃ n, x = .accepted n
    · obtain ⟨n, rfl⟩ := h
      exact hx n rfl
    · rw [storeResult_count x _ (fun n hn => h ⟨n, hn⟩)]
      exact hd.countBound
  have hst := hs.seq.stack
  rw [hq] at hst
  have hcall := (stackOk_cons2.mp hst).1
  obtain ⟨c, hc, c1, c2, c3⟩ := calledBy_iff.mp hcall
  have hm := calledBy_mayCall hcall
  have hl : s1.life = s.life := by
    rcases hlife with h | h
    · cases h
    · exact h
  have hsav' : (returnResult x f (g :: below) s1).saved = s.saved ∨ g.operation = .construct := by
    by_cases hg : g.operation = .construct
    · exact .inr hg
    · left
      show capturedWord g f x s1.saved = _
      rw [← hsav]
      cases x <;> simp [capturedWord, hg]
  refine ⟨⟨hd.phaseDefined, hd.idleReleased, hd.openClockDriven, ?_, hd.traceBound⟩,
    invSeq_resume (f := f) (g := g) (below := below) (x := x) hs.seq hq rfl hl hsav' (hphase g below rfl) ?_
      (hpay g below rfl)⟩
  · show (storeFlag x s1.regs).count.toNat ≤ _
    rw [storeFlag_count]
    exact hd.countBound
  · intro l r h
    by_cases hr : rank g.operation = 2
    · have hn := hs.seq.stepsFromOne g (by rw [hq]; simp)
      have hsc : straightCalls g (returnResult x f (g :: below) s1).saved = straightCalls g s.saved := by
        rcases hsav' with h' | h'
        · rw [h']
        · exact straightCalls_construct h' _ _
      rw [hsc, resume_rank2 x hr, show g.nextStep + 1 - 1 = g.nextStep - 1 + 1 by omega,
        lastDrive_take l (straight_call hc hr), drivenBy_fields c1 c2 c3 l] at h
      rcases hdrive l with hf | hf
      · -- a restoring write: no call of teardown sets a driver
        rw [hf] at hm
        have hg := caller_of_setConfig hm
        have h0 : lastDrive l ((straightCalls g s.saved).take (g.nextStep - 1)) = none := by
          apply lastDrive_none
          intro d hd'
          have := List.mem_of_mem_take hd'
          simp only [straightCalls, hg, List.mem_map] at this
          obtain ⟨m, -, rfl⟩ := this
          rfl
        rw [h0] at h
        simp [drivenBy, hf] at h
      · rcases hdb : drivenBy l f with _ | b
        · rw [hdb] at h hf
          show (s1.pad l).txdis = r
          rw [hf]
          exact hs.seq.driven g (by rw [hq]; simp) l r (by simpa using h)
        · rw [hdb] at h hf
          show (s1.pad l).txdis = r
          rw [hf]
          simpa using h
    · have h2 := rank_of_mayCall hm
      have h1 : 1 ≤ rank f.operation := by rcases f.operation <;> decide
      rw [straightCalls_of_rank (by omega)] at h
      simp [lastDrive] at h

/-- What is known of the entry under a running listing. -/
theorem caller_facts {s : State} {f g : SeqFrame} {below : List SeqFrame} (hs : s.InvSeq)
    (hq : s.seq = f :: g :: below) : mayCall g.operation f.operation ∧ g ∈ s.seq ∧
      ∃ c, callOf g s.saved = some c ∧ c.operation = f.operation ∧ c.line = f.line
        ∧ c.operands = f.operands := by
  have hst := hs.stack
  rw [hq] at hst
  have hcall := (stackOk_cons2.mp hst).1
  exact ⟨calledBy_mayCall hcall, by rw [hq]; simp, calledBy_iff.mp hcall⟩

theorem not_inCell_of {g : SeqFrame} (h : rank g.operation ≠ 2 ∨ g.operation = .construct
    ∨ g.operation = .teardown) (h1 : 2 ≤ rank g.operation) : inCell g = false := by
  rcases hop : g.operation <;> simp [hop, rank] at h h1 <;> simp [inCell, hop]

/-- A listing called by a start, a stop or a bit cell runs with PHASE "anything else". -/
theorem phase_of_caller {s : State} {f g : SeqFrame} {below : List SeqFrame} {x : Result} (hs : s.InvSeq)
    (hq : s.seq = f :: g :: below) (h : inCell (resume x g) = true) : s.phase = some .undefined := by
  obtain ⟨hm, hg, c, hc, c1, -, -⟩ := caller_facts hs hq
  have hg2 : 2 ≤ rank g.operation := by
    have := rank_of_mayCall hm
    have h1 : 1 ≤ rank f.operation := by rcases f.operation <;> decide
    omega
  have hr := (resume_fields x g).1
  have hcell : rank g.operation = 2 ∧ g.operation ≠ .construct ∧ g.operation ≠ .teardown := by
    by_contra hn
    rw [not_inCell_of (by rw [hr]; tauto) (by rw [hr]; exact hg2)] at h
    cases h
  obtain ⟨hr2, hn1, hn2⟩ := hcell
  by_cases h1 : g.nextStep = 1
  · have h0 := straight_call hc hr2
    rw [h1] at h0
    have hf : f.operation = .rel ∨ f.operation = .low ∨ f.operation = .drive := by
      rw [← c1]
      rcases hop : g.operation <;> simp [hop, rank] at hr2 hn1 hn2 <;>
        simp [straightCalls, hop] at h0 <;> subst h0 <;> simp [SeqFrame.start]
    refine hs.cellPhase f (by rw [hq]; simp) ?_
    rcases hf with hf | hf | hf <;> simp [inCell, hf]
  · exact hs.cellPhase g hg (cell_of_rank hr2 hn1 hn2 h1)

/-- PHASE after the host has written a pad word itself (R34). -/
theorem settlePhase_inv {s s1 : State} (hs : s.InvData) (hph : s1.phase = s.phase) (hl : s1.life = s.life)
    (hr : s1.regs = s.regs) (ht : s1.trace.length ≤ s1.instant) : (settlePhase s1).InvData := by
  have hc : s1.regs.count.toNat ≤ Config.maxBlock := by
    rw [hr]
    exact hs.countBound
  unfold settlePhase
  split
  · rename_i h
    refine ⟨?_, ?_, ?_, hc, ht⟩
    · rw [hph, hl]
      exact hs.phaseDefined
    · simp [h]
    · simp [h]
  · rename_i p h
    split
    · rename_i hp
      refine ⟨?_, ?_, ?_, hc, ht⟩
      · rw [hph, hl]
        exact hs.phaseDefined
      · rw [h]
        rintro ⟨⟩
        simpa [phaseHolds, released] using hp
      · rw [h]
        rintro ⟨⟩
        have := hp
        simp only [phaseHolds, pulledLow, Bool.and_eq_true, Bool.not_eq_true'] at this
        exact this.1
    · refine ⟨?_, ?_, ?_, hc, ht⟩
      · have := hs.phaseDefined
        rw [← hph, h, ← hl] at this
        simpa using this
      · intro h'
        cases h'
      · intro h'
        cases h'

/-- Settling PHASE changes nothing else. -/
theorem settlePhase_frame (s : State) : (settlePhase s).pads = s.pads ∧ (settlePhase s).saved = s.saved
    ∧ (settlePhase s).life = s.life ∧ (settlePhase s).regs = s.regs ∧ (settlePhase s).trace = s.trace
    ∧ (settlePhase s).instant = s.instant := by
  unfold settlePhase
  split
  · simp
  · split <;> simp

/-- A GpioLine call ends. -/
theorem lineOp_return {s s1 : State} {f : SeqFrame} {rest : List SeqFrame} {x : Result} (hs : s.Inv)
    (hq : s.seq = f :: rest) (hop : f.operation.ofEngine = false) (hop' : f.operation ≠ .construct)
    (hd : s1.InvData) (hl : s1.life = s.life) (hsav : s1.saved = s.saved)
    (hx : ∀ n, x ≠ .accepted n) (hw : (∀ w, x ≠ .word w) ∨ f.operation = .getConfig)
    (hdrive : ∀ l, f.operation = .setConfig ∨ match drivenBy l f with
      | some r => (s1.pad l).txdis = r
      | none => (s1.pad l).txdis = (s.pad l).txdis) : (returnResult x f rest s1).Inv := by
  refine return_inv hs hq hd (fun n h => absurd h (hx n)) (.inr hl) hsav hw ?_ hdrive ?_
  · rintro g below rfl h
    have hm := (caller_facts hs.seq hq).1
    have : g.operation = .construct ∨ g.operation = .teardown := by
      revert hm hop hop'
      cases g.operation <;> cases f.operation <;> simp [mayCall, Operation.ofEngine]
    rw [not_inCell_of (by rw [(resume_fields x g).1]; tauto)
      (by rw [(resume_fields x g).1]; rcases this with h | h <;> rw [h] <;> decide)] at h
    cases h
  · rintro g below rfl hg
    have hm := (caller_facts hs.seq hq).1
    rw [hg] at hm
    rcases hm with hm | hm <;> rw [hm] at hop <;> cases hop

/-- A pseudo-operation or a delay ends. -/
theorem leaf_return {s s1 : State} {f : SeqFrame} {rest : List SeqFrame} {x : Result} (hs : s.Inv)
    (hq : s.seq = f :: rest)
    (hop : f.operation = .rel ∨ f.operation = .low ∨ f.operation = .drive ∨ f.operation = .smp
      ∨ f.operation = .delay)
    (hl : s1.life = s.life) (hsav : s1.saved = s.saved) (hr : s1.regs = s.regs) (hph : s1.phase = s.phase)
    (ht : s1.trace.length ≤ s1.instant) (hpd : f.operation = .delay → s1.pads = s.pads)
    (hx : ∀ n, x ≠ .accepted n) (hw : ∀ w, x ≠ .word w)
    (hdrive : ∀ l, match drivenBy l f with
      | some r => (s1.pad l).txdis = r
      | none => (s1.pad l).txdis = (s.pad l).txdis) : (returnResult x f rest s1).Inv := by
  have hund : f.operation ≠ .delay → s.phase = some .undefined := by
    intro h
    refine hs.seq.cellPhase f (by rw [hq]; simp) ?_
    rcases hop with h' | h' | h' | h' | h' <;> first | exact absurd h' h | simp [inCell, h']
  refine return_inv hs hq ⟨?_, ?_, ?_, ?_, ht⟩ (fun n h => absurd h (hx n)) (.inr hl) hsav (.inl hw) ?_
    (fun l => .inr (hdrive l)) ?_
  · rw [hph, hl]
    exact hs.data.phaseDefined
  · intro h
    by_cases hdl : f.operation = .delay
    · simp only [State.pad, hpd hdl]
      exact hs.data.idleReleased (hph.symm.trans h)
    · rw [hph, hund hdl] at h
      cases h
  · intro h
    by_cases hdl : f.operation = .delay
    · simp only [State.pad, hpd hdl]
      exact hs.data.openClockDriven (hph.symm.trans h)
    · rw [hph, hund hdl] at h
      cases h
  · rw [hr]
    exact hs.data.countBound
  · rintro g below rfl h
    rw [hph]
    exact phase_of_caller hs.seq hq h
  · rintro g below rfl hg
    have hm := (caller_facts hs.seq hq).1
    rw [hg] at hm
    rcases hm with hm | hm <;> rw [hm] at hop <;> simp at hop

/-- T stays within the instants that have passed. -/
theorem record_bound {s : State} (h : s.trace.length ≤ s.instant) (es : List Event) :
    (s.record es).length ≤ s.instant + es.length :=
  (State.record_length s es).trans (by omega)

/-- A start, a stop or a bit cell ends: PHASE is what the listing leaves (R34, R117 to R120). -/
theorem cell_return {s : State} {f : SeqFrame} {rest : List SeqFrame} {x : Result} {p : BusPhase}
    (hs : s.Inv) (hq : s.seq = f :: rest) (hcall : callOf f s.saved = none)
    (hop : f.operation = .start ∨ f.operation = .stop ∨ f.operation = .writeBit
      ∨ f.operation = .readBit)
    (hp : p = .undefined ∨ (p = .inTransaction ∧ f.operation ≠ .stop)
      ∨ (p = .busIdle ∧ f.operation = .stop))
    (hx : ∀ n, x ≠ .accepted n) (hw : ∀ w, x ≠ .word w) (hpay : ∀ g below, rest = g :: below →
      g.operation = .smbusBlockWrite → payloadOk (resume x g) = true) :
    (returnResult x f rest { s with phase := some p }).Inv := by
  have hfm : f ∈ s.seq := by rw [hq]; simp
  have hlive : s.life = .live := hs.seq.engineLive f hfm (by
    rcases hop with h | h | h | h <;> rw [h] <;> rfl)
  have hr2 : rank f.operation = 2 := by rcases hop with h | h | h | h <;> rw [h] <;> rfl
  have hdr := hs.seq.driven f hfm
  rw [straight_end hcall hr2] at hdr
  refine return_inv (s1 := { s with phase := some p }) hs hq
    ⟨?_, ?_, ?_, hs.data.countBound, hs.data.traceBound⟩ (fun n h => absurd h (hx n)) (.inr rfl) rfl
    (.inl hw) ?_ (fun l => .inr ?_) hpay
  · exact ⟨fun _ => hlive, fun _ => rfl⟩
  · intro h
    have hst : f.operation = .stop := by
      rcases hp with rfl | ⟨rfl, -⟩ | ⟨-, h'⟩
      · cases h
      · cases h
      · exact h'
    exact ⟨hdr .scl true (by simp [straightCalls, hst, lastDrive, drivenBy, SeqFrame.start]),
      hdr .sda true (by simp [straightCalls, hst, lastDrive, drivenBy, SeqFrame.start])⟩
  · intro h
    have hst : f.operation ≠ .stop := by
      rcases hp with rfl | ⟨-, h'⟩ | ⟨rfl, -⟩
      · cases h
      · exact h'
      · cases h
    refine hdr .scl false ?_
    rcases hop with h' | h' | h' | h' <;>
      first
        | exact absurd h' hst
        | simp [straightCalls, h', lastDrive, drivenBy, SeqFrame.start]
  · rintro g below rfl h
    have hm := rank_of_mayCall (caller_facts hs.seq hq).1
    have hr := (resume_fields x g).1
    rw [not_inCell_of (by rw [hr]; omega) (by rw [hr]; omega)] at h
    cases h
  · rw [show drivenBy l f = none by rcases hop with h | h | h | h <;> simp [drivenBy, h]]
    rfl

/-- The entry at the top of SEQ moves on by itself: a byte frame or a block transfer. -/
theorem advance_inv {s : State} {f f' : SeqFrame} {rest : List SeqFrame} (hs : s.Inv)
    (hq : s.seq = f :: rest) (hr : 3 ≤ rank f.operation) (h1 : f'.operation = f.operation)
    (h2 : f'.line = f.line) (h3 : f'.operands = f.operands) (h4 : 1 ≤ f'.nextStep)
    (hpay : f.operation = .smbusBlockWrite → payloadOk f' = true) :
    ({ s with seq := f' :: rest } : State).Inv := by
  have hst := hs.seq.stack
  rw [hq] at hst
  have hstack := stackOk_top hst h1 h2 h3
  have hfm : f ∈ s.seq := by rw [hq]; simp
  have hmem : ∀ k, k ∈ rest → k ∈ s.seq := fun k hk => by rw [hq]; simp [hk]
  refine ⟨⟨hs.data.phaseDefined, hs.data.idleReleased, hs.data.openClockDriven, hs.data.countBound,
    hs.data.traceBound⟩, ⟨stackOk_depth hstack, hstack, ?_, ?_, ?_, ?_, ?_, ?_⟩⟩
  all_goals intro k hk
  all_goals rcases List.mem_cons.mp hk with rfl | hk
  · exact h4
  · exact hs.seq.stepsFromOne k (hmem k hk)
  · rw [h1]
    exact hs.seq.engineLive f hfm
  · exact hs.seq.engineLive k (hmem k hk)
  · rw [h1]
    exact hs.seq.constructAbsent f hfm
  · exact hs.seq.constructAbsent k (hmem k hk)
  · intro h
    rw [inCell_of_rank (by rw [h1]; exact hr)] at h
    cases h
  · exact hs.seq.cellPhase k (hmem k hk)
  · rw [straightCalls_of_rank (by rw [h1]; exact hr)]
    simp [lastDrive]
  · exact hs.seq.driven k (hmem k hk)
  · rw [h1]
    exact hpay
  · exact hs.seq.payload k (hmem k hk)

theorem count_next (c : BitVec 6) : (c + 1).toNat ≤ c.toNat + 1 := by
  simp only [BitVec.toNat_add]
  exact Nat.mod_le _ _

/-- A byte of a block write is answered: its locals stay those of the listing. -/
theorem payload_resume {f c : SeqFrame} {saved : PerLine PadWord} {x : Result}
    (hop : f.operation = .smbusBlockWrite) (hc : callOf f saved = some c) (hp : payloadOk f = true) :
    payloadOk (resume x f) = true := by
  simp only [callOf, hop, blockWriteCalls] at hc
  simp only [resume, hop, resumeBlockWrite, loopAt5]
  have hc1 := count_next f.cnt
  split at hc <;> rename_i hn <;> first | (cases hc; done) | skip
  all_goals
    simp only [payloadOk, hn, SeqFrame.advance, SeqFrame.goto] at hp ⊢
    repeat' split
    all_goals simp_all
    all_goals omega

/-- A byte frame ends. -/
theorem byte_return {s : State} {f : SeqFrame} {rest : List SeqFrame} {x : Result} (hs : s.Inv)
    (hq : s.seq = f :: rest) (hop : 3 ≤ rank f.operation)
    (hx : ∀ n, x = .accepted n → n.toNat ≤ Config.maxBlock) (hw : ∀ w, x ≠ .word w) :
    (returnResult x f rest s).Inv := by
  refine return_inv hs hq hs.data hx (.inr rfl) rfl (.inl hw) ?_ (fun l => .inr ?_) ?_
  · rintro g below rfl h
    have hm := rank_of_mayCall (caller_facts hs.seq hq).1
    have hr := (resume_fields x g).1
    rw [not_inCell_of (by rw [hr]; omega) (by rw [hr]; omega)] at h
    cases h
  · rw [show drivenBy l f = none by
      rcases h : f.operation <;> simp [h, rank] at hop <;> simp [drivenBy, h]]
  · rintro g below rfl hg
    obtain ⟨-, hgm, c, hc, -⟩ := caller_facts hs.seq hq
    exact payload_resume hg hc (hs.seq.payload g hgm hg)

/-- Calls that only release a line, and do, leave it released. -/
theorem lastDrive_true {l : Line} {calls : List SeqFrame}
    (h : ∀ c ∈ calls, drivenBy l c = none ∨ drivenBy l c = some true)
    (h' : ∃ c ∈ calls, drivenBy l c = some true) : lastDrive l calls = some true := by
  induction calls using List.reverseRecOn with
  | nil => simp at h'
  | append_singleton cs c ih =>
    rw [lastDrive_append]
    rcases h c (by simp) with hc | hc
    · rw [hc]
      refine ih (fun d hd => h d (by simp [hd])) ?_
      obtain ⟨d, hd, hd'⟩ := h'
      rcases List.mem_append.mp hd with hd | hd
      · exact ⟨d, hd, hd'⟩
      · rw [List.mem_singleton.mp hd, hc] at hd'
        cases hd'
    · simp [hc]

/-- After the listing of `construct` both lines are released (R115). -/
theorem lastDrive_construct {f : SeqFrame} (hop : f.operation = .construct) (saved : PerLine PadWord)
    (l : Line) : lastDrive l (straightCalls f saved) = some true := by
  simp only [straightCalls, hop]
  apply lastDrive_true
  · intro c hc
    rcases List.mem_append.mp hc with hc | hc
    · obtain ⟨m, -, rfl⟩ := List.mem_map.mp hc
      exact .inl rfl
    · obtain ⟨⟨m, p⟩, -, rfl⟩ := List.mem_map.mp hc
      cases p <;> simp [settingCall, drivenBy, SeqFrame.start, or_comm, em]
  · refine ⟨settingCall f.operands (l, .outputDisabled), ?_, by simp [settingCall, drivenBy, SeqFrame.start]⟩
    refine List.mem_append_right _ (List.mem_map_of_mem ?_)
    refine constructOrder_perm.symm.subset ?_
    cases l <;> decide

theorem settlePhase_pad (s : State) (l : Line) : (settlePhase s).pad l = s.pad l := by
  simp only [State.pad, (settlePhase_frame s).1]

/-- A listing ends: the stack under it is as it was, its top at another step. -/
theorem returnResult_stackOk {s : State} {f : SeqFrame} {rest : List SeqFrame} {x : Result}
    {saved : PerLine PadWord} (h : stackOk saved (f :: rest) = true) (hsav : s.saved = saved) :
    stackOk (returnResult x f rest s).saved (returnResult x f rest s).seq = true := by
  rcases rest with _ | ⟨g, below⟩
  · rfl
  obtain ⟨r1, r2, r3, -, -⟩ := resume_fields x g
  obtain ⟨h1, h2⟩ := stackOk_cons2.mp h
  show stackOk (capturedWord g f x s.saved) (resume x g :: below) = true
  by_cases hg : g.operation = .construct
  · have hb : below = [] := by
      rcases below with _ | ⟨k, r⟩
      · rfl
      · exact absurd hg (not_called_construct (stackOk_cons2.mp h2).1).1
    rw [hb] at h2 ⊢
    simpa [stackOk, r1] using h2
  · have : capturedWord g f x s.saved = saved := by
      rw [← hsav]
      cases x <;> simp [capturedWord, hg]
    rw [this]
    exact stackOk_top h2 r1 r2 r3

/-- A step that calls: the callee stands on its caller. -/
theorem callStep_stackOk {s : State} {f c : SeqFrame} {rest : List SeqFrame}
    (h : stackOk s.saved (f :: rest) = true) (hc : callOf f s.saved = some c) :
    stackOk (callStep f c rest s).saved (callStep f c rest s).seq = true := by
  unfold callStep
  split
  · show stackOk (beginListing f s).saved (c :: { f with entry := s.phase } :: rest) = true
    rw [(beginListing_fields f s).2.1, stackOk_cons2]
    exact ⟨calledBy_iff.mpr ⟨c, (callOf_entry f _ s.saved).trans hc, rfl, rfl, rfl⟩,
      stackOk_top h rfl rfl rfl⟩
  · show stackOk s.saved (c :: f :: rest) = true
    rw [stackOk_cons2]
    exact ⟨calledBy_iff.mpr ⟨c, hc, rfl, rfl, rfl⟩, h⟩

end Sys2Proof.Machine
end

