-- ==== Sys2Proof/Laws/PerInstr.lean ====
section
/-! SUPPORT. For each instruction: its word has the fixed bits of its own row of the opcode table, in the
row's slot. -/

namespace Sys2Proof.Laws.TableRow

open Sys2Proof

/-- The word of a well-formed instruction is of the instruction's row. -/
def Statement (i : Instr) : Prop :=
  i.wellFormed = true →
    ∃ r, opcodeTable[rowIndex i]? = some r ∧ r.Matches (slotOf i) (encode i)

theorem openPad : Statement (.openPad) :=
  fun _ => ⟨_, rfl, rfl, by decide⟩

theorem getConfig (l : Line) : Statement (.getConfig l) :=
  by
  cases l <;> exact fun _ => ⟨_, rfl, rfl, by decide⟩

theorem setConfig (l : Line) : Statement (.setConfig l) :=
  by
  cases l <;> exact fun _ => ⟨_, rfl, rfl, by decide⟩

theorem setPadMode (l : Line) : Statement (.setPadMode l) :=
  by
  cases l <;> exact fun _ => ⟨_, rfl, rfl, by decide⟩

theorem enableRx (l : Line) : Statement (.enableRx l) :=
  by
  cases l <;> exact fun _ => ⟨_, rfl, rfl, by decide⟩

theorem enableTx (l : Line) : Statement (.enableTx l) :=
  by
  cases l <;> exact fun _ => ⟨_, rfl, rfl, by decide⟩

theorem getRx (l : Line) : Statement (.getRx l) :=
  by
  cases l <;> exact fun _ => ⟨_, rfl, rfl, by decide⟩

theorem getTx (l : Line) : Statement (.getTx l) :=
  by
  cases l <;> exact fun _ => ⟨_, rfl, rfl, by decide⟩

theorem setTx (l : Line) : Statement (.setTx l) :=
  by
  cases l <;> exact fun _ => ⟨_, rfl, rfl, by decide⟩

theorem construct : Statement (.construct) :=
  fun _ => ⟨_, rfl, rfl, by decide⟩

theorem teardown : Statement (.teardown) :=
  fun _ => ⟨_, rfl, rfl, by decide⟩

theorem start : Statement (.start) :=
  fun _ => ⟨_, rfl, rfl, by decide⟩

theorem stop : Statement (.stop) :=
  fun _ => ⟨_, rfl, rfl, by decide⟩

theorem writeBit : Statement (.writeBit) :=
  fun _ => ⟨_, rfl, rfl, by decide⟩

theorem readBit : Statement (.readBit) :=
  fun _ => ⟨_, rfl, rfl, by decide⟩

theorem writeByte : Statement (.writeByte) :=
  fun _ => ⟨_, rfl, rfl, by decide⟩

theorem readByte : Statement (.readByte) :=
  fun _ => ⟨_, rfl, rfl, by decide⟩

theorem delay : Statement (.delay) :=
  fun _ => ⟨_, rfl, rfl, by decide⟩

theorem smbusBlockWrite : Statement (.smbusBlockWrite) :=
  fun _ => ⟨_, rfl, rfl, by decide⟩

theorem smbusBlockRead : Statement (.smbusBlockRead) :=
  fun _ => ⟨_, rfl, rfl, by decide⟩

theorem readAtOffset : Statement (.readAtOffset) :=
  fun _ => ⟨_, rfl, rfl, by decide⟩

theorem wireAddrWrite (a : BitVec 7) : Statement (.wireAddrWrite a) :=
  fun _ => ⟨_, rfl, rfl, by
    revert a; decide⟩

theorem wireAddrRead (a : BitVec 7) : Statement (.wireAddrRead a) :=
  fun _ => ⟨_, rfl, rfl, by
    revert a; decide⟩

theorem wireCommand (c : Byte) : Statement (.wireCommand c) :=
  fun _ => ⟨_, rfl, rfl, by simp⟩

theorem wireCount (n : BitVec 6) : Statement (.wireCount n) :=
  fun _ => ⟨_, rfl, rfl, by
    revert n; decide⟩

theorem wireOffsetHigh (h : Byte) : Statement (.wireOffsetHigh h) :=
  fun _ => ⟨_, rfl, rfl, by simp⟩

theorem wireOffsetLow (b : Byte) : Statement (.wireOffsetLow b) :=
  fun _ => ⟨_, rfl, rfl, by simp⟩

theorem wireData (d : Byte) : Statement (.wireData d) :=
  fun _ => ⟨_, rfl, rfl, by simp⟩

theorem wireAck : Statement (.wireAck) :=
  fun _ => ⟨_, rfl, rfl, by decide⟩

theorem wireNack : Statement (.wireNack) :=
  fun _ => ⟨_, rfl, rfl, by decide⟩

end Sys2Proof.Laws.TableRow
end

