-- ==== Sys2Proof/Laws/Sequencer.lean ====
section
/-! SUPPORT. What the sequencer (10_state.md R30) does with each listing, step by step: `X_runs` says that
from step 1 of the listing of X, on operands `o` and under the stacked entries `rest`, its steps lead
to the state that the operation X itself gives, with the result handed to the caller or stored. -/

namespace Sys2Proof.Machine

open Sys2Proof

/-- Some steps of the sequencer, none of them from an Idle state, lead from `s` to `t`. -/
def Runs (s t : State) : Prop :=
  ∃ n, (∀ m, m < n → (tick^[m] s).seq ≠ []) ∧ tick^[n] s = t

namespace Runs

variable {s t u : State}

/-- No step leads from a state to itself. -/
theorem refl (s : State) : Runs s s := ⟨0, fun _ h => absurd h (Nat.not_lt_zero _), rfl⟩

/-- One more step before. -/
theorem head (hs : s.seq ≠ []) (h : Runs (tick s) t) : Runs s t := by
  obtain ⟨n, hn, rfl⟩ := h
  refine ⟨n + 1, fun m hm => ?_, rfl⟩
  cases m with
  | zero => exact hs
  | succ m => exact hn m (by omega)

/-- One run after another. -/
theorem trans (h : Runs s t) (h' : Runs t u) : Runs s u := by
  obtain ⟨n, hn, rfl⟩ := h
  obtain ⟨k, hk, rfl⟩ := h'
  refine ⟨k + n, fun m hm => ?_, Function.iterate_add_apply tick k n s⟩
  by_cases hmn : m < n
  · exact hn m hmn
  · obtain ⟨j, rfl⟩ : ∃ j, m = j + n := ⟨m - n, by omega⟩
    rw [Function.iterate_add_apply]
    exact hk j (by omega)

end Runs

/-- With SEQ at `q`. -/
def State.withSeq (s : State) (q : List SeqFrame) : State := { s with seq := q }

/-- With PHASE at `p`. -/
def State.withPhase (s : State) (p : Option BusPhase) : State := { s with phase := p }

/-- Where SEQ stands matters to an event only through T being open. -/
theorem emit_withSeq_of_open {s : State} {q : List SeqFrame} (h : (s.withSeq q).traceOpen = s.traceOpen)
    (e : Event) : emit e (s.withSeq q) = (emit e s).withSeq q := by
  have h1 : (s.withSeq q).record [e] = s.record [e] := by
    rw [State.record, State.record, h]
    rfl
  simp only [emit, h1]
  rfl

theorem memWrite_withSeq {s : State} {q : List SeqFrame} (h : (s.withSeq q).traceOpen = s.traceOpen)
    (l : Line) (v : PadWord) : memWrite l v (s.withSeq q) = (memWrite l v s).withSeq q :=
  emit_withSeq_of_open (s := { s with pads := s.pads.set l (storedWord (s.pad l) v) }) h (.wr l v)

theorem modify_withSeq {s : State} {q : List SeqFrame} (h : (s.withSeq q).traceOpen = s.traceOpen)
    (l : Line) (f : PadWord → PadWord) : modify l f (s.withSeq q) = (modify l f s).withSeq q := by
  have h1 := emit_withSeq_of_open h (.rd l (s.readWord l))
  have h2 : modify l f (s.withSeq q)
      = memWrite l (f (s.readWord l)) (emit (.rd l (s.readWord l)) (s.withSeq q)) := rfl
  rw [h2, h1]
  exact memWrite_withSeq (s := emit (.rd l (s.readWord l)) s) h l _

theorem settlePhase_withSeq (s : State) (q : List SeqFrame) :
    settlePhase (s.withSeq q) = (settlePhase s).withSeq q := by
  rcases hp : s.phase with _ | p
  · simp only [settlePhase, hp, State.withSeq]
  · have hh : phaseHolds p (s.withSeq q) = phaseHolds p s := by cases p <;> rfl
    have hs : (s.withSeq q).phase = some p := hp
    simp only [settlePhase, hp, hs, hh]
    split <;> rfl

/-- Settling PHASE changes PHASE only. -/
theorem settlePhase_eq (s : State) : ∃ p, settlePhase s = s.withPhase p := by
  unfold settlePhase
  split
  · exact ⟨s.phase, rfl⟩
  · split
    · exact ⟨s.phase, rfl⟩
    · exact ⟨_, rfl⟩

theorem open_of_live {s : State} (h : s.life = .live) (q : List SeqFrame) :
    (s.withSeq q).traceOpen = s.traceOpen := by
  rw [State.traceOpen_of_live h, State.traceOpen_of_live (s := s.withSeq q) h]

theorem emit_withSeq (e : Event) (s : State) (q : List SeqFrame) (h : s.life = .live) :
    emit e (s.withSeq q) = (emit e s).withSeq q := emit_withSeq_of_open (open_of_live h q) e

theorem enableTx_withSeq (l : Line) (f : Bool) (s : State) (q : List SeqFrame) (h : s.life = .live) :
    enableTx l f (s.withSeq q) = (enableTx l f s).withSeq q := modify_withSeq (open_of_live h q) l _

theorem enableTx_withPhase (l : Line) (f : Bool) (s : State) (p : Option BusPhase) :
    enableTx l f (s.withPhase p) = (enableTx l f s).withPhase p := rfl

/-- A step that calls, not the first of its listing. -/
theorem tick_call {s : State} {f c : SeqFrame} {rest : List SeqFrame} (hs : s.seq = f :: rest)
    (hc : callOf f s.saved = some c) (hf : f.nextStep ≠ 1) : tick s = s.withSeq (c :: f :: rest) := by
  simp only [tick, hs, hc, callStep, if_neg hf]
  rfl

/-- A first step that calls. -/
theorem tick_begin {s : State} {f c : SeqFrame} {rest : List SeqFrame} (hs : s.seq = f :: rest)
    (hc : callOf f s.saved = some c) (hf : f.nextStep = 1) :
    tick s = (beginListing f s).withSeq (c :: { f with entry := s.phase } :: rest) := by
  simp only [tick, hs, hc, callStep, if_pos hf]
  rfl

/-- A step that calls nothing. -/
theorem tick_local {s : State} {f : SeqFrame} {rest : List SeqFrame} (hs : s.seq = f :: rest)
    (hc : callOf f s.saved = none) : tick s = localStep f rest s := by
  simp only [tick, hs, hc]

/-- Where a listing's end leads: its caller resumes with the result, or SEQ is Idle and the result stands in
its register. No word of a capture is among the results here. -/
def ended (x : Result) (rest : List SeqFrame) (s : State) : State :=
  match rest with
  | [] => { s with seq := [], regs := storeResult x s.regs }
  | g :: below => { s with seq := resume x g :: below, regs := storeFlag x s.regs }

/-- Without a capture's word, a listing's end leads to `ended`. -/
theorem returnResult_eq_ended (x : Result) (f : SeqFrame) (rest : List SeqFrame) (s : State)
    (hx : ∀ w, x ≠ .word w) : returnResult x f rest s = ended x rest s := by
  cases rest <;> cases x <;> first | rfl | exact absurd rfl (hx _)

/-- What the leaves of a start, a stop and a bit cell do (R110 to R114). -/
def leafEffect (c : SeqFrame) (s : State) : Result × State :=
  match c.operation with
  | .rel => (.nothing, rel c.line s)
  | .low => (.nothing, low c.line s)
  | .drive => (.nothing, drive c.operands.bit s)
  | .smp => (.level (smp s).1, (smp s).2)
  | _ => (.nothing, delay s)

/-- A leaf of a cell runs in one step and its caller resumes. -/
theorem tick_leaf (c g : SeqFrame) (rest : List SeqFrame) (s : State) (hl : s.life = .live)
    (hc : c.operation = .rel ∨ c.operation = .low ∨ c.operation = .drive ∨ c.operation = .smp
      ∨ c.operation = .delay) :
    tick (s.withSeq (c :: g :: rest))
      = (leafEffect c s).2.withSeq (resume (leafEffect c s).1 g :: rest) := by
  have hn : callOf c s.saved = none := by
    rcases hc with h | h | h | h | h <;> simp [callOf, h]
  rw [tick_local (s := s.withSeq (c :: g :: rest)) rfl hn]
  rcases hc with h | h | h | h | h
  · simp only [localStep, leafEffect, h]
    rw [rel, enableTx_withSeq _ _ _ _ hl]
    rfl
  · simp only [localStep, leafEffect, h]
    rw [low, enableTx_withSeq _ _ _ _ hl]
    rfl
  · simp only [localStep, leafEffect, h, drive, rel, low]
    cases c.operands.bit
    · simp only [Bool.false_eq_true, if_false]
      rw [enableTx_withSeq _ _ _ _ hl]
      rfl
    · simp only [if_true]
      rw [enableTx_withSeq _ _ _ _ hl]
      rfl
  · simp only [localStep, leafEffect, h, smp, getRx, getConfig, memRead]
    rw [emit_withSeq _ _ _ hl]
    rfl
  · simp only [localStep, leafEffect, h, delay]
    rw [emit_withSeq _ _ _ hl]
    rfl

theorem leafEffect_life (c : SeqFrame) (s : State) : (leafEffect c s).2.life = s.life := by
  unfold leafEffect
  split <;> try rfl
  unfold drive
  split <;> rfl

/-- An entry of SEQ in a start, a stop or a bit cell. -/
def cellFrame (op : Operation) (o : Registers) (b : Bool) (e : Option BusPhase) (k : Nat) : SeqFrame :=
  { SeqFrame.start op .sda o with nextStep := k, b := b, entry := e }

/-- The listings of the cells. -/
abbrev Operation.isCell (op : Operation) : Prop :=
  op = .start ∨ op = .stop ∨ op = .writeBit ∨ op = .readBit

/-- The pseudo-operations the cells call (R87). -/
abbrev Operation.isLeaf (op : Operation) : Prop :=
  op = .rel ∨ op = .low ∨ op = .drive ∨ op = .smp ∨ op = .delay

theorem rel_isLeaf {l : Line} {o : Registers} : (SeqFrame.start .rel l o).operation.isLeaf := .inl rfl
theorem low_isLeaf {l : Line} {o : Registers} : (SeqFrame.start .low l o).operation.isLeaf :=
  .inr (.inl rfl)
theorem drive_isLeaf {l : Line} {o : Registers} : (SeqFrame.start .drive l o).operation.isLeaf :=
  .inr (.inr (.inl rfl))
theorem smp_isLeaf {l : Line} {o : Registers} : (SeqFrame.start .smp l o).operation.isLeaf :=
  .inr (.inr (.inr (.inl rfl)))
theorem delay_isLeaf {l : Line} {o : Registers} : (SeqFrame.start .delay l o).operation.isLeaf :=
  .inr (.inr (.inr (.inr rfl)))

theorem callOf_cellFrame {op : Operation} (hop : op.isCell) (o : Registers) (b : Bool)
    (e : Option BusPhase) (k : Nat) (saved : PerLine PadWord) :
    callOf (cellFrame op o b e k) saved = (straightCalls (SeqFrame.start op .sda o) saved)[k - 1]? := by
  rcases hop with rfl | rfl | rfl | rfl <;> rfl

/-- A leaf of a cell is called and runs: two steps, and the cell goes on to its next step. -/
theorem runs_leaf {op : Operation} (hop : op.isCell) (c : SeqFrame) (hc : c.operation.isLeaf)
    {o : Registers} {b : Bool} {e : Option BusPhase} {k : Nat} {rest : List SeqFrame} {s t : State}
    (hl : s.life = .live) (hk : k ≠ 1) (hs : op ≠ .readBit ∨ k ≠ 5)
    (hcall : (straightCalls (SeqFrame.start op .sda o) s.saved)[k - 1]? = some c)
    (h : Runs ((leafEffect c s).2.withSeq (cellFrame op o b e (k + 1) :: rest)) t) :
    Runs (s.withSeq (cellFrame op o b e k :: rest)) t := by
  have h1 : tick (s.withSeq (cellFrame op o b e k :: rest))
      = s.withSeq (c :: cellFrame op o b e k :: rest) :=
    tick_call rfl ((callOf_cellFrame hop o b e k s.saved).trans hcall) hk
  have hr : ∀ x, resume x (cellFrame op o b e k) = cellFrame op o b e (k + 1) := by
    intro x
    rcases hop with rfl | rfl | rfl | rfl
    · rfl
    · rfl
    · rfl
    · have : k ≠ 5 := by simpa using hs
      show (if k = 5 then _ else _) = _
      rw [if_neg this]
      rfl
  refine Runs.head (by simp [State.withSeq]) ?_
  rw [h1]
  refine Runs.head (by simp [State.withSeq]) ?_
  rw [tick_leaf c _ rest s hl hc, hr]
  exact h

/-- The first leaf of a cell: the cell begins, and PHASE is undefined (R34). -/
theorem runs_firstLeaf {op : Operation} (hop : op.isCell) (c : SeqFrame) (hc : c.operation.isLeaf)
    {o : Registers} {rest : List SeqFrame} {s t : State} (hl : s.life = .live)
    (hcall : (straightCalls (SeqFrame.start op .sda o) s.saved)[0]? = some c)
    (h : Runs ((leafEffect c (s.withPhase (some .undefined))).2.withSeq
      (cellFrame op o false s.phase 2 :: rest)) t) :
    Runs (s.withSeq (SeqFrame.start op .sda o :: rest)) t := by
  have h0 : callOf (SeqFrame.start op .sda o) s.saved = some c := by
    rcases hop with rfl | rfl | rfl | rfl <;> exact hcall
  have h1 : tick (s.withSeq (SeqFrame.start op .sda o :: rest))
      = (s.withPhase (some .undefined)).withSeq (c :: cellFrame op o false s.phase 1 :: rest) := by
    rw [tick_begin (s := s.withSeq (SeqFrame.start op .sda o :: rest)) rfl h0 rfl]
    rcases hop with rfl | rfl | rfl | rfl <;> rfl
  have hr : ∀ x, resume x (cellFrame op o false s.phase 1) = cellFrame op o false s.phase 2 := by
    intro x
    rcases hop with rfl | rfl | rfl | rfl <;> rfl
  refine Runs.head (by simp [State.withSeq]) ?_
  rw [h1]
  refine Runs.head (by simp [State.withSeq]) ?_
  rw [tick_leaf c _ rest (s.withPhase (some .undefined)) hl hc, hr]
  exact h

/-- The last step of a listing. -/
theorem runs_last {f : SeqFrame} {rest : List SeqFrame} {s t : State}
    (hcall : callOf f s.saved = none) (h : localStep f rest (s.withSeq (f :: rest)) = t) :
    Runs (s.withSeq (f :: rest)) t := by
  refine Runs.head (by simp [State.withSeq]) ?_
  rw [tick_local (s := s.withSeq (f :: rest)) rfl hcall, h]
  exact Runs.refl t

@[simp] theorem leafEffect_rel (l : Line) (o : Registers) (s : State) :
    leafEffect (.start .rel l o) s = (.nothing, rel l s) := rfl
@[simp] theorem leafEffect_low (l : Line) (o : Registers) (s : State) :
    leafEffect (.start .low l o) s = (.nothing, low l s) := rfl
@[simp] theorem leafEffect_delay (l : Line) (o : Registers) (s : State) :
    leafEffect (.start .delay l o) s = (.nothing, delay s) := rfl
@[simp] theorem leafEffect_drive (l : Line) (o : Registers) (s : State) :
    leafEffect (.start .drive l o) s = (.nothing, drive o.bit s) := rfl
@[simp] theorem leafEffect_smp (l : Line) (o : Registers) (s : State) :
    leafEffect (.start .smp l o) s = (.level (smp s).1, (smp s).2) := rfl
@[simp] theorem rel_withPhase (l : Line) (s : State) (p : Option BusPhase) :
    rel l (s.withPhase p) = (rel l s).withPhase p := rfl
@[simp] theorem low_withPhase (l : Line) (s : State) (p : Option BusPhase) :
    low l (s.withPhase p) = (low l s).withPhase p := rfl
@[simp] theorem delay_withPhase (s : State) (p : Option BusPhase) :
    delay (s.withPhase p) = (delay s).withPhase p := rfl
@[simp] theorem drive_withPhase (b : Bool) (s : State) (p : Option BusPhase) :
    drive b (s.withPhase p) = (drive b s).withPhase p := by cases b <;> rfl
@[simp] theorem smp_withPhase (s : State) (p : Option BusPhase) :
    smp (s.withPhase p) = ((smp s).1, (smp s).2.withPhase p) := rfl

theorem localStep_start (o : Registers) (e : Option BusPhase) (k : Nat) (rest : List SeqFrame)
    (s : State) (p : Option BusPhase) (q : List SeqFrame) :
    localStep (cellFrame .start o false e k) rest ((s.withPhase p).withSeq q)
      = ended .nothing rest (s.withPhase (some .inTransaction)) := by cases rest <;> rfl

theorem localStep_stop (o : Registers) (e : Option BusPhase) (k : Nat) (rest : List SeqFrame)
    (s : State) (p : Option BusPhase) (q : List SeqFrame) :
    localStep (cellFrame .stop o false e k) rest ((s.withPhase p).withSeq q)
      = ended .nothing rest (s.withPhase (some .busIdle)) := by cases rest <;> rfl

theorem localStep_writeBit (o : Registers) (e : Option BusPhase) (k : Nat) (rest : List SeqFrame)
    (s : State) (p : Option BusPhase) (q : List SeqFrame) :
    localStep (cellFrame .writeBit o false e k) rest ((s.withPhase p).withSeq q)
      = ended .nothing rest (s.withPhase (phaseAfterCell e)) := by cases rest <;> rfl

theorem localStep_readBit (o : Registers) (b : Bool) (e : Option BusPhase) (k : Nat)
    (rest : List SeqFrame) (s : State) (p : Option BusPhase) (q : List SeqFrame) :
    localStep (cellFrame .readBit o b e k) rest ((s.withPhase p).withSeq q)
      = ended (.level b) rest (s.withPhase (phaseAfterCell e)) := by cases rest <;> rfl

/-- The listing of `start` (R117). -/
theorem start_runs (o : Registers) (rest : List SeqFrame) (s : State) (hl : s.life = .live) :
    Runs (s.withSeq (SeqFrame.start .start .sda o :: rest)) (ended .nothing rest (start s)) := by
  have hop : Operation.isCell .start := by decide
  refine runs_firstLeaf hop (.start .rel .sda o) rel_isLeaf hl rfl ?_
  refine runs_leaf hop (.start .rel .scl o) rel_isLeaf hl (by decide) (.inl (by decide)) rfl ?_
  refine runs_leaf hop (.start .delay .sda o) delay_isLeaf hl (by decide) (.inl (by decide)) rfl ?_
  refine runs_leaf hop (.start .low .sda o) low_isLeaf hl (by decide) (.inl (by decide)) rfl ?_
  refine runs_leaf hop (.start .delay .sda o) delay_isLeaf hl (by decide) (.inl (by decide)) rfl ?_
  refine runs_leaf hop (.start .low .scl o) low_isLeaf hl (by decide) (.inl (by decide)) rfl ?_
  refine runs_leaf hop (.start .delay .sda o) delay_isLeaf hl (by decide) (.inl (by decide)) rfl ?_
  simp only [leafEffect_rel, leafEffect_low, leafEffect_delay, rel_withPhase, low_withPhase, delay_withPhase]
  exact runs_last rfl (localStep_start o _ _ rest _ _ _)

/-- The listing of `stop` (R118). -/
theorem stop_runs (o : Registers) (rest : List SeqFrame) (s : State) (hl : s.life = .live) :
    Runs (s.withSeq (SeqFrame.start .stop .sda o :: rest)) (ended .nothing rest (stop s)) := by
  have hop : Operation.isCell .stop := by decide
  refine runs_firstLeaf hop (.start .low .sda o) low_isLeaf hl rfl ?_
  refine runs_leaf hop (.start .delay .sda o) delay_isLeaf hl (by decide) (.inl (by decide)) rfl ?_
  refine runs_leaf hop (.start .rel .scl o) rel_isLeaf hl (by decide) (.inl (by decide)) rfl ?_
  refine runs_leaf hop (.start .delay .sda o) delay_isLeaf hl (by decide) (.inl (by decide)) rfl ?_
  refine runs_leaf hop (.start .rel .sda o) rel_isLeaf hl (by decide) (.inl (by decide)) rfl ?_
  refine runs_leaf hop (.start .delay .sda o) delay_isLeaf hl (by decide) (.inl (by decide)) rfl ?_
  simp only [leafEffect_rel, leafEffect_low, leafEffect_delay, rel_withPhase, low_withPhase, delay_withPhase]
  exact runs_last rfl (localStep_stop o _ _ rest _ _ _)

theorem life_rel (l : Line) (s : State) : (rel l s).life = s.life := rfl
theorem life_low (l : Line) (s : State) : (low l s).life = s.life := rfl
theorem life_delay (s : State) : (delay s).life = s.life := rfl
theorem life_drive (b : Bool) (s : State) : (drive b s).life = s.life := by cases b <;> rfl

/-- The listing of `writeBit` (R119). -/
theorem writeBit_runs (o : Registers) (b : Bool) (rest : List SeqFrame) (s : State)
    (hl : s.life = .live) :
    Runs (s.withSeq (writeBitCall o b :: rest)) (ended .nothing rest (writeBit b s)) := by
  have hop : Operation.isCell .writeBit := by decide
  have h1 : (drive b s).life = .live := (life_drive b s).trans hl
  have hb : ({ o with bit := b } : Registers).bit = b := rfl
  rw [writeBitCall]
  generalize { o with bit := b } = o' at *
  refine runs_firstLeaf hop (.start .drive .sda o') drive_isLeaf hl rfl ?_
  rw [leafEffect_drive, hb, drive_withPhase]
  refine runs_leaf hop (.start .delay .sda o') delay_isLeaf h1 (by decide) (.inl (by decide)) rfl ?_
  refine runs_leaf hop (.start .rel .scl o') rel_isLeaf h1 (by decide) (.inl (by decide)) rfl ?_
  refine runs_leaf hop (.start .delay .sda o') delay_isLeaf h1 (by decide) (.inl (by decide)) rfl ?_
  refine runs_leaf hop (.start .low .scl o') low_isLeaf h1 (by decide) (.inl (by decide)) rfl ?_
  simp only [leafEffect_rel, leafEffect_low, leafEffect_delay, rel_withPhase, low_withPhase, delay_withPhase]
  exact runs_last rfl (localStep_writeBit o' _ _ rest _ _ _)

theorem runs_sample {o : Registers} {b : Bool} {e : Option BusPhase} {rest : List SeqFrame} {s t : State}
    (hl : s.life = .live)
    (h : Runs ((smp s).2.withSeq (cellFrame .readBit o (smp s).1 e 6 :: rest)) t) :
    Runs (s.withSeq (cellFrame .readBit o b e 5 :: rest)) t := by
  have h1 : tick (s.withSeq (cellFrame .readBit o b e 5 :: rest))
      = s.withSeq (.start .smp .sda o :: cellFrame .readBit o b e 5 :: rest) :=
    tick_call rfl rfl (by simp [cellFrame])
  refine Runs.head (by simp [State.withSeq]) ?_
  rw [h1]
  refine Runs.head (by simp [State.withSeq]) ?_
  rw [tick_leaf _ _ rest s hl smp_isLeaf]
  exact h

/-- The listing of `readBit` (R120). -/
theorem readBit_runs (o : Registers) (rest : List SeqFrame) (s : State) (hl : s.life = .live) :
    Runs (s.withSeq (SeqFrame.start .readBit .sda o :: rest))
      (ended (.level (readBit s).1) rest (readBit s).2) := by
  have hop : Operation.isCell .readBit := by decide
  refine runs_firstLeaf hop (.start .rel .sda o) rel_isLeaf hl rfl ?_
  refine runs_leaf hop (.start .delay .sda o) delay_isLeaf hl (by decide) (.inr (by decide)) rfl ?_
  refine runs_leaf hop (.start .rel .scl o) rel_isLeaf hl (by decide) (.inr (by decide)) rfl ?_
  refine runs_leaf hop (.start .delay .sda o) delay_isLeaf hl (by decide) (.inr (by decide)) rfl ?_
  refine runs_sample hl ?_
  refine runs_leaf hop (.start .low .scl o) low_isLeaf hl (by decide) (.inr (by decide)) rfl ?_
  simp only [leafEffect_rel, leafEffect_low, leafEffect_delay, rel_withPhase, low_withPhase,
    delay_withPhase, smp_withPhase]
  exact runs_last rfl (localStep_readBit o _ _ _ rest _ _ _)

theorem life_writeBit (b : Bool) (s : State) : (writeBit b s).life = s.life := (writeBit_performed b s).life
theorem life_readBit (s : State) : (readBit s).2.life = s.life := (readBit_performed s).life
theorem life_start (s : State) : (start s).life = s.life := (start_performed s).life

/-- The entry of `writeByte` in SEQ. -/
def writeByteFrame (o : Registers) (i : BitVec 3) (b : Bool) (k : Nat) (e : Option BusPhase) : SeqFrame :=
  { SeqFrame.start .writeByte .sda o with nextStep := k, i := i, b := b, entry := e }

/-- One bit of the loop of `writeByte`. -/
theorem runs_writtenBit {o : Registers} {i : BitVec 3} {e : Option BusPhase} {rest : List SeqFrame}
    {s t : State} (hl : s.life = .live)
    (h : Runs ((writeBit (selectBit o.byte i.toNat) s).withSeq
      (nextBit (writeByteFrame o i false 2 e) :: rest)) t) :
    Runs (s.withSeq (writeByteFrame o i false 2 e :: rest)) t := by
  have h1 : tick (s.withSeq (writeByteFrame o i false 2 e :: rest))
      = s.withSeq (writeBitCall o (selectBit o.byte i.toNat) :: writeByteFrame o i false 2 e :: rest) :=
    tick_call rfl rfl (by simp [writeByteFrame])
  refine Runs.head (by simp [State.withSeq]) ?_
  rw [h1]
  exact (writeBit_runs _ _ _ _ hl).trans h

theorem nextBit_writeByteFrame (o : Registers) (i : BitVec 3) (e : Option BusPhase) (h : i ≠ 0) :
    nextBit (writeByteFrame o i false 2 e) = writeByteFrame o (i - 1) false 2 e := by
  exact if_neg (show ¬ (writeByteFrame o i false 2 e).i = 0 from h)

/-- The bits `n` down to 0. -/
def bitsFrom (n : Nat) : List Nat :=
  match n with
  | 0 => [0]
  | k + 1 => (k + 1) :: bitsFrom k

/-- The loop of `writeByte` from bit `n` on. -/
theorem writtenBits_run (n : Nat) (hn : n < 8) (o : Registers) (e : Option BusPhase)
    (rest : List SeqFrame) (s : State) (hl : s.life = .live) :
    Runs (s.withSeq (writeByteFrame o (BitVec.ofNat 3 n) false 2 e :: rest))
      (((bitsFrom n).foldl (fun t i => writeBit (selectBit o.byte i) t) s).withSeq
        (writeByteFrame o 0 false 3 e :: rest)) := by
  induction n generalizing s with
  | zero =>
    refine runs_writtenBit hl ?_
    exact Runs.refl _
  | succ k ih =>
    refine runs_writtenBit hl ?_
    have hi : (BitVec.ofNat 3 (k + 1)).toNat = k + 1 := by simp; omega
    have hne : BitVec.ofNat 3 (k + 1) ≠ 0 := by
      intro h
      have := congrArg BitVec.toNat h
      simp at this
      omega
    have hp : BitVec.ofNat 3 (k + 1) - 1 = BitVec.ofNat 3 k := by
      apply BitVec.eq_of_toNat_eq
      simp
      omega
    rw [nextBit_writeByteFrame _ _ _ hne, hp, hi]
    exact ih (by omega) (writeBit (selectBit o.byte (k + 1)) s) ((life_writeBit _ s).trans hl)

/-- `writeByte` from its loop on. -/
theorem writeByte_loop_runs (o : Registers) (e : Option BusPhase) (rest : List SeqFrame) (s : State)
    (hl : s.life = .live) :
    Runs (s.withSeq (writeByteFrame o 7 false 2 e :: rest))
      (ended (.acked (writeByte o.byte false s).1) rest (writeByte o.byte false s).2) := by
  refine (writtenBits_run 7 (by decide) o e rest s hl).trans ?_
  have hw : ∀ u, writeBits o.byte s = u → Runs (u.withSeq (writeByteFrame o 0 false 3 e :: rest))
      (ended (.acked (ackedFlag (readBit u).1)) rest
        { (readBit u).2 with regs := { (readBit u).2.regs with acked := ackedFlag (readBit u).1 } }) := by
    intro u hu
    have hlu : u.life = .live := by rw [← hu, (writeBits_performed o.byte s).life, hl]
    refine Runs.head (by simp [State.withSeq]) ?_
    rw [tick_call (s := u.withSeq (writeByteFrame o 0 false 3 e :: rest))
      (c := .start .readBit .sda o) rfl rfl (by simp [writeByteFrame])]
    refine (readBit_runs o (writeByteFrame o 0 false 3 e :: rest) u hlu).trans ?_
    have he : ended (.level (readBit u).1) (writeByteFrame o 0 false 3 e :: rest) (readBit u).2
        = (readBit u).2.withSeq (writeByteFrame o 0 (readBit u).1 4 e :: rest) := rfl
    rw [he]
    exact runs_last rfl (by cases rest <;> rfl)
  exact hw _ rfl

/-- `writeByte(d, issueStart)` (R121). -/
theorem writeByte_runs (o : Registers) (d : Byte) (f : Bool) (rest : List SeqFrame) (s : State)
    (hl : s.life = .live) :
    Runs (s.withSeq (writeByteCall o d f :: rest))
      (ended (.acked (writeByte d f s).1) rest (writeByte d f s).2) := by
  have hd : ({ o with byte := d, flag := f } : Registers).byte = d := rfl
  have hf : ({ o with byte := d, flag := f } : Registers).flag = f := rfl
  rw [writeByteCall]
  generalize { o with byte := d, flag := f } = o' at *
  subst hd
  refine Runs.head (by simp [State.withSeq]) ?_
  cases f
  · have h1 : tick (s.withSeq (SeqFrame.start .writeByte .sda o' :: rest))
        = s.withSeq (writeByteFrame o' 7 false 2 none :: rest) := by
      refine (tick_local rfl ?_).trans rfl
      show (if o'.flag = true then _ else _) = none
      rw [hf]
      rfl
    rw [h1]
    exact writeByte_loop_runs o' none rest s hl
  · have h1 : tick (s.withSeq (SeqFrame.start .writeByte .sda o' :: rest))
        = s.withSeq (.start .start .sda o' :: writeByteFrame o' 7 false 1 s.phase :: rest) := by
      refine (tick_begin (c := .start .start .sda o') rfl ?_ rfl).trans rfl
      show (if o'.flag = true then _ else _) = _
      rw [hf]
      rfl
    rw [h1]
    refine (start_runs o' _ s hl).trans ?_
    exact writeByte_loop_runs o' s.phase rest (start s) ((life_start s).trans hl)

/-- The entry of `readByte` in SEQ. -/
def readByteFrame (o : Registers) (i : BitVec 3) (v : Byte) (k : Nat) : SeqFrame :=
  { SeqFrame.start .readByte .sda o with nextStep := k, i := i, v := v }

/-- One bit of the loop of `readByte`. -/
theorem runs_readBit {o : Registers} {i : BitVec 3} {v : Byte} {rest : List SeqFrame}
    {s t : State} (hl : s.life = .live)
    (h : Runs ((readBit s).2.withSeq
      (nextBit (readByteFrame o i (assembleBit v i.toNat (readBit s).1) 2) :: rest)) t) :
    Runs (s.withSeq (readByteFrame o i v 2 :: rest)) t := by
  have h1 : tick (s.withSeq (readByteFrame o i v 2 :: rest))
      = s.withSeq (.start .readBit .sda o :: readByteFrame o i v 2 :: rest) :=
    tick_call rfl rfl (by simp [readByteFrame])
  refine Runs.head (by simp [State.withSeq]) ?_
  rw [h1]
  exact (readBit_runs _ _ _ hl).trans h

/-- The loop of `readByte` from bit `n` on. -/
theorem readBits_run (n : Nat) (hn : n < 8) (o : Registers) (v : Byte)
    (rest : List SeqFrame) (s : State) (hl : s.life = .live) :
    Runs (s.withSeq (readByteFrame o (BitVec.ofNat 3 n) v 2 :: rest))
      ((readBits (bitsFrom n) v s).2.withSeq
        (readByteFrame o 0 (readBits (bitsFrom n) v s).1 3 :: rest)) := by
  induction n generalizing s v with
  | zero =>
    refine runs_readBit hl ?_
    exact Runs.refl _
  | succ k ih =>
    refine runs_readBit hl ?_
    have hi : (BitVec.ofNat 3 (k + 1)).toNat = k + 1 := by simp; omega
    have hne : BitVec.ofNat 3 (k + 1) ≠ 0 := by
      intro h
      have := congrArg BitVec.toNat h
      simp at this
      omega
    have hp : BitVec.ofNat 3 (k + 1) - 1 = BitVec.ofNat 3 k := by
      apply BitVec.eq_of_toNat_eq
      simp
      omega
    have hb : ∀ w, nextBit (readByteFrame o (BitVec.ofNat 3 (k + 1)) w 2)
        = readByteFrame o (BitVec.ofNat 3 (k + 1) - 1) w 2 := fun w =>
      if_neg (show ¬ (readByteFrame o (BitVec.ofNat 3 (k + 1)) w 2).i = 0 from hne)
    rw [hb, hp, hi]
    exact ih (by omega) _ _ ((life_readBit s).trans hl)

/-- `readByte(sendAck)` (R122). -/
theorem readByte_runs (o : Registers) (f : Bool) (rest : List SeqFrame) (s : State)
    (hl : s.life = .live) :
    Runs (s.withSeq (readByteCall o f :: rest))
      (ended (.byte (readByte f s).1) rest (readByte f s).2) := by
  have hf : ({ o with flag := f } : Registers).flag = f := rfl
  rw [readByteCall]
  generalize { o with flag := f } = o' at *
  subst hf
  refine Runs.head (by simp [State.withSeq]) ?_
  rw [tick_local (s := s.withSeq (SeqFrame.start .readByte .sda o' :: rest)) rfl rfl]
  refine (readBits_run 7 (by decide) o' 0 rest s hl).trans ?_
  have hb : bitsFrom 7 = bitOrder := rfl
  rw [hb, readByte]
  have hu := (readBits_performed bitOrder 0 s (by decide)).life
  generalize readBits bitOrder 0 s = r at *
  refine Runs.head (by simp [State.withSeq]) ?_
  rw [tick_call (s := r.2.withSeq (readByteFrame o' 0 r.1 3 :: rest))
    (c := writeBitCall o' (ackBit o'.flag)) rfl rfl (by simp [readByteFrame])]
  refine (writeBit_runs o' _ (readByteFrame o' 0 r.1 3 :: rest) r.2 (hu.trans hl)).trans ?_
  have he : ended .nothing (readByteFrame o' 0 r.1 3 :: rest) (writeBit (ackBit o'.flag) r.2)
      = (writeBit (ackBit o'.flag) r.2).withSeq (readByteFrame o' 0 r.1 4 :: rest) := rfl
  rw [he]
  exact runs_last rfl (by cases rest <;> rfl)

theorem life_writeByte (d : Byte) (f : Bool) (s : State) : (writeByte d f s).2.life = s.life :=
  (writeByte_performed (d, f) s).1.life
theorem life_readByte (f : Bool) (s : State) : (readByte f s).2.life = s.life :=
  (readByte_performed f s).life

/-- A listing sends a byte and resumes with its acknowledgment. -/
theorem runs_sentByte {f g : SeqFrame} {o : Registers} {d : Byte} {i : Bool} {rest : List SeqFrame}
    {s t : State} (hl : s.life = .live)
    (h1 : tick (s.withSeq (f :: rest)) = s.withSeq (writeByteCall o d i :: g :: rest))
    (h : Runs ((writeByte d i s).2.withSeq (resume (.acked (writeByte d i s).1) g :: rest)) t) :
    Runs (s.withSeq (f :: rest)) t := by
  refine Runs.head (by simp [State.withSeq]) ?_
  rw [h1]
  exact (writeByte_runs o d i (g :: rest) s hl).trans h

/-- A listing reads a byte and resumes with it. -/
theorem runs_gotByte {f g : SeqFrame} {o : Registers} {a : Bool} {rest : List SeqFrame}
    {s t : State} (hl : s.life = .live)
    (h1 : tick (s.withSeq (f :: rest)) = s.withSeq (readByteCall o a :: g :: rest))
    (h : Runs ((readByte a s).2.withSeq (resume (.byte (readByte a s).1) g :: rest)) t) :
    Runs (s.withSeq (f :: rest)) t := by
  refine Runs.head (by simp [State.withSeq]) ?_
  rw [h1]
  exact (readByte_runs o a (g :: rest) s hl).trans h

/-- A header byte: on with the rest of the header if it is acknowledged, to the stop if not (R141, 92 D13). -/
theorem runs_headerByte {f g f1 f6 : SeqFrame} {o : Registers} {h : Byte × Bool}
    {l : List (Byte × Bool)} {rest : List SeqFrame} {K : Bool × State → State}
    {s : State} (hl : s.life = .live)
    (ht : tick (s.withSeq (f :: rest)) = s.withSeq (writeByteCall o h.1 h.2 :: g :: rest))
    (hok : resume (.acked true) g = f1) (hno : resume (.acked false) g = f6)
    (h1 : ∀ u : State, u.life = .live →
      Runs (u.withSeq (f1 :: rest)) (K (sendHeader .shortCircuit l u)))
    (h6 : ∀ u : State, u.life = .live → Runs (u.withSeq (f6 :: rest)) (K (false, u))) :
    Runs (s.withSeq (f :: rest)) (K (sendHeader .shortCircuit (h :: l) s)) := by
  refine runs_sentByte hl ht ?_
  have hlb := (life_writeByte h.1 h.2 s).trans hl
  rw [sendHeader]
  rcases ha : (writeByte h.1 h.2 s).1 with _ | _
  · rw [hno, if_neg (by decide)]
    exact h6 _ hlb
  · rw [hok, if_pos rfl]
    exact h1 _ hlb

/-- The entry of a block transfer in SEQ. -/
def blockFrame (op : Operation) (o : Registers) (m : Nat) (n : Byte) (k : Nat) (cnt : BitVec 6)
    (out : List Byte) (ok : Bool) (e : Option BusPhase) : SeqFrame :=
  { SeqFrame.start op .sda o with nextStep := m, n := n, k := k, cnt := cnt, out := out, ok := ok,
                                  entry := e }

/-- The stop and the return of a block transfer. -/
theorem runs_stopReturn {op : Operation}
    (hop : op = .smbusBlockWrite ∨ op = .smbusBlockRead ∨ op = .readAtOffset)
    {o : Registers} {n : Byte} {k : Nat} {cnt : BitVec 6}
    {out : List Byte} {ok : Bool} {e : Option BusPhase} {rest : List SeqFrame} {s : State}
    (hl : s.life = .live) :
    Runs (s.withSeq (blockFrame op o 6 n k cnt out ok e :: rest))
      (ended (if op = .smbusBlockWrite then .accepted cnt else .bytes out) rest (stop s)) := by
  have h1 : tick (s.withSeq (blockFrame op o 6 n k cnt out ok e :: rest))
      = s.withSeq (.start .stop .sda o :: blockFrame op o 6 n k cnt out ok e :: rest) := by
    rcases hop with rfl | rfl | rfl <;> exact tick_call rfl rfl (by simp [blockFrame])
  refine Runs.head (by simp [State.withSeq]) ?_
  rw [h1]
  refine (stop_runs o _ s hl).trans ?_
  have he : ended .nothing (blockFrame op o 6 n k cnt out ok e :: rest) (stop s)
      = (stop s).withSeq (blockFrame op o 7 n k cnt out ok e :: rest) := by
    rcases hop with rfl | rfl | rfl <;> rfl
  rw [he]
  rcases hop with rfl | rfl | rfl <;> exact runs_last rfl (by cases rest <;> rfl)

theorem life_sendPayload (l : List Byte) (c : BitVec 6) (s : State) :
    (sendPayload l c s).2.life = s.life := by
  induction l generalizing c s with
  | nil => rfl
  | cons d l ih =>
    rw [sendPayload]
    split
    · rw [ih, life_writeByte]
    · exact life_writeByte d false s

/-- The payload loop of `smbusBlockWrite`. -/
theorem sendPayload_runs (o : Registers) (rest : List SeqFrame) (d : Byte) (l : List Byte) (k : Nat)
    (cnt : BitVec 6) (s : State) (hl : s.life = .live) (hd : o.txbuf.drop k = d :: l) :
    ∃ j, Runs (s.withSeq (blockFrame .smbusBlockWrite o 5 0 k cnt [] true none :: rest))
      ((sendPayload (d :: l) cnt s).2.withSeq
        (blockFrame .smbusBlockWrite o 6 0 j (sendPayload (d :: l) cnt s).1 [] true none :: rest)) := by
  have hget : o.txbuf[k]? = some d := by
    have := congrArg (fun l => l[0]?) hd
    simpa using this
  have hdrop : o.txbuf.drop (k + 1) = l := by
    have := congrArg (List.drop 1) hd
    simpa [List.drop_drop, Nat.add_comm] using this
  have h1 : tick (s.withSeq (blockFrame .smbusBlockWrite o 5 0 k cnt [] true none :: rest))
      = s.withSeq (writeByteCall o d false
          :: blockFrame .smbusBlockWrite o 5 0 k cnt [] true none :: rest) := by
    refine tick_call rfl ?_ (by simp [blockFrame])
    show some (writeByteCall o (o.txbuf[k]?.getD 0) false) = _
    rw [hget]
    rfl
  have hlb := (life_writeByte d false s).trans hl
  have hres : ∀ a, resume (.acked a) (blockFrame .smbusBlockWrite o 5 0 k cnt [] true none)
      = if a then loopAt5 o.txbuf.length (blockFrame .smbusBlockWrite o 5 0 (k + 1) (cnt + 1) [] true none)
        else blockFrame .smbusBlockWrite o 6 0 k cnt [] true none := fun a => by cases a <;> rfl
  induction l generalizing d k cnt s with
  | nil =>
    have hlen : ¬ k + 1 < o.txbuf.length := by
      have := congrArg List.length hdrop
      simp at this
      omega
    rcases ha : (writeByte d false s).1 with _ | _
    · refine ⟨k, runs_sentByte hl h1 ?_⟩
      rw [hres, ha]
      simp only [sendPayload, ha]
      exact Runs.refl _
    · refine ⟨k + 1, runs_sentByte hl h1 ?_⟩
      rw [hres, ha]
      simp only [sendPayload, ha, if_true]
      have : loopAt5 o.txbuf.length (blockFrame .smbusBlockWrite o 5 0 (k + 1) (cnt + 1) [] true none)
          = blockFrame .smbusBlockWrite o 6 0 (k + 1) (cnt + 1) [] true none := if_neg hlen
      rw [this]
      exact Runs.refl _
  | cons d' l ih =>
    have hlen : k + 1 < o.txbuf.length := by
      have := congrArg List.length hdrop
      simp at this
      omega
    rcases ha : (writeByte d false s).1 with _ | _
    · refine ⟨k, runs_sentByte hl h1 ?_⟩
      rw [hres, ha]
      simp only [sendPayload, ha]
      exact Runs.refl _
    · have hget' : o.txbuf[k + 1]? = some d' := by
        have := congrArg (fun l => l[0]?) hdrop
        simpa using this
      obtain ⟨j, hj⟩ := ih d' (k + 1) (cnt + 1) (writeByte d false s).2 hlb hdrop hget'
        (by
          have := congrArg (List.drop 1) hdrop
          simpa [List.drop_drop, Nat.add_comm, Nat.add_assoc] using this)
        (by
          refine tick_call rfl ?_ (by simp [blockFrame])
          show some (writeByteCall o (o.txbuf[k + 1]?.getD 0) false) = _
          rw [hget']
          rfl)
        ((life_writeByte _ _ _).trans hlb) (fun a => by cases a <;> rfl)
      refine ⟨j, runs_sentByte hl h1 ?_⟩
      rw [hres, ha]
      have : loopAt5 o.txbuf.length (blockFrame .smbusBlockWrite o 5 0 (k + 1) (cnt + 1) [] true none)
          = blockFrame .smbusBlockWrite o 5 0 (k + 1) (cnt + 1) [] true none := if_pos hlen
      rw [if_pos rfl, this]
      rw [sendPayload, ha, if_pos rfl]
      exact hj

/-- `smbusBlockWrite` (R141). -/
theorem smbusBlockWrite_runs (o : Registers) (rest : List SeqFrame) (s : State) (hl : s.life = .live) :
    Runs (s.withSeq (SeqFrame.start .smbusBlockWrite .sda o :: rest))
      (ended (.accepted (smbusBlockWrite o.addr o.cmd o.txbuf s).1) rest
        (smbusBlockWrite o.addr o.cmd o.txbuf s).2) := by
  by_cases hlen : o.txbuf.length > Config.maxBlock
  · rw [smbusBlockWrite, if_pos hlen]
    refine runs_last rfl ?_
    show (if o.txbuf.length > Config.maxBlock then _ else _) = _
    rw [if_pos hlen]
    cases rest <;> rfl
  · rw [smbusBlockWrite, if_neg hlen]
    have h0 : tick (s.withSeq (SeqFrame.start .smbusBlockWrite .sda o :: rest))
        = s.withSeq (blockFrame .smbusBlockWrite o 2 0 0 0 [] true none :: rest) := by
      refine (tick_local rfl rfl).trans ?_
      show (if o.txbuf.length > Config.maxBlock then _ else _) = _
      rw [if_neg hlen]
      rfl
    refine Runs.head (by simp [State.withSeq]) ?_
    rw [h0]
    clear h0
    have stopAt : ∀ (u : State) (k : Nat) (c : BitVec 6), u.life = .live →
        Runs (u.withSeq (blockFrame .smbusBlockWrite o 6 0 k c [] true none :: rest))
          (ended (.accepted c) rest (stop u)) := fun u k c hu =>
      runs_stopReturn (.inl rfl) hu
    let K : Bool × State → State := fun h =>
      ended (.accepted (if h.1 then sendPayload o.txbuf 0 h.2 else (0, h.2)).1) rest
        (stop (if h.1 then sendPayload o.txbuf 0 h.2 else (0, h.2)).2)
    have h6 : ∀ u : State, u.life = .live →
        Runs (u.withSeq (blockFrame .smbusBlockWrite o 6 0 0 0 [] true none :: rest)) (K (false, u)) :=
      fun u hu => stopAt u 0 0 hu
    have h5 : ∀ u : State, u.life = .live →
        Runs (u.withSeq (loopAt5 o.txbuf.length (blockFrame .smbusBlockWrite o 4 0 0 0 [] true none)
          :: rest)) (K (sendHeader .shortCircuit [] u)) := by
      intro u hu
      show Runs _ (ended (.accepted (sendPayload o.txbuf 0 u).1) rest (stop (sendPayload o.txbuf 0 u).2))
      rcases hb : o.txbuf with _ | ⟨d, l⟩
      · exact stopAt u 0 0 hu
      · have : loopAt5 (d :: l).length (blockFrame .smbusBlockWrite o 4 0 0 0 [] true none)
            = blockFrame .smbusBlockWrite o 5 0 0 0 [] true none := if_pos (Nat.succ_pos _)
        rw [this]
        obtain ⟨j, hj⟩ := sendPayload_runs o rest d l 0 0 u hu (by simpa using hb)
        exact hj.trans (stopAt _ j _ ((life_sendPayload _ _ _).trans hu))
    let B (m : Nat) : SeqFrame := blockFrame .smbusBlockWrite o m 0 0 0 [] true none
    have hB : ∀ m, (B m).nextStep = m := fun m => rfl
    have h4 : ∀ u : State, u.life = .live → Runs (u.withSeq (B 4 :: rest))
        (K (sendHeader .shortCircuit [(countByte o.txbuf.length, false)] u)) := fun u hu =>
      runs_headerByte (g := B 4) (o := o) hu (tick_call rfl rfl (by rw [hB]; decide)) rfl rfl h5 h6
    have h3 : ∀ u : State, u.life = .live → Runs (u.withSeq (B 3 :: rest))
        (K (sendHeader .shortCircuit [(o.cmd, false), (countByte o.txbuf.length, false)] u)) :=
      fun u hu => runs_headerByte (g := B 3) (f1 := B 4) (o := o) hu
        (tick_call rfl rfl (by rw [hB]; decide)) rfl rfl h4 h6
    exact runs_headerByte (K := K) (f := B 2) (g := B 2) (f1 := B 3) (o := o)
      (h := (addrByte o.addr Config.rwWrite, true)) hl
      (tick_call rfl rfl (by rw [hB]; decide)) rfl rfl h3 h6

/-- The read loop of `smbusBlockRead` and `readAtOffset`. -/
theorem readData_runs {op : Operation} {o : Registers} {n : Byte} {e : Option BusPhase} (N : Nat)
    (rest : List SeqFrame)
    (hcall : ∀ k out saved, callOf (blockFrame op o 5 n k 0 out true e) saved
      = some (readByteCall o (decide (k + 1 ≠ N))))
    (hres : ∀ v k out, resume (.byte v) (blockFrame op o 5 n k 0 out true e)
      = loopAt5 N (blockFrame op o 5 n (k + 1) 0 (out ++ [v]) true e))
    (m k : Nat) (out : List Byte) (s : State) (hl : s.life = .live) (hk : k + (m + 1) = N) :
    Runs (s.withSeq (blockFrame op o 5 n k 0 out true e :: rest))
      ((readData (m + 1) out s).2.withSeq
        (blockFrame op o 6 n N 0 (readData (m + 1) out s).1 true e :: rest)) := by
  have hd : decide (k + 1 ≠ N) = decide (m ≠ 0) := decide_eq_decide.mpr (by omega)
  refine runs_gotByte hl (tick_call rfl (hcall k out _) (by simp [blockFrame])) ?_
  rw [hres, hd]
  have hlb := (life_readByte (decide (m ≠ 0)) s).trans hl
  induction m generalizing k out s with
  | zero =>
    have : loopAt5 N (blockFrame op o 5 n (k + 1) 0 (out ++ [(readByte (decide (0 ≠ 0)) s).1]) true e)
        = blockFrame op o 6 n (k + 1) 0 (out ++ [(readByte (decide (0 ≠ 0)) s).1]) true e :=
      if_neg (by show ¬ k + 1 < N; omega)
    obtain rfl : k + 1 = N := by omega
    rw [this]
    exact Runs.refl _
  | succ m ih =>
    have : loopAt5 N (blockFrame op o 5 n (k + 1) 0 (out ++ [(readByte (decide (m + 1 ≠ 0)) s).1]) true e)
        = blockFrame op o 5 n (k + 1) 0 (out ++ [(readByte (decide (m + 1 ≠ 0)) s).1]) true e :=
      if_pos (by show k + 1 < N; omega)
    rw [this, readData]
    have hd' : decide (k + 1 + 1 ≠ N) = decide (m ≠ 0) := decide_eq_decide.mpr (by omega)
    refine runs_gotByte hlb (tick_call rfl (hcall (k + 1) _ _) (by simp [blockFrame])) ?_
    rw [hres, hd']
    exact ih (k + 1) _ _ hlb (by omega) hd' ((life_readByte _ _).trans hlb)

theorem life_readData (n : Nat) (out : List Byte) (s : State) : (readData n out s).2.life = s.life := by
  induction n generalizing out s with
  | zero => rfl
  | succ n ih => rw [readData, ih, life_readByte]

/-- `readAtOffset` (R145). -/
theorem readAtOffset_runs (o : Registers) (rest : List SeqFrame) (s : State) (hl : s.life = .live) :
    Runs (s.withSeq (SeqFrame.start .readAtOffset .sda o :: rest))
      (ended (.bytes (readAtOffset o.addr o.offset o.length s).1) rest
        (readAtOffset o.addr o.offset o.length s).2) := by
  let K : Bool × State → State := fun h =>
    ended (.bytes (if h.1 then readData o.length [] h.2 else ([], h.2)).1) rest
      (stop (if h.1 then readData o.length [] h.2 else ([], h.2)).2)
  let B (m : Nat) (e : Option BusPhase) : SeqFrame := blockFrame .readAtOffset o m 0 0 0 [] true e
  let B6 (e : Option BusPhase) : SeqFrame := blockFrame .readAtOffset o 6 0 0 0 [] false e
  have hB : ∀ m e, (B m e).nextStep = m := fun m e => rfl
  have h6 : ∀ (e : Option BusPhase) (u : State), u.life = .live →
      Runs (u.withSeq (B6 e :: rest)) (K (false, u)) := fun e u hu =>
    runs_stopReturn (.inr (.inr rfl)) hu
  have h5 : ∀ (e : Option BusPhase) (u : State), u.life = .live →
      Runs (u.withSeq (loopAt5 o.length (B 5 e) :: rest)) (K (sendHeader .shortCircuit [] u)) := by
    intro e u hu
    show Runs _ (ended (.bytes (readData o.length [] u).1) rest (stop (readData o.length [] u).2))
    rcases hn : o.length with _ | m
    · exact runs_stopReturn (.inr (.inr rfl)) hu
    · have : loopAt5 (m + 1) (B 5 e) = B 5 e := if_pos (Nat.succ_pos m)
      rw [this]
      exact (readData_runs (m + 1) rest (fun k out saved => by rw [← hn]; rfl)
        (fun v k out => by rw [← hn]; rfl) m 0 [] u hu (by omega)).trans
        (runs_stopReturn (.inr (.inr rfl)) ((life_readData _ _ _).trans hu))
  have h4 : ∀ (e : Option BusPhase) (u : State), u.life = .live → Runs (u.withSeq (B 4 e :: rest))
      (K (sendHeader .shortCircuit [(addrByte o.addr Config.rwRead, true)] u)) := fun e u hu =>
    runs_headerByte (g := B 4 e) (o := o) hu (tick_call rfl rfl (by rw [hB]; decide)) rfl rfl (h5 e) (h6 e)
  have h3 : ∀ (e : Option BusPhase) (u : State), u.life = .live → Runs (u.withSeq (B 3 e :: rest))
      (K (sendHeader .shortCircuit [(offsetLow o.offset, false), (addrByte o.addr Config.rwRead, true)] u)) :=
    fun e u hu => runs_headerByte (g := B 3 e) (f1 := B 4 e) (o := o) hu
      (tick_call rfl rfl (by rw [hB]; decide)) rfl rfl (h4 e) (h6 e)
  have h2 : ∀ (e : Option BusPhase) (u : State), u.life = .live → Runs (u.withSeq (B 2 e :: rest))
      (K (sendHeader .shortCircuit [(offsetHigh o.offset, false), (offsetLow o.offset, false),
        (addrByte o.addr Config.rwRead, true)] u)) :=
    fun e u hu => runs_headerByte (g := B 2 e) (f1 := B 3 e) (o := o) hu
      (tick_call rfl rfl (by rw [hB]; decide)) rfl rfl (h3 e) (h6 e)
  exact runs_headerByte (K := K) (f := SeqFrame.start .readAtOffset .sda o) (g := B 1 s.phase)
    (f1 := B 2 s.phase) (o := o)
    (h := (addrByte o.addr Config.rwWrite, true)) hl
    ((tick_begin (s := s.withSeq (SeqFrame.start .readAtOffset .sda o :: rest)) rfl rfl rfl).trans rfl)
    rfl rfl (h2 s.phase) (h6 s.phase)

/-- `smbusBlockRead` (R143). -/
theorem smbusBlockRead_runs (o : Registers) (rest : List SeqFrame) (s : State) (hl : s.life = .live) :
    Runs (s.withSeq (SeqFrame.start .smbusBlockRead .sda o :: rest))
      (ended (.bytes (smbusBlockRead o.addr o.cmd s).1) rest (smbusBlockRead o.addr o.cmd s).2) := by
  let R : Bool × State → List Byte × State := fun h =>
    if h.1 then readData (readByte true h.2).1.toNat [] (readByte true h.2).2 else ([], h.2)
  let K : Bool × State → State := fun h => ended (.bytes (R h).1) rest (stop (R h).2)
  let B (m : Nat) (n : Byte) (e : Option BusPhase) : SeqFrame :=
    blockFrame .smbusBlockRead o m n 0 0 [] true e
  let B6 (e : Option BusPhase) : SeqFrame := blockFrame .smbusBlockRead o 6 0 0 0 [] false e
  have hB : ∀ m n e, (B m n e).nextStep = m := fun m n e => rfl
  have h6 : ∀ (e : Option BusPhase) (u : State), u.life = .live →
      Runs (u.withSeq (B6 e :: rest)) (K (false, u)) := fun e u hu =>
    runs_stopReturn (.inr (.inl rfl)) hu
  have h5 : ∀ (e : Option BusPhase) (u : State), u.life = .live →
      Runs (u.withSeq (B 4 0 e :: rest)) (K (sendHeader .shortCircuit [] u)) := by
    intro e u hu
    show Runs _ (ended (.bytes (readData (readByte true u).1.toNat [] (readByte true u).2).1) rest
      (stop (readData (readByte true u).1.toNat [] (readByte true u).2).2))
    refine runs_gotByte (g := B 4 0 e) (o := o) (a := true) hu (tick_call rfl rfl (by rw [hB]; decide)) ?_
    have hlb := (life_readByte true u).trans hu
    have hr : resume (.byte (readByte true u).1) (B 4 0 e)
        = loopAt5 (readByte true u).1.toNat (B 4 (readByte true u).1 e) := rfl
    rw [hr]
    generalize readByte true u = r at *
    rcases hn : r.1.toNat with _ | m
    · exact runs_stopReturn (.inr (.inl rfl)) hlb
    · have : loopAt5 (m + 1) (B 4 r.1 e) = B 5 r.1 e := if_pos (Nat.succ_pos m)
      rw [this]
      exact (readData_runs (m + 1) rest (fun k out saved => by rw [← hn]; rfl)
        (fun v k out => by rw [← hn]; rfl) m 0 [] r.2 hlb (by omega)).trans
        (runs_stopReturn (.inr (.inl rfl)) ((life_readData _ _ _).trans hlb))
  have h3 : ∀ (e : Option BusPhase) (u : State), u.life = .live → Runs (u.withSeq (B 3 0 e :: rest))
      (K (sendHeader .shortCircuit [(addrByte o.addr Config.rwRead, true)] u)) := fun e u hu =>
    runs_headerByte (g := B 3 0 e) (o := o) hu (tick_call rfl rfl (by rw [hB]; decide)) rfl rfl (h5 e) (h6 e)
  have h2 : ∀ (e : Option BusPhase) (u : State), u.life = .live → Runs (u.withSeq (B 2 0 e :: rest))
      (K (sendHeader .shortCircuit [(o.cmd, false), (addrByte o.addr Config.rwRead, true)] u)) :=
    fun e u hu => runs_headerByte (g := B 2 0 e) (f1 := B 3 0 e) (o := o) hu
      (tick_call rfl rfl (by rw [hB]; decide)) rfl rfl (h3 e) (h6 e)
  exact runs_headerByte (K := K) (f := SeqFrame.start .smbusBlockRead .sda o) (g := B 1 0 s.phase)
    (f1 := B 2 0 s.phase) (o := o)
    (h := (addrByte o.addr Config.rwWrite, true)) hl
    ((tick_begin (s := s.withSeq (SeqFrame.start .smbusBlockRead .sda o :: rest)) rfl rfl rfl).trans rfl)
    rfl rfl (h2 s.phase) (h6 s.phase)

/-- What the calls of construction and teardown do. -/
def padEffect (c : SeqFrame) (s : State) : State :=
  match c.operation with
  | .getConfig => capture c.line s
  | .setConfig => setConfig c.line c.operands.cfg s
  | .setPadMode => setPadMode c.line c.operands.mode s
  | .enableRx => enableRx c.line c.operands.flag s
  | .enableTx => enableTx c.line c.operands.flag s
  | _ => setTx c.line c.operands.flag s

/-- The entry of `construct` or `teardown` in SEQ. -/
def lifeFrame (op : Operation) (o : Registers) (k : Nat) (e : Option BusPhase) : SeqFrame :=
  { SeqFrame.start op .sda o with nextStep := k, entry := e }

/-- The calls of construction and teardown. -/
abbrev SeqFrame.isPadCall (c : SeqFrame) (op : Operation) : Prop :=
  (c.operation = .getConfig ∧ op = .construct) ∨ c.operation = .setConfig ∨ c.operation = .setPadMode
    ∨ c.operation = .enableRx ∨ c.operation = .enableTx ∨ c.operation = .setTx

theorem tick_padCall {op : Operation} (hop : op = .construct ∨ op = .teardown) (c : SeqFrame)
    (hc : c.isPadCall op) (o : Registers) (k : Nat) (e p : Option BusPhase) (s : State)
    (ho : ∀ q, lifeFrame op o k e ∈ q → (s.withSeq q).traceOpen = s.traceOpen) :
    ∃ p', tick ((s.withPhase p).withSeq [c, lifeFrame op o k e])
      = ((padEffect c s).withPhase p').withSeq [lifeFrame op o (k + 1) e] := by
  have ho1 := ho [c, lifeFrame op o k e] (by simp)
  have hr : ∀ x, resume x (lifeFrame op o k e) = lifeFrame op o (k + 1) e := by
    intro x
    rcases hop with rfl | rfl <;> rfl
  have settle : ∀ u v : State, v = u.withSeq [c, lifeFrame op o k e] → ∃ p',
      returnResult .nothing c [lifeFrame op o k e] (settlePhase v)
        = (u.withPhase p').withSeq [lifeFrame op o (k + 1) e] := by
    rintro u v rfl
    obtain ⟨p', hp'⟩ := settlePhase_eq u
    refine ⟨p', ?_⟩
    rw [settlePhase_withSeq, hp']
    simp only [returnResult, hr]
    rfl
  have hn : callOf c s.saved = none := by
    rcases hc with ⟨h, -⟩ | h | h | h | h | h <;> simp [callOf, h]
  rw [tick_local (s := (s.withPhase p).withSeq [c, lifeFrame op o k e]) rfl hn]
  rcases hc with ⟨h, rfl⟩ | h | h | h | h | h
  · refine ⟨p, ?_⟩
    simp only [localStep, padEffect, h, getConfig, memRead, capture]
    rw [emit_withSeq_of_open (s := s.withPhase p) ho1]
    rfl
  · simp only [localStep, padEffect, h, setConfig]
    obtain ⟨p', hp'⟩ := settle ((memWrite c.line c.operands.cfg s).withPhase p) _
      (memWrite_withSeq (s := s.withPhase p) ho1 c.line c.operands.cfg)
    exact ⟨p', hp'⟩
  · simp only [localStep, padEffect, h, setPadMode]
    obtain ⟨p', hp'⟩ := settle ((setPadMode c.line c.operands.mode s).withPhase p)
      (setPadMode c.line c.operands.mode ((s.withPhase p).withSeq [c, lifeFrame op o k e]))
      (modify_withSeq (s := s.withPhase p) ho1 c.line _)
    exact ⟨p', hp'⟩
  · simp only [localStep, padEffect, h, enableRx]
    obtain ⟨p', hp'⟩ := settle ((enableRx c.line c.operands.flag s).withPhase p)
      (enableRx c.line c.operands.flag ((s.withPhase p).withSeq [c, lifeFrame op o k e]))
      (modify_withSeq (s := s.withPhase p) ho1 c.line _)
    exact ⟨p', hp'⟩
  · simp only [localStep, padEffect, h, enableTx]
    obtain ⟨p', hp'⟩ := settle ((enableTx c.line c.operands.flag s).withPhase p)
      (enableTx c.line c.operands.flag ((s.withPhase p).withSeq [c, lifeFrame op o k e]))
      (modify_withSeq (s := s.withPhase p) ho1 c.line _)
    exact ⟨p', hp'⟩
  · simp only [localStep, padEffect, h, setTx]
    obtain ⟨p', hp'⟩ := settle ((setTx c.line c.operands.flag s).withPhase p)
      (setTx c.line c.operands.flag ((s.withPhase p).withSeq [c, lifeFrame op o k e]))
      (modify_withSeq (s := s.withPhase p) ho1 c.line _)
    exact ⟨p', hp'⟩

theorem padEffect_frame (c : SeqFrame) (s : State) :
    (padEffect c s).life = s.life ∧ (padEffect c s).seq = s.seq ∧
    (c.operation ≠ .getConfig → (padEffect c s).saved = s.saved) := by
  unfold padEffect
  split <;> simp_all [capture, getConfig, memRead, setConfig, setPadMode_eq, enableRx_eq, enableTx_eq, setTx_eq]

theorem padCalls_run {op : Operation} (hop : op = .construct ∨ op = .teardown) (o : Registers)
    (e : Option BusPhase) (calls rem : List SeqFrame) (k : Nat) (s : State) (p : Option BusPhase)
    (hk : calls.drop k = rem) (h0 : k ≠ 0)
    (hcalls : ∀ t : State, op = .construct ∨ t.saved = s.saved →
      straightCalls (SeqFrame.start op .sda o) t.saved = calls)
    (hc : ∀ c ∈ rem, c.isPadCall op)
    (ho : op = .construct ∧ s.traceOpen = true
        ∧ s.seq.any (fun f => decide (f.operation = .construct)) = true
      ∨ s.life = .live) :
    ∃ p', Runs ((s.withPhase p).withSeq [lifeFrame op o (k + 1) e])
      (((rem.foldl (fun t c => padEffect c t) s).withPhase p').withSeq
        [lifeFrame op o (k + 1 + rem.length) e]) := by
  induction rem generalizing k s p with
  | nil => exact ⟨p, Runs.refl _⟩
  | cons c rem ih =>
    have hget : calls[k]? = some c := by
      have := congrArg (fun l => l[0]?) hk
      simpa using this
    have hdrop : calls.drop (k + 1) = rem := by
      have := congrArg (List.drop 1) hk
      simpa [List.drop_drop, Nat.add_comm] using this
    have hopen : ∀ q, lifeFrame op o (k + 1) e ∈ q → (s.withSeq q).traceOpen = s.traceOpen := by
      intro q hq
      rcases ho with ⟨rfl, h, -⟩ | h
      · rw [h]
        simp only [State.traceOpen, State.withSeq, Bool.or_eq_true, List.any_eq_true]
        exact .inr ⟨_, hq, rfl⟩
      · exact open_of_live h q
    have h1 : tick ((s.withPhase p).withSeq [lifeFrame op o (k + 1) e])
        = (s.withPhase p).withSeq [c, lifeFrame op o (k + 1) e] := by
      refine tick_call rfl ?_ (by simp [lifeFrame, h0])
      have hcall : callOf (lifeFrame op o (k + 1) e) s.saved
          = (straightCalls (SeqFrame.start op .sda o) s.saved)[k + 1 - 1]? := by
        rcases hop with rfl | rfl <;> rfl
      refine hcall.trans ?_
      rw [hcalls s (.inr rfl)]
      simpa using hget
    obtain ⟨p1, hp1⟩ := tick_padCall hop c (hc c (by simp)) o (k + 1) e p s hopen
    obtain ⟨f1, f2, f3⟩ := padEffect_frame c s
    obtain ⟨p2, hp2⟩ := ih (k + 1) (padEffect c s) p1 hdrop (by omega)
      (by
        intro t ht
        apply hcalls
        rcases ht with h | h
        · exact .inl h
        · by_cases hg : c.operation = .getConfig
          · rcases hc c (by simp) with ⟨-, h'⟩ | h' | h' | h' | h' | h'
            · exact .inl h'
            all_goals exact absurd (hg.symm.trans h') (by decide)
          · exact .inr (h.trans (f3 hg)))
      (fun c' h' => hc c' (by simp [h']))
      (by
        rcases ho with ⟨a, b, d⟩ | h
        · exact .inl ⟨a, by simp only [State.traceOpen, f1, f2]; exact b, by rw [f2]; exact d⟩
        · exact .inr (f1.trans h))
    refine ⟨p2, ?_⟩
    refine Runs.head (by simp [State.withSeq]) ?_
    rw [h1]
    refine Runs.head (by simp [State.withSeq]) ?_
    rw [hp1]
    have : k + 1 + 1 + rem.length = k + 1 + (c :: rem).length := by simp; omega
    rw [← this]
    exact hp2

theorem padEffect_settingCall (o : Registers) (x : Line × PadSetting) (s : State) :
    padEffect (settingCall o x) s = applySetting x.1 x.2 s := by
  rcases x with ⟨l, _ | _ | _ | _⟩ <;> rfl

theorem settingCall_isPadCall (o : Registers) (x : Line × PadSetting) (op : Operation) :
    (settingCall o x).isPadCall op := by
  rcases x with ⟨l, _ | _ | _ | _⟩ <;> simp [settingCall, SeqFrame.isPadCall, SeqFrame.start]

/-- `construct` (R115). -/
theorem construct_runs (o : Registers) (s : State) :
    Runs (s.withSeq [SeqFrame.start .construct .sda o])
      (constructWith Config.captureOrder Config.constructOrder s) := by
  obtain ⟨calls, hcalls⟩ : ∃ calls, ∀ saved, straightCalls (SeqFrame.start .construct .sda o) saved = calls :=
    ⟨_, fun _ => rfl⟩
  have hval : calls = Config.captureOrder.map (fun l => SeqFrame.start .getConfig l o)
      ++ Config.constructOrder.map (settingCall o) := (hcalls s.saved).symm
  have hmem : ∀ c ∈ calls, c.isPadCall .construct := by
    intro c hc
    rw [hval, List.mem_append, List.mem_map, List.mem_map] at hc
    rcases hc with ⟨l, -, rfl⟩ | ⟨x, -, rfl⟩
    · exact .inl ⟨rfl, rfl⟩
    · exact settingCall_isPadCall o x _
  have hlen : calls.length = 10 := by
    rw [hval, List.length_append, List.length_map, List.length_map, captureOrder_perm.length_eq,
      constructOrder_perm.length_eq]
    rfl
  obtain ⟨c, rem, rfl⟩ : ∃ c rem, calls = c :: rem := by
    match calls, hlen with
    | c :: rem, _ => exact ⟨c, rem, rfl⟩
  let s0 : State := { s with trace := [], seq := [SeqFrame.start .construct .scl s.regs] }
  have hopen : ∀ q e k, lifeFrame .construct o k e ∈ q → (s0.withSeq q).traceOpen = s0.traceOpen := by
    intro q e k hq
    have h1 : s0.traceOpen = true := by
      simp [State.traceOpen, s0, SeqFrame.start]
    rw [h1]
    simp only [State.traceOpen, State.withSeq, Bool.or_eq_true, List.any_eq_true]
    exact .inr ⟨_, hq, rfl⟩
  have h1 : tick (s.withSeq [SeqFrame.start .construct .sda o])
      = (s0.withPhase s.phase).withSeq [c, lifeFrame .construct o 1 s.phase] := by
    refine (tick_begin (s := s.withSeq [SeqFrame.start .construct .sda o]) (c := c) rfl ?_ rfl).trans rfl
    show (straightCalls (SeqFrame.start .construct .sda o) s.saved)[0]? = _
    rw [hcalls]
    rfl
  obtain ⟨p1, hp1⟩ := tick_padCall (.inl rfl) c (hmem c (by simp)) o 1 s.phase s.phase s0
    (fun q hq => hopen q _ _ hq)
  obtain ⟨f1, f2, -⟩ := padEffect_frame c s0
  obtain ⟨p2, hp2⟩ := padCalls_run (op := .construct) (.inl rfl) o s.phase (c :: rem) rem 1 (padEffect c s0) p1 rfl
    (by decide) (fun t _ => hcalls t.saved) (fun c' h' => hmem c' (by simp [h']))
    (.inl ⟨rfl, by simp only [State.traceOpen, f1, f2]; simp [s0, SeqFrame.start],
      by rw [f2]; simp [s0, SeqFrame.start]⟩)
  refine Runs.head (by simp [State.withSeq]) ?_
  rw [h1]
  refine Runs.head (by simp [State.withSeq]) ?_
  rw [hp1]
  refine hp2.trans ?_
  have hl : 1 + 1 + rem.length = 11 := by
    simp at hlen
    omega
  rw [hl]
  have hfold : rem.foldl (fun t c => padEffect c t) (padEffect c s0)
      = Config.constructOrder.foldl (fun t x => applySetting x.1 x.2 t)
          (Config.captureOrder.foldl (fun t l => capture l t) s0) := by
    have h2 : (c :: rem).foldl (fun t c => padEffect c t) s0
        = rem.foldl (fun t c => padEffect c t) (padEffect c s0) := rfl
    rw [← h2, hval, List.foldl_append, List.foldl_map, List.foldl_map]
    simp only [padEffect_settingCall]
    rfl
  rw [hfold]
  refine runs_last ?_ rfl
  show (straightCalls (SeqFrame.start .construct .sda o) s.saved)[10]? = none
  rw [hcalls]
  exact List.getElem?_eq_none hlen.le

/-- `teardown` (R116). -/
theorem teardown_runs (o : Registers) (s : State) (hs : s.seq = []) (hl : s.life = .live) :
    Runs (s.withSeq [SeqFrame.start .teardown .sda o]) (teardownWith Config.teardownOrder s) := by
  obtain ⟨order, hord⟩ : ∃ order, order = Config.teardownOrder := ⟨_, rfl⟩
  have hcalls : ∀ saved, straightCalls (SeqFrame.start .teardown .sda o) saved
      = order.map (fun l => SeqFrame.start .setConfig l { o with cfg := saved.get l }) := by
    intro saved
    rw [hord]
    rfl
  have hmem : ∀ l, (SeqFrame.start .setConfig l { o with cfg := s.saved.get l }).isPadCall .teardown :=
    fun l => .inr (.inl rfl)
  rw [← hord]
  have key : ∀ a b, order = [a, b] → Runs (s.withSeq [SeqFrame.start .teardown .sda o])
      (teardownWith order s) := by
    intro a b hab
    let c := SeqFrame.start .setConfig a { o with cfg := s.saved.get a }
    let d := SeqFrame.start .setConfig b { o with cfg := s.saved.get b }
    have hc : ∀ saved, saved = s.saved → straightCalls (SeqFrame.start .teardown .sda o) saved = [c, d] := by
      rintro saved rfl
      rw [hcalls, hab]
      rfl
    have h1 : tick (s.withSeq [SeqFrame.start .teardown .sda o])
        = (s.withPhase s.phase).withSeq [c, lifeFrame .teardown o 1 s.phase] := by
      refine (tick_begin (s := s.withSeq [SeqFrame.start .teardown .sda o]) (c := c) rfl ?_ rfl).trans rfl
      show (straightCalls (SeqFrame.start .teardown .sda o) s.saved)[0]? = _
      rw [hc _ rfl]
      rfl
    obtain ⟨p1, hp1⟩ := tick_padCall (.inr rfl) c (hmem a) o 1 s.phase s.phase s
      (fun q _ => open_of_live hl q)
    obtain ⟨f1, f2, f3⟩ := padEffect_frame c s
    obtain ⟨p2, hp2⟩ := padCalls_run (op := .teardown) (.inr rfl) o s.phase [c, d] [d] 1 (padEffect c s) p1 rfl
      (by decide) (fun t ht => by
        rcases ht with h | h
        · exact absurd h (by decide)
        · exact hc _ (h.trans (f3 (show Operation.setConfig ≠ .getConfig by decide)))) (fun c' h' => by
        rw [List.mem_singleton] at h'
        subst h'
        exact hmem b) (.inr (f1.trans hl))
    refine Runs.head (by simp [State.withSeq]) ?_
    rw [h1]
    refine Runs.head (by simp [State.withSeq]) ?_
    rw [hp1]
    refine hp2.trans (runs_last ?_ ?_)
    · show (straightCalls (SeqFrame.start .teardown .sda o) s.saved)[2]? = none
      rw [hc _ rfl]
      rfl
    · rw [hab]
      show _ = { setConfig b (s.saved.get b) (setConfig a (s.saved.get a) s) with
        life := .absent, phase := none }
      have hseq : ∀ t : State, t.seq = [] → ({ t with seq := [] } : State) = t := by
        rintro t h
        cases t
        simp_all
      have ht := hseq { setConfig b (s.saved.get b) (setConfig a (s.saved.get a) s) with
        life := .absent, phase := none } hs
      rw [← ht]
      rfl
  rcases lineOrder_cases (hord ▸ teardownOrder_perm) with h | h
  · exact key _ _ h
  · exact key _ _ h

theorem seq_nil {s t : State} (h : t.seq = []) (ht : s = { t with seq := [] }) : s = t := by
  rw [ht]
  cases t
  simp_all

/-- A request whose listing is one step. -/
theorem runs_one {f : SeqFrame} {s t : State} (hcall : callOf f s.saved = none)
    (h : localStep f [] (s.withSeq [f]) = t) : Runs (s.withSeq [f]) t := runs_last hcall h

/-- A request other than `construct` leaves T open or closed. -/
theorem open_of_idle {s : State} (hs : s.seq = []) {f : SeqFrame} (hf : f.operation ≠ .construct) :
    (s.withSeq [f]).traceOpen = s.traceOpen := by
  simp only [State.traceOpen, State.withSeq, hs, List.any_cons, List.any_nil, hf, decide_false, Bool.or_false]
  rfl

/-- The listing of `open` (R90). -/
theorem openPad_runs (o : Registers) (s : State) (hs : s.seq = []) :
    Runs (s.withSeq [SeqFrame.start .openPad .sda o])
      (openIdentity { port := o.idPort, pad := o.idPad } s) := by
  refine runs_one rfl ?_
  refine seq_nil ?_ ?_
  · unfold openIdentity
    split <;> exact hs
  · have hi : ∀ id u, openIdentity id u = { u with regs := { u.regs with
        handle := if Config.resolves id then some id else none
        status := if Config.resolves id then .ok else .identityNotFound id } } := by
      intro id u
      unfold openIdentity
      split <;> rfl
    simp only [localStep, hi]
    rfl

/-- The listing of `getConfig` (R91). -/
theorem getConfig_runs (l : Line) (o : Registers) (s : State) (hs : s.seq = []) :
    Runs (s.withSeq [SeqFrame.start .getConfig l o])
      { (getConfig l s).2 with regs := { (getConfig l s).2.regs with cfg := (getConfig l s).1 } } := by
  refine runs_one rfl ?_
  refine seq_nil hs ?_
  simp only [localStep, getConfig, memRead, SeqFrame.start]
  rw [emit_withSeq_of_open (open_of_idle hs (by simp))]
  rfl

/-- The listing of `getRx` (R96). -/
theorem getRx_runs (l : Line) (o : Registers) (s : State) (hs : s.seq = []) :
    Runs (s.withSeq [SeqFrame.start .getRx l o])
      { (getRx l s).2 with regs := { (getRx l s).2.regs with bit := (getRx l s).1 } } := by
  refine runs_one rfl ?_
  refine seq_nil hs ?_
  simp only [localStep, getRx, getConfig, memRead, SeqFrame.start]
  rw [emit_withSeq_of_open (open_of_idle hs (by simp))]
  rfl

/-- The listing of `getTx` (R97). -/
theorem getTx_runs (l : Line) (o : Registers) (s : State) (hs : s.seq = []) :
    Runs (s.withSeq [SeqFrame.start .getTx l o])
      { (getTx l s).2 with regs := { (getTx l s).2.regs with bit := (getTx l s).1 } } := by
  refine runs_one rfl ?_
  refine seq_nil hs ?_
  simp only [localStep, getTx, getConfig, memRead, SeqFrame.start]
  rw [emit_withSeq_of_open (open_of_idle hs (by simp))]
  rfl

theorem settlePhase_seq (s : State) : (settlePhase s).seq = s.seq := by
  obtain ⟨p, hp⟩ := settlePhase_eq s
  rw [hp]
  rfl

/-- The listing of `setConfig` (R92). -/
theorem setConfig_runs (l : Line) (o : Registers) (s : State) (hs : s.seq = []) :
    Runs (s.withSeq [SeqFrame.start .setConfig l o]) (settlePhase (setConfig l o.cfg s)) := by
  refine runs_one rfl (seq_nil (by rw [settlePhase_seq]; exact hs) ?_)
  simp only [localStep, setConfig, SeqFrame.start]
  rw [memWrite_withSeq (open_of_idle hs (by simp)), settlePhase_withSeq]
  rfl

/-- The listing of `setPadMode` (R93). -/
theorem setPadMode_runs (l : Line) (o : Registers) (s : State) (hs : s.seq = []) :
    Runs (s.withSeq [SeqFrame.start .setPadMode l o]) (settlePhase (setPadMode l o.mode s)) := by
  refine runs_one rfl (seq_nil (by rw [settlePhase_seq]; exact hs) ?_)
  simp only [localStep, setPadMode, SeqFrame.start]
  rw [modify_withSeq (open_of_idle hs (by simp)), settlePhase_withSeq]
  rfl

/-- The listing of `enableRx` (R94). -/
theorem enableRx_runs (l : Line) (o : Registers) (s : State) (hs : s.seq = []) :
    Runs (s.withSeq [SeqFrame.start .enableRx l o]) (settlePhase (enableRx l o.flag s)) := by
  refine runs_one rfl (seq_nil (by rw [settlePhase_seq]; exact hs) ?_)
  simp only [localStep, enableRx, SeqFrame.start]
  rw [modify_withSeq (open_of_idle hs (by simp)), settlePhase_withSeq]
  rfl

/-- The listing of `enableTx` (R95). -/
theorem enableTx_runs (l : Line) (o : Registers) (s : State) (hs : s.seq = []) :
    Runs (s.withSeq [SeqFrame.start .enableTx l o]) (settlePhase (enableTx l o.flag s)) := by
  refine runs_one rfl (seq_nil (by rw [settlePhase_seq]; exact hs) ?_)
  simp only [localStep, enableTx, SeqFrame.start]
  rw [modify_withSeq (open_of_idle hs (by simp)), settlePhase_withSeq]
  rfl

/-- The listing of `setTx` (R98). -/
theorem setTx_runs (l : Line) (o : Registers) (s : State) (hs : s.seq = []) :
    Runs (s.withSeq [SeqFrame.start .setTx l o]) (settlePhase (setTx l o.flag s)) := by
  refine runs_one rfl (seq_nil (by rw [settlePhase_seq]; exact hs) ?_)
  simp only [localStep, setTx, SeqFrame.start]
  rw [modify_withSeq (open_of_idle hs (by simp)), settlePhase_withSeq]
  rfl

/-- The listing of `Delay` (R110). -/
theorem delay_runs (o : Registers) (s : State) (hs : s.seq = []) :
    Runs (s.withSeq [SeqFrame.start .delay .sda o]) (delay s) := by
  refine runs_one rfl (seq_nil hs ?_)
  simp only [localStep, delay, SeqFrame.start]
  rw [emit_withSeq_of_open (open_of_idle hs (by simp))]
  rfl

/-- A request that is served found SEQ Idle. -/
theorem idle_of_next {s t : State} {o : Host.Outcome State Fault Refusal} (h : whenIdle s o = .next t) :
    s.seq = [] ∧ o = .next t := by
  unfold whenIdle at h
  split at h
  · exact ⟨by assumption, h⟩
  · cases h

/-- An engine request that is served found SEQ Idle and LIFE Live. -/
theorem live_of_next {s t : State} {o : Host.Outcome State Fault Refusal} (h : whenLive s o = .next t) :
    s.seq = [] ∧ s.life = .live ∧ o = .next t := by
  obtain ⟨h1, h2⟩ := idle_of_next h
  split at h2
  · exact ⟨h1, by assumption, h2⟩
  · cases h2

theorem seq_sendPayload (l : List Byte) (c : BitVec 6) (s : State) :
    (sendPayload l c s).2.seq = s.seq := by
  induction l generalizing c s with
  | nil => rfl
  | cons d l ih =>
    have h := (writeByte_performed (d, false) s).1.seq
    rw [sendPayload]
    split
    · rw [ih, h]
    · exact h

theorem seq_sendHeader (l : List (Byte × Bool)) (s : State) :
    (sendHeader .shortCircuit l s).2.seq = s.seq := by
  induction l generalizing s with
  | nil => rfl
  | cons d l ih =>
    have h := (writeByte_performed d s).1.seq
    rw [sendHeader]
    split
    · rw [ih, h]
    · exact h

theorem seq_readData (n : Nat) (out : List Byte) (s : State) : (readData n out s).2.seq = s.seq := by
  induction n generalizing out s with
  | zero => rfl
  | succ n ih => rw [readData, ih, (readByte_performed _ s).seq]

theorem seq_smbusBlockWrite (a : BitVec 7) (c : Byte) (l : List Byte) (s : State) :
    (smbusBlockWrite a c l s).2.seq = s.seq := by
  unfold smbusBlockWrite
  split
  · rfl
  · dsimp only
    rw [(stop_performed _).seq]
    split
    · rw [seq_sendPayload, seq_sendHeader]
    · exact seq_sendHeader _ _

theorem seq_smbusBlockRead (a : BitVec 7) (c : Byte) (s : State) :
    (smbusBlockRead a c s).2.seq = s.seq := by
  unfold smbusBlockRead
  dsimp only
  rw [(stop_performed _).seq]
  split
  · rw [seq_readData, (readByte_performed _ _).seq]
    exact seq_sendHeader _ _
  · exact seq_sendHeader _ _

theorem seq_readAtOffset (a : BitVec 7) (c : BitVec 16) (n : Nat) (s : State) :
    (readAtOffset a c n s).2.seq = s.seq := by
  unfold readAtOffset
  dsimp only
  rw [(stop_performed _).seq]
  split
  · rw [seq_readData]
    exact seq_sendHeader _ _
  · exact seq_sendHeader _ _

/-- Where a request's listing ends. -/
theorem ended_nil {x : Result} {s t : State} (hs : s.seq = [])
    (h : t = { s with regs := storeResult x s.regs }) :
    ended x [] s = t := by
  subst h
  cases s
  simp_all [ended]

/-- A wire format of one byte is a byte frame (note 24). -/
theorem wireByte_runs (d : Byte) (s t : State) (h : sendWireByte d s = .next t) :
    Runs (s.withSeq [writeByteCall s.regs d false]) t := by
  obtain ⟨hs, hl, h⟩ := live_of_next h
  cases h
  have := writeByte_runs s.regs d false [] s hl
  rwa [ended_nil ((writeByte_performed (d, false) s).1.seq.trans hs) rfl] at this

end Sys2Proof.Machine
end

