-- ==== Sys2Proof/Tests/Slice0.lean ====
section
/-! SUPPORT. The model's own tests. Expected values are from spec/30_encoding.md, from the rules' own
examples and from the vectors V<n> of spec/95_test_vectors.md; the `witness_` theorems show a state and
operands that meet a statement's hypotheses together. -/

namespace Sys2Proof.Tests

open Sys2Proof Sys2Proof.Machine

/-! ### Encodings -/

/-- The only ill-formed operand there is: a count byte above 32 (R78 (a)), in the 6-bit field's range. -/
theorem test_wellFormed_refuses_count_33 : (Instr.wireCount 33).wellFormed = false := by decide

theorem test_wellFormed_takes_count_32 : (Instr.wireCount 32).wellFormed = true := by decide

theorem test_decode_refuses_count_33 :
    decode .countByte 0b000100001#9 = .error (.countAboveMaximum 33) := by decide

theorem test_decode_refuses_selector_09 :
    decode .request 0b000001001#9 = .error (.unknownSelector 0x09) := by decide

theorem test_decode_refuses_wide_wire_words :
    decode .dataByte 0b100000000#9 = .error (.wireByteTooWide 0x100)
    ∧ decode .ackBit 0b000000010#9 = .error (.ackTooWide 2) := by decide

/-- R82, selectors 0x00 to 0x08; the line bit is bit 8 (92 D3). -/
theorem test_decode_gpioLine_words :
    decode .request 0b000000000#9 = .ok .openPad
    ∧ decode .request 0b000000001#9 = .ok (.getConfig .scl)
    ∧ decode .request 0b100000010#9 = .ok (.setConfig .sda)
    ∧ decode .request 0b000000011#9 = .ok (.setPadMode .scl)
    ∧ decode .request 0b100000100#9 = .ok (.enableRx .sda)
    ∧ decode .request 0b000000101#9 = .ok (.enableTx .scl)
    ∧ decode .request 0b100000110#9 = .ok (.getRx .sda)
    ∧ decode .request 0b000000111#9 = .ok (.getTx .scl)
    ∧ decode .request 0b100001000#9 = .ok (.setTx .sda) := by decide

/-- R82, selectors 0x10 to 0x18. -/
theorem test_decode_engine_words :
    decode .request 0b000010000#9 = .ok .construct
    ∧ decode .request 0b000010001#9 = .ok .teardown
    ∧ decode .request 0b000010010#9 = .ok .start
    ∧ decode .request 0b000010011#9 = .ok .stop
    ∧ decode .request 0b000010100#9 = .ok .writeBit
    ∧ decode .request 0b000010101#9 = .ok .readBit
    ∧ decode .request 0b000010110#9 = .ok .writeByte
    ∧ decode .request 0b000010111#9 = .ok .readByte
    ∧ decode .request 0b000011000#9 = .ok .delay := by decide

/-- R82, selectors 0x20 to 0x22. -/
theorem test_decode_block_words :
    decode .request 0b000100000#9 = .ok .smbusBlockWrite
    ∧ decode .request 0b000100001#9 = .ok .smbusBlockRead
    ∧ decode .request 0b000100010#9 = .ok .readAtOffset := by decide

/-- R75 to R79: address 0x23 is 0100011 above the direction bit, so 0x46 and 0x47 (R77). -/
theorem test_decode_wire_words :
    decode .addressByte 0b001000110#9 = .ok (.wireAddrWrite 0x23)
    ∧ decode .addressByte 0b001000111#9 = .ok (.wireAddrRead 0x23)
    ∧ decode .commandByte 0b000001000#9 = .ok (.wireCommand 0x08)
    ∧ decode .countByte 0b000000100#9 = .ok (.wireCount 4)
    ∧ decode .countByte 0b000100000#9 = .ok (.wireCount 32)
    ∧ decode .offsetHighByte 0b000010010#9 = .ok (.wireOffsetHigh 0x12)
    ∧ decode .offsetLowByte 0b000110100#9 = .ok (.wireOffsetLow 0x34)
    ∧ decode .dataByte 0b010100101#9 = .ok (.wireData 0xA5)
    ∧ decode .ackBit 0b000000000#9 = .ok .wireAck
    ∧ decode .ackBit 0b000000001#9 = .ok .wireNack := by decide

theorem test_encode_words :
    encode (.enableTx .sda) = 0x105#9 ∧ encode .readAtOffset = 0x022#9
    ∧ encode (.wireAddrRead 0x23) = 0x047#9 ∧ encode (.wireCount 32) = 0x020#9 := by decide

theorem test_decodeTableWord :
    decodeTableWord 16 0x105 = some (.enableTx .sda) ∧ decodeTableWord 8 0x20 = some .smbusBlockWrite
    ∧ decodeTableWord 8 0x19 = none := by decide

/-- The words of the vector V38 under the candidate layout: `NF1,1,0,1,1` with the other bits
0x44000000 is 0x44000603. -/
theorem test_candidate_pad_word :
    PadWord.toBits PadLayout.candidate PadMode.candidateCode
      (PadWord.ofBits PadLayout.candidate PadMode.candidateCode 0x44000603#32) = 0x44000603#32
    ∧ (PadWord.ofBits PadLayout.candidate PadMode.candidateCode 0x44000603#32).pmode = .nf1
    ∧ (PadWord.ofBits PadLayout.candidate PadMode.candidateCode 0x44000603#32).rxdis = true
    ∧ (PadWord.ofBits PadLayout.candidate PadMode.candidateCode 0x44000603#32).txdis = false
    ∧ (PadWord.ofBits PadLayout.candidate PadMode.candidateCode 0x44000603#32).txlvl = true := by
  decide +kernel

/-! ### The states of the tests -/

/-- The environment leaves both lines alone. -/
def quiet : Sample := { sclLow := false, sdaLow := false, draw := false }

/-- The environment pulls the data line low. -/
def pulls : Sample := { sclLow := false, sdaLow := true, draw := false }

/-- A released line in mode GPIO (95: the pads of LIVE0). -/
def idleWord : PadWord :=
  { pmode := .gpio, rxdis := false, txdis := true, rxlvl := true, txlvl := false, other := 5 }

/-- No engine, both pads released, a quiet environment. -/
def absent0 : State :=
  { State.reset with pads := { scl := idleWord, sda := idleWord }, slave := List.replicate 24 quiet }

/-- LIVE0 of spec/95_test_vectors.md. -/
def live0 : State := { absent0 with life := .live, phase := some .busIdle }

/-- Right after a start: both lines pulled low. -/
def open0 : State :=
  { live0 with pads := withDrives live0.pads false false, phase := some .inTransaction }

/-- The state after an answer, or the state before construction if there is none. -/
def after (o : Host.Outcome State Fault Refusal) : State :=
  match o with
  | .next t => t
  | .fault _ => State.reset
  | .refused _ => State.reset

/-- Whether an instruction or step answers a next state. -/
def answersNext (o : Host.Outcome State Fault Refusal) : Bool :=
  match o with
  | .next _ => true
  | .fault _ => false
  | .refused _ => false

/-- With pad word `w` on both lines. -/
def withPad (s : State) (w : PadWord) : State := { s with pads := { scl := w, sda := w } }

/-- The environment's answers over one written byte frame that is acknowledged, without its start. -/
def ackedFrame : List Sample := List.replicate 64 quiet ++ List.replicate 9 pulls

/-- The environment's answers over the eight read cells of a byte, then one quiet cell. -/
def sentByte (d : Byte) : List Sample :=
  ([7, 6, 5, 4, 3, 2, 1, 0].flatMap fun i =>
    List.replicate 9 (if d.getLsbD i then quiet else pulls)) ++ List.replicate 8 quiet

/-- The eleven events of a start. -/
def startQuiet : List Sample := List.replicate 11 quiet

/-! ### GpioLine -/

/-- V4: the slave pulls low, so the word read has input level 0. -/
theorem test_getConfig_reads_live_level :
    (after (exec (.getConfig .sda) { live0 with slave := [pulls] })).regs.cfg
      = { idleWord with rxlvl := false } := by decide

/-- V5: the input level written is not kept, the rest of the word is. -/
theorem test_setConfig_writes_all_but_the_input_level :
    ((after (exec (.setConfig .scl) { live0 with regs := { live0.regs with
      cfg := { pmode := .nf3, rxdis := true, txdis := false, rxlvl := false, txlvl := true, other := 9 }
      } })).pad .scl)
      = { pmode := .nf3, rxdis := true, txdis := false, rxlvl := true, txlvl := true, other := 9 } := by
  decide

/-- V6. -/
theorem test_setPadMode_from_nf1 :
    (after (exec (.setPadMode .scl)
      (withPad absent0 { idleWord with pmode := .nf1, rxdis := true, txlvl := true }))).pad .scl
      = { idleWord with rxdis := true, txlvl := true } := by decide

/-- V9: inverted sense. -/
theorem test_enableRx_false_disables :
    ((after (exec (.enableRx .sda) live0)).pad .sda).rxdis = true := by decide

/-- V10: inverted sense; the two accesses. -/
theorem test_enableTx_true_enables :
    (after (exec (.enableTx .sda) { live0 with regs := { live0.regs with flag := true } })).trace
      = [.rd .sda idleWord, .wr .sda { idleWord with txdis := false }] := by decide

/-- V12: the input reads the master's own low. -/
theorem test_getRx_reads_own_low :
    (after (exec (.getRx .scl) { open0 with regs := { open0.regs with bit := true } })).regs.bit
      = false := by decide

/-- V14. -/
theorem test_getRx_reads_released_high :
    (after (exec (.getRx .sda) live0)).regs.bit = true := by decide

/-- V16 has BIT 0 for output level 0; here the level is 1. -/
theorem test_getTx_reads_output_level :
    (after (exec (.getTx .scl) (withPad live0 { idleWord with txlvl := true }))).regs.bit = true := by
  decide

/-- V18, with the slave pulling low: the drivers fight (93 U6) and the next step faults. -/
theorem test_setTx_against_the_slave_is_contention :
    step (after (exec (.setTx .scl) { open0 with
      slave := [quiet, { quiet with sclLow := true }], regs := { open0.regs with flag := true } }))
      = .fault .lineContention := by rfl

/-! ### The engine -/

/-- V38: the pads before construction. -/
def v38 : State :=
  { absent0 with pads :=
      { scl := { pmode := .nf1, rxdis := true, txdis := false, rxlvl := false, txlvl := true, other := 5 }
        sda := { pmode := .nf1, rxdis := false, txdis := true, rxlvl := true, txlvl := true, other := 9 }
      } }

/-- V38 after construction in the default order. -/
def built : State := constructWith Config.defaultCaptureOrder Config.defaultConstructOrder v38

/-- V38: the end state and its 18 accesses with no delay. -/
theorem test_construct_v38 :
    built.pads
      = { scl := { v38.pads.scl with pmode := .gpio, rxdis := false, txdis := true, txlvl := false }
          sda := { v38.pads.sda with pmode := .gpio, rxdis := false, txdis := true, txlvl := false } }
    ∧ built.trace.length = 18 ∧ accessCount built.trace = 18 := by decide

/-- V39: two writes of the captured words bring the pads back. -/
theorem test_teardown_v39 :
    (teardownWith Config.defaultTeardownOrder built).pads = v38.pads
    ∧ (teardownWith Config.defaultTeardownOrder built).trace.length = 20 := by decide

/-- R40: after teardown T is closed, and a GpioLine operation leaves it alone. -/
theorem test_trace_is_closed_after_teardown :
    let s := teardownWith Config.defaultTeardownOrder built
    (after (exec (.getRx .scl) s)).trace = s.trace
    ∧ (after (exec (.getRx .scl) s)).instant = s.instant + 1 := by decide

/-- V19: the seven events, 3 delays and 8 accesses. -/
theorem test_start_v19 :
    (after (exec .start live0)).trace.map Event.shape
      = [.read .sda, .write .sda true, .read .scl, .write .scl true, .delay, .read .sda,
         .write .sda false, .delay, .read .scl, .write .scl false, .delay] := by decide

/-- V22: the six events, 3 delays and 6 accesses. -/
theorem test_stop_v22 :
    (after (exec .stop { open0 with pads := withDrives open0.pads false true })).trace.map Event.shape
      = [.read .sda, .write .sda false, .delay, .read .scl, .write .scl true, .delay, .read .sda,
         .write .sda true, .delay] := by decide

/-- V24: a 0 is sent by pulling the data line low. -/
theorem test_writeBit_v24 :
    (after (exec .writeBit open0)).trace.map Event.shape
      = [.read .sda, .write .sda false, .delay, .read .scl, .write .scl true, .delay, .read .scl,
         .write .scl false] := by decide

/-- V26 and V27: the level itself, not its negation. -/
theorem test_readBit_v26_v27 :
    (after (exec .readBit { open0 with slave := List.replicate 9 pulls })).regs.bit = false
    ∧ (after (exec .readBit { open0 with slave := List.replicate 9 quiet })).regs.bit = true := by
  decide

/-- V28 with S1: 0xA5 goes out as 1 0 1 0 0 1 0 1, and the acknowledgment slot is released. -/
theorem test_writeByte_v28 :
    symbolsBetween open0 (after (exec .writeByte { open0 with
        slave := ackedFrame, regs := { open0.regs with byte := 0xA5 } }))
      = [.bit true, .bit false, .bit true, .bit false, .bit false, .bit true, .bit false, .bit true,
         .bit true] := by decide +kernel

/-- V28 and V29: ACKED is the negation of the sample. -/
theorem test_writeByte_acked_v28_v29 :
    (after (exec .writeByte { open0 with slave := ackedFrame })).regs.acked = true
    ∧ (after (exec .writeByte { open0 with slave := List.replicate 73 quiet })).regs.acked = false := by
  decide +kernel

/-- V33 and V34: 0xA5 is read; the ninth cell is low for ack, released for nack. -/
theorem test_readByte_v33_v34 :
    (after (exec .readByte { open0 with slave := sentByte 0xA5 })).regs.byte = 0xA5
    ∧ ((after (exec .readByte { open0 with slave := sentByte 0xA5 })).pad .sda).txdis = true
    ∧ ((after (exec .readByte { open0 with
        slave := sentByte 0xA5, regs := { open0.regs with flag := true } })).pad .sda).txdis = false := by
  decide +kernel

/-- R110: one event, no register touched. -/
theorem test_delay_is_one_event :
    (after (exec .delay live0)).trace = [.dly] ∧ (after (exec .delay live0)).pads = live0.pads := by
  decide

/-! ### BlockTransfer -/

/-- LIVE0 with the operands of the examples of 42_block_transfer.md. -/
def block0 : State :=
  { live0 with regs := { live0.regs with addr := 0x23, cmd := 0x08, offset := 0x1234, length := 2 } }

/-- R141 (b), V44: 33 bytes answer 0 with no event. -/
theorem test_smbusBlockWrite_of_33_bytes :
    (after (exec .smbusBlockWrite { block0 with
      regs := { block0.regs with txbuf := List.replicate 33 1, count := 5 } })).regs.count = 0
    ∧ (after (exec .smbusBlockWrite { block0 with
      regs := { block0.regs with txbuf := List.replicate 33 1 } })).trace = [] := by decide +kernel

/-- R141's example with one payload byte: `S [0x46] a [0x08] a [0x01] a [0x78] a P`, answer 1. -/
theorem test_smbusBlockWrite_one_byte :
    let s := { block0 with
      slave := startQuiet ++ ackedFrame ++ ackedFrame ++ ackedFrame ++ ackedFrame
        ++ List.replicate 9 quiet
      regs := { block0.regs with txbuf := [0x78] } }
    (after (exec .smbusBlockWrite s)).regs.count = 1
    ∧ symbolsBetween s (after (exec .smbusBlockWrite s))
        = [.startCond] ++ writtenByte 0x46 ++ writtenByte 0x08 ++ writtenByte 0x01
          ++ writtenByte 0x78 ++ [.stopCond] := by decide +kernel

/-- R144 (f): a slave that sends length 1 and the byte 0x78; the single byte is answered with a nack. -/
theorem test_smbusBlockRead_one_byte :
    let s := { block0 with
      slave := startQuiet ++ ackedFrame ++ ackedFrame ++ startQuiet ++ ackedFrame ++ sentByte 0x01
        ++ sentByte 0x78 ++ List.replicate 9 quiet }
    (after (exec .smbusBlockRead s)).regs.rxbuf = [0x78]
    ∧ symbolsBetween s (after (exec .smbusBlockRead s))
        = [.startCond] ++ writtenByte 0x46 ++ writtenByte 0x08 ++ [.startCond] ++ writtenByte 0x47
          ++ readFrame true ++ readFrame false ++ [.stopCond] := by decide +kernel

/-- V46: nobody acknowledges the address, so nothing is read and the stop follows. -/
theorem test_smbusBlockRead_address_nack :
    let s := { block0 with slave := List.replicate 93 quiet }
    (after (exec .smbusBlockRead s)).regs.rxbuf = []
    ∧ symbolsBetween s (after (exec .smbusBlockRead s))
        = [.startCond] ++ writtenByte 0x46 ++ [.stopCond] := by decide +kernel

/-- R145's example: `S [0x46] a [0x12] a [0x34] a Sr [0x47] a (0xAB) A (0xCD) N P`. -/
theorem test_readAtOffset_two_bytes :
    let s := { block0 with
      slave := startQuiet ++ ackedFrame ++ ackedFrame ++ ackedFrame ++ startQuiet ++ ackedFrame
        ++ sentByte 0xAB ++ sentByte 0xCD ++ List.replicate 9 quiet }
    (after (exec .readAtOffset s)).regs.rxbuf = [0xAB, 0xCD]
    ∧ symbolsBetween s (after (exec .readAtOffset s))
        = [.startCond] ++ writtenByte 0x46 ++ writtenByte 0x12 ++ writtenByte 0x34 ++ [.startCond]
          ++ writtenByte 0x47 ++ readFrame true ++ readFrame false ++ [.stopCond] := by decide +kernel

/-- R77: the address byte of 0x23 with the write bit is 0x46 and with the read bit 0x47. -/
theorem test_wire_address_bytes :
    symbolsBetween open0 (after (exec (.wireAddrWrite 0x23) open0)) = writtenByte 0x46
    ∧ symbolsBetween open0 (after (exec (.wireAddrRead 0x23) open0)) = writtenByte 0x47 := by
  decide +kernel

/-- R75, R78, R79: each of the other wire bytes is itself, the count zero-extended. -/
theorem test_wire_other_bytes :
    symbolsBetween open0 (after (exec (.wireCommand 0x08) open0)) = writtenByte 0x08
    ∧ symbolsBetween open0 (after (exec (.wireCount 32) open0)) = writtenByte 0x20
    ∧ symbolsBetween open0 (after (exec (.wireOffsetHigh 0x12) open0)) = writtenByte 0x12
    ∧ symbolsBetween open0 (after (exec (.wireOffsetLow 0x34) open0)) = writtenByte 0x34
    ∧ symbolsBetween open0 (after (exec (.wireData 0xA5) open0)) = writtenByte 0xA5 := by
  decide +kernel

/-- R76: 0 on the wire for ack, 1 for nack. -/
theorem test_wire_acknowledgments :
    symbolsBetween open0 (after (exec .wireAck open0)) = [.bit false]
    ∧ symbolsBetween open0 (after (exec .wireNack open0)) = [.bit true] := by decide

/-! ### The step -/

/-- The host hands over BYTE and FLAG and requests `start`; the operands land, SEQ is Idle again. -/
theorem test_step_takes_the_request :
    let s := { live0 with requests := [.call { loads := [.byte 0x46, .flag true], word := 0x012 }] }
    (after (step s)).regs.byte = 0x46 ∧ (after (step s)).phase = some .inTransaction
    ∧ (after (step s)).requests = [] := by decide

/-- R169 (a), V58: at reset the engine's operations are refused, with the reason in STATUS and no other
effect; construction and the GpioLine operations are taken. -/
theorem test_step_from_reset :
    step (State.reset.withFetchWord 8 0x12)
      = .next (raiseFailure (.refused .engineAbsent) State.reset)
    ∧ answersNext (step (State.reset.withFetchWord 8 0x10)) = true
    ∧ answersNext (step (State.reset.withFetchWord 16 0x105)) = true := ⟨rfl, by decide, by decide⟩

/-- LIVE0 with a `start` requested and not waited for. -/
def running : State :=
  after (step { live0 with requests := [.post { loads := [], word := 0x012 }] })

/-- R30: the request moves SEQ to step 1; the first step of the sequencer calls `rel(SDA)` over it, and a
start is then in progress (R34). -/
theorem test_post_moves_seq_to_step_1 :
    running.seq.map (fun f => (f.operation, f.nextStep)) = [(.start, 1)]
    ∧ (tick running).seq.map (fun f => (f.operation, f.line, f.nextStep))
        = [(.rel, .sda, 1), (.start, .sda, 1)]
    ∧ (tick running).phase = some .undefined := by decide

/-- R117 step by step: after 15 steps SEQ is Idle and the start has been made. -/
theorem test_sequencer_makes_a_start :
    (tick^[15] running).seq = [] ∧ (tick^[14] running).seq ≠ []
    ∧ (tick^[15] running).trace = (after (exec .start live0)).trace
    ∧ (tick^[15] running).phase = some .inTransaction := by decide

/-- R169 (d), R193: a request while SEQ is busy is refused; STATUS holds the reason and SEQ stays. -/
theorem test_busy_request_is_refused :
    let s := { running with requests := [.call { loads := [], word := 0x013 }] }
    (after (step s)).regs.status = .refused .busy ∧ (after (step s)).seq = running.seq
    ∧ (after (step s)).trace = running.trace := by decide

/-- R204: operands are handed over without a request. -/
theorem test_load_hands_over :
    (after (step { live0 with requests := [.load [.addr 0x23, .length 2]] })).regs
      = { live0.regs with addr := 0x23, length := 2 } := by decide

/-! ### Witnesses: states and operands that meet a statement's hypotheses -/

theorem witness_decodeOfEncode : (Instr.wireCount 32).wellFormed = true
    ∧ (Instr.enableTx .sda).wellFormed = true := by decide

theorem witness_decodedWordIsReencoded : decode .request 0b100000000#9 = .ok .openPad
    ∧ decode .countByte 0b000100000#9 = .ok (.wireCount 32) := by decide

theorem witness_unlistedSelector :
    let s := { live0 with requests := [.call { loads := [], word := 0x009 }] }
    let v := { live0 with requests := [.post { loads := [], word := 0x0FF }] }
    s.contention = false ∧ s.requests = [.call { loads := [], word := 0x009 }]
    ∧ v.contention = false ∧ v.requests = [.post { loads := [], word := 0x0FF }]
    ∧ (∀ p ∈ requestRows, (0x009#9 &&& 0x0FF#9) ≠ p.pattern)
    ∧ (∀ p ∈ requestRows, (0x0FF#9 &&& 0x0FF#9) ≠ p.pattern) := by decide

/-- A request waited for, one that is not, and one refused because it comes while SEQ is busy. -/
theorem witness_stepRunsTheDecodedRequest :
    let r : Request := { loads := [.flag true], word := 0x105 }
    let s := { live0 with requests := [.call r] }
    let v := { live0 with requests := [.post r] }
    let s' := { live0 with regs := { live0.regs with flag := true }, requests := [] }
    s.contention = false ∧ s.requests = [.call r] ∧ decode .request 0x105#9 = .ok (.enableTx .sda)
    ∧ s' = { s with regs := r.loads.foldl applyLoad s.regs, requests := [] }
    ∧ answersNext (exec (.enableTx .sda) s') = true
    ∧ v.contention = false ∧ v.requests = [.post r]
    ∧ exec (.enableTx .sda) { s' with seq := running.seq } = .refused .busy :=
  ⟨rfl, rfl, by decide, rfl, by decide, rfl, rfl, rfl⟩

/-- Idle with nothing to do, a listing under way, a wait, operands handed over. -/
theorem witness_stepWithoutRequest :
    (live0.contention = false ∧ live0.requests = [] ∧ live0.seq = [])
    ∧ (running.contention = false ∧ running.requests = [] ∧ running.seq ≠ [])
    ∧ ({ running with requests := [.wait] }.requests = [.wait])
    ∧ { live0 with requests := [.load [.bit true]] }.requests = [.load [.bit true]] := by decide

theorem witness_stepAfterDriversFought : { live0 with contention := true }.contention = true := by
  decide

theorem witness_requestWhileBusy : running.seq ≠ [] := by decide

theorem witness_engineOperationWhileAbsent :
    absent0.seq = [] ∧ absent0.life = .absent ∧ needsEngine .start = true
    ∧ needsEngine .teardown = true ∧ needsEngine (.wireData 0) = true := by decide

/-- Both clauses: construction while Live, and with one pad handed over twice. -/
theorem witness_senselessConstruct :
    let s := { absent0 with regs := { absent0.regs with
      clock := some { port := 1, pad := 2 }, data := some { port := 1, pad := 2 } } }
    (live0.seq = [] ∧ live0.life = .live)
    ∧ (s.seq = [] ∧ s.life = .absent ∧ s.regs.clock = some { port := 1, pad := 2 }
      ∧ s.regs.data = some { port := 1, pad := 2 }) := by decide

/-- An engine operation, a GpioLine operation while Absent, and construction with two pads. -/
theorem witness_everyInstructionCompletes :
    (live0.seq = [] ∧ live0.life = .live ∧ answersNext (exec .start live0) = true)
    ∧ (absent0.seq = [] ∧ needsEngine (.getRx .scl) = false
      ∧ answersNext (exec (.getRx .scl) absent0) = true)
    ∧ (let s := { absent0 with regs := { absent0.regs with
         clock := some { port := 1, pad := 2 }, data := some { port := 1, pad := 3 } } }
       s.seq = [] ∧ s.life = .absent ∧ s.regs.clock ≠ s.regs.data
       ∧ answersNext (exec .construct s) = true) := by decide

/-- The hypothesis of every GpioLine statement: no operation is running. -/
theorem witness_open : absent0.seq = [] := by decide
theorem witness_getConfig : live0.seq = [] := by decide
theorem witness_setConfig : live0.seq = [] := by decide
theorem witness_setPadMode : absent0.seq = [] := by decide
theorem witness_enableRx : absent0.seq = [] := by decide
theorem witness_enableTx : live0.seq = [] := by decide
theorem witness_getRx : live0.seq = [] := by decide
theorem witness_getTx : live0.seq = [] := by decide
theorem witness_setTx : live0.seq = [] := by decide

theorem witness_mutators :
    live0.seq = [] ∧ (Instr.enableTx .sda = .setPadMode .sda ∨ Instr.enableTx .sda = .enableRx .sda
      ∨ Instr.enableTx .sda = .enableTx .sda ∨ Instr.enableTx .sda = .setTx .sda) := by decide

/-- The clauses in order: the master pulls low; the slave does; neither, driver off; input not readable
by mode, and by its disable bit; the drivers fight. -/
theorem witness_inputLevel :
    ((open0.pad .sda).pmode = .gpio ∧ (open0.pad .sda).rxdis = false
      ∧ (open0.pad .sda).txdis = false ∧ (open0.pad .sda).txlvl = false)
    ∧ (let s := { live0 with slave := [pulls] }
       (s.pad .sda).txdis = true ∧ (s.sampleAt 0).low .sda = true)
    ∧ ((live0.sampleAt 0).low .sda = false ∧ (live0.pad .sda).txdis = true)
    ∧ ((withPad absent0 { idleWord with pmode := .nf7 }).pad .scl).pmode ≠ .gpio
    ∧ ((withPad absent0 { idleWord with rxdis := true }).pad .scl).rxdis = true
    ∧ (let s := { withPad live0 { idleWord with txdis := false, txlvl := true } with slave := [pulls] }
       s.seq = [] ∧ (s.pad .sda).pmode = .gpio ∧ (s.pad .sda).txdis = false
       ∧ (s.pad .sda).txlvl = true ∧ (s.sampleAt 0).low .sda = true) := by decide

theorem witness_writtenInputLevel : live0.seq = [] := by decide

theorem witness_padWordViews :
    PadLayout.candidate.Valid ∧ ValidModeCode PadMode.candidateCode := by decide

theorem witness_fieldWrites : PadLayout.candidate.Valid := by decide

theorem witness_construct : v38.seq = [] ∧ v38.life = .absent ∧ v38.regs.clock = none := by decide

/-- Another order than the default: the data line first, the level first. -/
theorem witness_constructEveryOrder :
    List.Perm [Line.sda, .scl] [.scl, .sda]
    ∧ Config.defaultConstructOrder.reverse.Perm Config.defaultConstructOrder :=
  ⟨by decide, List.reverse_perm _⟩

theorem witness_teardown : live0.seq = [] ∧ live0.life = .live := by decide

theorem witness_teardownRestores :
    let t := after (exec .construct v38)
    let rs : List (List Load × Instr) := [([], .start), ([], .getTx .scl), ([.flag true], .setTx .sda)]
    exec .construct v38 = .next t ∧ runAll rs t = .next (after (runAll rs t))
    ∧ (∀ r ∈ rs, r.2 ≠ .teardown) := ⟨rfl, rfl, by decide⟩

theorem witness_savedIsWrittenByConstructOnly :
    Instr.start ≠ .construct ∧ exec .start live0 = .next (after (exec .start live0)) := ⟨by decide, rfl⟩

theorem witness_delay : live0.seq = [] ∧ live0.life = .live := by decide

/-- The open-drain premise of the wire statements, too. -/
theorem witness_start : live0.seq = [] ∧ live0.life = .live ∧ live0.openDrain = true := by decide

theorem witness_stop : open0.seq = [] ∧ open0.life = .live ∧ open0.openDrain = true := by decide

theorem witness_writeBit : open0.seq = [] ∧ open0.life = .live ∧ open0.openDrain = true := by decide

theorem witness_readBit : open0.seq = [] ∧ open0.life = .live ∧ open0.openDrain = true := by decide

/-- Inside a transaction, and from a released bus with a start. -/
theorem witness_writeByte :
    (open0.seq = [] ∧ open0.life = .live ∧ open0.openDrain = true ∧ (open0.pad .scl).txdis = false)
    ∧ (let s := { live0 with regs := { live0.regs with flag := true } }
       s.seq = [] ∧ s.life = .live ∧ (s.pad .scl).txdis = true ∧ s.regs.flag = true
       ∧ (s.pad .sda).txdis = true) := by decide

theorem witness_readByte : open0.seq = [] ∧ open0.life = .live ∧ (open0.pad .scl).txdis = false
    ∧ open0.openDrain = true := by decide

/-- Inside a transaction, and from a released bus with a start. -/
theorem witness_bitsMove : open0.seq = [] ∧ open0.life = .live ∧ (open0.pad .scl).txdis = false
    ∧ live0.seq = [] ∧ live0.life = .live ∧ (live0.pad .sda).txdis = true
    ∧ { live0 with regs := { live0.regs with flag := true } }.regs.flag = true := by decide

/-- S2 for 0xA5. -/
theorem witness_loopback :
    let u := { open0 with regs := { open0.regs with byte := 0xA5 } }
    let s := { open0 with slave := sentByte 0xA5 }
    u.seq = [] ∧ u.life = .live ∧ (u.pad .scl).txdis = false ∧ u.regs.flag = false
    ∧ s.seq = [] ∧ s.life = .live
    ∧ answersNext (exec .writeByte u) = true
    ∧ ∀ k, k < 8 → (symbolsBetween u (after (exec .writeByte u)))[k + if u.regs.flag then 1 else 0]?
        = some (.bit (s.answerAt (9 * k + 6))) := by
  decide +kernel

theorem witness_phaseAfterHostWrites : open0.seq = [] ∧ open0.phase = some .inTransaction
    ∧ live0.seq = [] ∧ live0.phase = some .busIdle := by decide

/-- Inside a transaction, on an idle bus, and an idle bus with the start. -/
theorem witness_phaseAfterBitCells :
    (open0.seq = [] ∧ open0.life = .live ∧ open0.phase = some .inTransaction)
    ∧ (live0.seq = [] ∧ live0.life = .live ∧ live0.phase ≠ some .inTransaction
      ∧ live0.regs.flag = false)
    ∧ { live0 with regs := { live0.regs with flag := true } }.regs.flag = true
    ∧ slotOf .wireAck ≠ .request := by decide

theorem witness_everyEventIsOneInstant :
    exec .construct v38 = .next (after (exec .construct v38))
    ∧ exec .start live0 = .next (after (exec .start live0)) := ⟨rfl, rfl⟩

/-- A fight recorded before; for the other clauses a fight at a read, after a `setTx`, and after a
`setConfig`. -/
theorem witness_fightsStayRecorded :
    (let s := { live0 with contention := true }
     exec .delay s = .next (after (exec .delay s)) ∧ s.contention = true)
    ∧ (let s := { withPad live0 { idleWord with txdis := false, txlvl := true } with slave := [pulls] }
       s.seq = [] ∧ s.driversFight s.pads 0)
    ∧ (let s := { open0 with slave := [quiet, pulls], regs := { open0.regs with flag := true } }
       s.seq = [] ∧ s.driversFight (after (exec (.setTx .sda) s)).pads 1)
    ∧ (let s := { live0 with
         slave := [pulls]
         regs := { live0.regs with cfg := { idleWord with txdis := false, txlvl := true } } }
       s.seq = [] ∧ s.driversFight (after (exec (.setConfig .sda) s)).pads 0) :=
  ⟨⟨rfl, rfl⟩, ⟨rfl, .sda, rfl, rfl, rfl, rfl⟩, ⟨rfl, .sda, rfl, rfl, rfl, rfl⟩,
    ⟨rfl, .sda, rfl, rfl, rfl, rfl⟩⟩

theorem witness_engineChangesDrivesOnly :
    needsEngine .stop = true ∧ Instr.stop ≠ .teardown ∧ open0.seq = [] ∧ open0.life = .live
    ∧ open0.openDrain = true ∧ open0.linesConfigured = true := by decide

theorem witness_noConditionInsideATransaction :
    needsEngine .writeByte = true ∧ open0.seq = [] ∧ open0.life = .live
    ∧ (open0.pad .scl).txdis = false ∧ open0.regs.flag = false := by decide

/-- The first length that is too long. -/
theorem witness_overlongBlockWrite :
    let s := { block0 with regs := { block0.regs with txbuf := List.replicate 33 1 } }
    s.seq = [] ∧ s.life = .live ∧ 32 < s.regs.txbuf.length := by decide

/-- Both branches at the boundary, and the premise of the wire clause. -/
theorem witness_blockWrite :
    let s := { block0 with regs := { block0.regs with txbuf := List.replicate 32 1 } }
    let v := { block0 with regs := { block0.regs with txbuf := List.replicate 33 1 } }
    s.seq = [] ∧ s.life = .live ∧ ¬ s.regs.txbuf.length > 32 ∧ (s.pad .scl).txdis = true
    ∧ (s.pad .sda).txdis = true ∧ s.openDrain = true ∧ v.regs.txbuf.length > 32 := by decide

/-- Both branches: the address not acknowledged, and all three header bytes acknowledged. -/
theorem witness_blockRead :
    let header : List Frame := [(0x46, true), (0x08, false), (0x47, true)]
    let s := { block0 with slave := List.replicate 93 quiet }
    let v := { block0 with slave := List.replicate 241 pulls }
    s.seq = [] ∧ s.life = .live ∧ (s.pad .scl).txdis = true ∧ (s.pad .sda).txdis = true
    ∧ s.openDrain = true ∧ ackedFrames s.answerAt 0 header = 0 ∧ v.seq = [] ∧ v.life = .live
    ∧ ackedFrames v.answerAt 0 header = 3 := by decide +kernel

/-- Both branches: the address not acknowledged, and all four header bytes acknowledged. -/
theorem witness_readAtOffset :
    let header : List Frame := [(0x46, true), (0x12, false), (0x34, false), (0x47, true)]
    let s := { block0 with slave := List.replicate 93 quiet }
    let v := { block0 with slave := List.replicate 314 pulls }
    s.seq = [] ∧ s.life = .live ∧ (s.pad .scl).txdis = true ∧ (s.pad .sda).txdis = true
    ∧ s.openDrain = true ∧ ackedFrames s.answerAt 0 header = 0 ∧ v.seq = [] ∧ v.life = .live
    ∧ ackedFrames v.answerAt 0 header = 4 := by decide +kernel

theorem witness_transferIsOneTransaction :
    block0.seq = [] ∧ block0.life = .live ∧ (block0.pad .scl).txdis = true
    ∧ (block0.pad .sda).txdis = true ∧ block0.regs.txbuf.length ≤ 32 := by decide

theorem witness_wireByte :
    (Instr.wireCount 32).wellFormed = true ∧ slotOf (.wireCount 32) ≠ .request
    ∧ slotOf (.wireCount 32) ≠ .ackBit ∧ open0.seq = [] ∧ open0.life = .live
    ∧ (open0.pad .scl).txdis = false ∧ open0.openDrain = true := by decide

theorem witness_wireAck : open0.seq = [] ∧ open0.life = .live ∧ (open0.pad .scl).txdis = false
    ∧ open0.openDrain = true := by decide

theorem witness_resultRegisters :
    exec .readBit open0 = .next (after (exec .readBit open0)) := rfl

/-- In the middle of a start: SDA has been released and step 2 is next. -/
def midStart : State :=
  { live0 with
    seq := [{ (entryOf .start live0.regs) with nextStep := 2, entry := some .busIdle }]
    phase := some .undefined }

/-- A state with the invariant in the middle of an operation, whose next step is one of the sequencer. -/
theorem witness_everyStepKeepsTheInvariant :
    midStart.Inv ∧ step midStart = .next (after (step midStart)) := by
  refine ⟨⟨⟨by decide, by decide, by decide, by decide, by decide⟩,
    ⟨by decide, by decide, by decide, by decide, by decide, by decide, ?_, by decide⟩⟩, rfl⟩
  intro f hf l r h
  rw [List.mem_singleton.mp hf] at h
  cases l <;> cases r <;> first | rfl | exact absurd h (by decide)

theorem witness_sequencerRunsTheListing :
    exec .start live0 = .next (after (exec .start live0)) := rfl

end Sys2Proof.Tests
end

section
/-! Construction and teardown (41_bit_engine.md R115, R116) in every order of their steps: the state after
the captures, the pads and the events of the settings, and from these the statements of 00_scope.md R5. -/

namespace Sys2Proof.Machine

open Sys2Proof

/-! ### The captures -/

/-- The word a read of line `l` returns at the event `k` events from now, the pads as they are. -/
def State.readWordAt (s : State) (k : Nat) (l : Line) : PadWord :=
  { s.pad l with rxlvl := inputLevel (s.pad l) ((s.sampleAt k).low l) (s.sampleAt k).draw }

/-- What the captures of the two lines, in the order given, put into SAVED (R26, R115). -/
def capturedWords (order : List Line) (s : State) : PerLine PadWord :=
  { scl := s.readWordAt (order.idxOf .scl) .scl, sda := s.readWordAt (order.idxOf .sda) .sda }

theorem capturedWords_stored (order : List Line) (s : State) (l : Line) :
    { (capturedWords order s).get l with rxlvl := (s.pad l).rxlvl } = s.pad l := by
  cases l <;> rfl

theorem accessCount_append (es es' : List Event) :
    accessCount (es ++ es') = accessCount es + accessCount es' := List.countP_append

theorem delayCount_append (es es' : List Event) :
    delayCount (es ++ es') = delayCount es + delayCount es' := List.countP_append

/-- The events of the captures. -/
def captureEvents (order : List Line) (s : State) : List Event :=
  order.map (fun l => .rd l ((capturedWords order s).get l))

theorem captureEvents_shape (order : List Line) (s : State) :
    (captureEvents order s).map Event.shape = order.map Shape.read := by
  rw [captureEvents, List.map_map]
  rfl

theorem accessCount_captureEvents (order : List Line) (s : State) :
    accessCount (captureEvents order s) = order.length := by
  simp [accessCount, captureEvents, List.countP_map, Event.isDelay, Function.comp_def]

theorem delayCount_captureEvents (order : List Line) (s : State) :
    delayCount (captureEvents order s) = 0 := by
  simp [delayCount, captureEvents, List.countP_map, Event.isDelay, Function.comp_def]

/-- One capture after another: two reads, with the pads as they were. -/
theorem capture_capture (a b : Line) (s : State) :
    capture b (capture a s) =
      { s with
        saved := (s.saved.set a (s.readWordAt 0 a)).set b (s.readWordAt 1 b)
        trace := s.record [.rd a (s.readWordAt 0 a), .rd b (s.readWordAt 1 b)]
        instant := s.instant + 2
        contention := (capture b (capture a s)).contention } := by
  have hread : (capture a s).readWord b = s.readWordAt 1 b := rfl
  have htrace : (capture a s).record [.rd b (s.readWordAt 1 b)]
      = s.record [.rd a (s.readWordAt 0 a), .rd b (s.readWordAt 1 b)] :=
    State.record_append (t := capture a s) (congrArg State.trace (capture_eq a s)) rfl _
  rw [capture_eq b, hread, htrace]
  rfl

/-- The capture loop of construction reads each line once and leaves the pads alone. -/
theorem captures_eq {order : List Line} (h : order.Perm [.scl, .sda]) (s : State) :
    ∃ c, order.foldl (fun t l => capture l t) s =
      { s with
        saved := capturedWords order s
        trace := s.record (captureEvents order s)
        instant := s.instant + 2
        contention := c } := by
  rcases lineOrder_cases h with rfl | rfl
  · exact ⟨_, capture_capture .scl .sda s⟩
  · exact ⟨_, capture_capture .sda .scl s⟩

/-! ### The settings -/

/-- Two settings of one word, in either order. -/
theorem settingWord_comm (p q : PadSetting) (w : PadWord) :
    settingWord q (settingWord p w) = settingWord p (settingWord q w) := by
  cases p <;> cases q <;> rfl

/-- Settings in another order leave the same pads (92 D8). -/
theorem settledPads_perm {settings settings' : List (Line × PadSetting)}
    (h : settings.Perm settings') (p : PerLine PadWord) :
    settledPads settings p = settledPads settings' p := by
  refine h.foldl_eq' ?_ p
  rintro ⟨l, x⟩ - ⟨m, y⟩ - q
  cases l <;> cases m <;> simp [settingWord_comm x y]

/-- Both lines as construction leaves them: GPIO, input enabled, driver off, level low (R115). -/
def configuredPads (p : PerLine PadWord) : PerLine PadWord :=
  { scl := { p.scl with pmode := .gpio, rxdis := false, txdis := true, txlvl := false }
    sda := { p.sda with pmode := .gpio, rxdis := false, txdis := true, txlvl := false } }

/-- The eight settings in any order configure both lines. -/
theorem settledPads_eq_configuredPads {settings : List (Line × PadSetting)}
    (h : settings.Perm Config.defaultConstructOrder) (p : PerLine PadWord) :
    settledPads settings p = configuredPads p :=
  (settledPads_perm h p).trans rfl

/-- The shapes of the events of some settings, from the pads `p` on: a read and a write each. -/
def settingsShape (settings : List (Line × PadSetting)) (p : PerLine PadWord) : List Shape :=
  match settings with
  | [] => []
  | x :: rest =>
    let w := settingWord x.2 (p.get x.1)
    [.read x.1, .write x.1 (released w)] ++ settingsShape rest (p.set x.1 w)

/-- A setting makes the same of the drive whatever the input level is. -/
theorem released_settingWord_readWord (x : PadSetting) (l : Line) (s : State) :
    released (settingWord x (s.readWord l)) = released (settingWord x (s.pad l)) := by
  cases x <;> rfl

/-- The events of the settings loop by their shapes. -/
theorem applySettings_shape (settings : List (Line × PadSetting)) (s : State) :
    ∃ es, (settings.foldl (fun t p => applySetting p.1 p.2 t) s).trace = s.record es
      ∧ es.map Event.shape = settingsShape settings s.pads := by
  induction settings generalizing s with
  | nil => exact ⟨[], by simp, rfl⟩
  | cons x rest ih =>
    have hx := applySetting_eq x.1 x.2 s
    obtain ⟨es, htrace, hshape⟩ := ih (applySetting x.1 x.2 s)
    have hopen : (applySetting x.1 x.2 s).traceOpen = s.traceOpen := by
      rw [hx]
      rfl
    rw [State.record_append (congrArg State.trace hx) hopen] at htrace
    refine ⟨_, htrace, ?_⟩
    rw [List.map_append, hshape, hx]
    simp only [List.map_cons, List.map_nil, Event.shape, released_settingWord_readWord]
    rfl

/-! ### Construction -/

/-- The state in which the listing of `construct` starts: T empty, SEQ in the listing (R30, R40). -/
def State.underConstruction (s : State) : State :=
  { s with trace := [], seq := [SeqFrame.start .construct .scl s.regs] }

/-- Construction is its captures, then its settings, then the three writes that end it. -/
theorem constructWith_stages (captures : List Line) (settings : List (Line × PadSetting)) (s : State) :
    constructWith captures settings s =
      { settings.foldl (fun t p => applySetting p.1 p.2 t)
          (captures.foldl (fun t l => capture l t) s.underConstruction) with
        life := .live, phase := some .busIdle, seq := [] } := rfl

theorem State.underConstruction_traceOpen (s : State) : s.underConstruction.traceOpen = true := by
  simp [State.traceOpen, State.underConstruction, SeqFrame.start]

/-- The events of a construction: the captures in the order given, then a read and a write for each
setting in the order given. -/
structure ConstructEvents (captures : List Line) (settings : List (Line × PadSetting)) (s : State)
    (es : List Event) : Prop where
  shapes : es.map Event.shape = captures.map Shape.read ++ settingsShape settings s.pads
  accesses : accessCount es = captures.length + 2 * settings.length
  delays : delayCount es = 0

/-- Construction in any order of its captures and settings (R115, R198). -/
theorem constructWith_eq {captures : List Line} {settings : List (Line × PadSetting)}
    (hc : captures.Perm [.scl, .sda]) (hs : settings.Perm Config.defaultConstructOrder) (s : State) :
    ∃ es j c, constructWith captures settings s =
      { s with
        pads := configuredPads s.pads
        saved := capturedWords captures s
        life := .live, phase := some .busIdle, seq := []
        trace := es, instant := j, contention := c }
      ∧ ConstructEvents captures settings s es := by
  rw [constructWith_stages]
  obtain ⟨c, h1⟩ := captures_eq hc s.underConstruction
  generalize captures.foldl (fun t l => capture l t) s.underConstruction = s1 at h1 ⊢
  have h2 := applySettings_settled settings s1
  obtain ⟨es, htrace, haccesses, hdelays⟩ := h2.events
  obtain ⟨es', htrace', hshape⟩ := applySettings_shape settings s1
  generalize settings.foldl (fun t p => applySetting p.1 p.2 t) s1 = s2 at h2 htrace htrace' ⊢
  have hopen1 : s1.traceOpen = true :=
    (congrArg State.traceOpen h1).trans s.underConstruction_traceOpen
  have htrace1 : s1.trace = captureEvents captures s :=
    (congrArg State.trace h1).trans (State.record_of_open s.underConstruction_traceOpen _)
  rw [State.record_of_open hopen1, htrace1] at htrace htrace'
  obtain rfl : es = es' := List.append_cancel_left (htrace.symm.trans htrace')
  have hpads1 : s1.pads = s.pads := by rw [h1]; rfl
  refine ⟨captureEvents captures s ++ es, s2.instant, s2.contention, ?_, ?_, ?_, ?_⟩
  · refine State.eq_of_fields ?_ ?_ rfl rfl rfl htrace ?_ ?_ ?_ rfl rfl
    · exact h2.pads.trans (hpads1 ▸ settledPads_eq_configuredPads hs s1.pads)
    · exact h2.saved.trans (by rw [h1]; rfl)
    · exact h2.regs.trans (by rw [h1]; rfl)
    · exact h2.requests.trans (by rw [h1]; rfl)
    · exact h2.slave.trans (by rw [h1]; rfl)
  · rw [List.map_append, captureEvents_shape, hshape, hpads1]
  · rw [accessCount_append, accessCount_captureEvents, haccesses]
  · rw [delayCount_append, delayCount_captureEvents, hdelays]

/-- Construction while Idle and Absent, not for one pad twice, runs its listing (R115, R169). -/
theorem exec_construct_of_absent {s : State} (hseq : s.seq = []) (hlife : s.life = .absent)
    (hpads : s.regs.clock = none ∨ s.regs.clock ≠ s.regs.data) :
    exec .construct s = .next (constructWith Config.captureOrder Config.constructOrder s) := by
  have hsame : samePad s.regs = false := by
    unfold samePad
    split <;> simp_all
  change execConstruct s = _
  simp [execConstruct, whenIdle, hseq, hlife, hsame]

/-- Settles O29: `constructWith_eq`, the first two events being the captures and the accesses two captures
and two for each of eight settings. -/
theorem constructEndStateForEveryOrder : Obligations.ConstructEndStateForEveryOrder := by
  intro captures settings s hc hs
  obtain ⟨es, j, c, heq, hes⟩ := constructWith_eq hc hs s
  refine ⟨capturedWords captures s, es, c, j, heq, capturedWords_stored captures s, ?_, ?_, hes.delays⟩
  · rw [List.map_take, hes.shapes]
    exact List.take_left' (by rw [List.length_map]; exact hc.length_eq)
  · rw [hes.accesses, hc.length_eq, hs.length_eq]
    rfl

/-- Settles O28: the first clause is `constructWith_eq` for the orders of this hardware, the second
that for the default orders, whose shapes compute to the listing. -/
theorem constructCapturesAndConfigures : Obligations.ConstructCapturesAndConfigures := by
  intro s hseq hlife hpads
  refine ⟨?_, ?_⟩
  · obtain ⟨sv, es, c, j, heq, hsaved, -, haccesses, hdelays⟩ :=
      constructEndStateForEveryOrder _ _ s captureOrder_perm constructOrder_perm
    have hexec := exec_construct_of_absent hseq hlife hpads
    refine ⟨_, _, sv, es, c, j, captureOrder_perm, constructOrder_perm, hexec, ?_, hsaved, haccesses,
      hdelays⟩
    rw [hexec, heq]
    simp [hseq]
  · obtain ⟨es, j, c, heq, hes⟩ := constructWith_eq (List.Perm.refl _) (List.Perm.refl _) s
    refine ⟨es, c, j, ?_, hes.shapes⟩
    refine heq.trans ?_
    rw [← hseq]
    rfl

/-! ### Teardown -/

/-- One restoring write after another, on two different lines. -/
theorem setConfig_setConfig {a b : Line} (hab : b ≠ a) (u v : PadWord) (s : State) :
    setConfig b v (setConfig a u s) =
      { s with
        pads := (s.pads.set a { u with rxlvl := (s.pad a).rxlvl }).set b
          { v with rxlvl := (s.pad b).rxlvl }
        trace := s.record [.wr a u, .wr b v]
        instant := s.instant + 2
        contention := (setConfig b v (setConfig a u s)).contention } := by
  have hpad : (setConfig a u s).pad b = s.pad b := PerLine.get_set_other _ _ _ _ hab
  have htrace : (setConfig a u s).record [.wr b v] = s.record [.wr a u, .wr b v] :=
    State.record_append (t := setConfig a u s) (congrArg State.trace (setConfig_eq a u s)) rfl _
  rw [setConfig_eq b, hpad, htrace]
  rfl

/-- Teardown with its writes in the order `a`, `b`. -/
theorem teardownWith_pair {a b : Line} (hab : b ≠ a) (s : State) :
    ∃ c j, teardownWith [a, b] s =
      { s with
        pads := (s.pads.set a { s.saved.get a with rxlvl := (s.pad a).rxlvl }).set b
          { s.saved.get b with rxlvl := (s.pad b).rxlvl }
        life := .absent, phase := none
        trace := s.record [.wr a (s.saved.get a), .wr b (s.saved.get b)]
        instant := j, contention := c } :=
  ⟨_, _, congrArg (fun t : State => { t with life := .absent, phase := none })
    (setConfig_setConfig hab (s.saved.get a) (s.saved.get b) s)⟩

/-- Teardown in either order of its writes, while Live (R116). -/
theorem teardownWith_eq {order : List Line} (ho : order.Perm [.scl, .sda]) {s : State}
    (hlife : s.life = .live) :
    ∃ c j, teardownWith order s =
      { s with
        pads := { scl := { s.saved.scl with rxlvl := s.pads.scl.rxlvl }
                  sda := { s.saved.sda with rxlvl := s.pads.sda.rxlvl } }
        life := .absent, phase := none
        trace := s.trace ++ order.map (fun l => Event.wr l (s.saved.get l))
        instant := j, contention := c } := by
  rw [← State.record_of_live hlife]
  rcases lineOrder_cases ho with rfl | rfl
  · exact teardownWith_pair (by decide) s
  · exact teardownWith_pair (by decide) s

/-- Teardown while Idle and Live runs its listing (R116, R169). -/
theorem exec_teardown_of_live {s : State} (hseq : s.seq = []) (hlife : s.life = .live) :
    exec .teardown s = .next (teardownWith Config.teardownOrder s) := by
  change execTeardown s = _
  simp [execTeardown, whenLive, whenIdle, hseq, hlife]

/-- Settles O30: `teardownWith_eq` for the order of this hardware and for the default order. -/
theorem teardownWritesTheSavedWords : Obligations.TeardownWritesTheSavedWords := by
  intro s hseq hlife
  obtain ⟨c, j, heq⟩ := teardownWith_eq teardownOrder_perm hlife
  have hexec := exec_teardown_of_live hseq hlife
  exact ⟨⟨_, c, j, teardownOrder_perm, hexec.trans (congrArg _ heq), hexec⟩,
    teardownWith_eq (List.Perm.refl _) hlife⟩

end Sys2Proof.Machine
end

section
/-! Every served request runs its listing in SEQ to the state `exec` answers (10_state.md R30): `exec_runs`
collects the `X_runs` laws over the instructions, and `tick_stackOk` keeps SEQ a stack of calls. -/

namespace Sys2Proof.Machine

open Sys2Proof

/-! ### What a served request leaves in SEQ -/

/-- A listing under no other ends in the state with its result stored, SEQ Idle. -/
theorem runs_stored {p u : State} {x : Result} (hu : u.seq = []) (h : Runs p (ended x [] u)) :
    Runs p { u with regs := storeResult x u.regs } ∧ u.seq = [] := by
  rw [ended_nil hu rfl] at h
  exact ⟨h, hu⟩

/-- A byte on the wire, as a request of note 24, runs the listing of its byte frame. -/
theorem wireByte_served {d : Byte} {s t : State} (h : sendWireByte d s = .next t) :
    Runs (s.withSeq [writeByteCall s.regs d false]) t ∧ t.seq = [] := by
  refine ⟨wireByte_runs d s t h, ?_⟩
  obtain ⟨hs, -, ht⟩ := live_of_next h
  cases ht
  exact (writeByte_performed (d, false) s).1.seq.trans hs

theorem seq_openIdentity (id : PadId) (s : State) : (openIdentity id s).seq = s.seq := by
  unfold openIdentity
  split <;> rfl

theorem seq_teardownWith (order : List Line) (s : State) : (teardownWith order s).seq = s.seq := by
  show (order.foldl (fun t l => setConfig l (t.saved.get l) t) s).seq = s.seq
  induction order generalizing s with
  | nil => rfl
  | cons l order ih => exact ih (setConfig l (s.saved.get l) s)

/-- A request that `exec` serves is run by SEQ from step 1 of its listing to the state `exec` answers, and
leaves SEQ Idle (R30). -/
theorem exec_runs {i : Instr} {s t : State} (h : exec i s = .next t) :
    Runs (s.withSeq [entryOf i s.regs]) t ∧ t.seq = [] := by
  cases i with
  | openPad =>
    obtain ⟨hs, ht⟩ := idle_of_next h
    cases ht
    exact ⟨openPad_runs s.regs s hs, (seq_openIdentity _ s).trans hs⟩
  | getConfig l =>
    obtain ⟨hs, ht⟩ := idle_of_next h
    cases ht
    exact ⟨getConfig_runs l s.regs s hs, hs⟩
  | setConfig l =>
    obtain ⟨hs, ht⟩ := idle_of_next h
    cases ht
    exact ⟨setConfig_runs l s.regs s hs, (settlePhase_seq _).trans hs⟩
  | setPadMode l =>
    obtain ⟨hs, ht⟩ := idle_of_next h
    cases ht
    exact ⟨setPadMode_runs l s.regs s hs, (settlePhase_seq _).trans hs⟩
  | enableRx l =>
    obtain ⟨hs, ht⟩ := idle_of_next h
    cases ht
    exact ⟨enableRx_runs l s.regs s hs, (settlePhase_seq _).trans hs⟩
  | enableTx l =>
    obtain ⟨hs, ht⟩ := idle_of_next h
    cases ht
    exact ⟨enableTx_runs l s.regs s hs, (settlePhase_seq _).trans hs⟩
  | getRx l =>
    obtain ⟨hs, ht⟩ := idle_of_next h
    cases ht
    exact ⟨getRx_runs l s.regs s hs, hs⟩
  | getTx l =>
    obtain ⟨hs, ht⟩ := idle_of_next h
    cases ht
    exact ⟨getTx_runs l s.regs s hs, hs⟩
  | setTx l =>
    obtain ⟨hs, ht⟩ := idle_of_next h
    cases ht
    exact ⟨setTx_runs l s.regs s hs, (settlePhase_seq _).trans hs⟩
  | construct =>
    obtain ⟨-, ht⟩ := idle_of_next h
    split at ht
    · cases ht
    · split at ht
      · cases ht
      · cases ht
        exact ⟨construct_runs s.regs s, rfl⟩
  | teardown =>
    obtain ⟨hs, hl, ht⟩ := live_of_next h
    cases ht
    exact ⟨teardown_runs s.regs s hs hl, (seq_teardownWith _ s).trans hs⟩
  | start =>
    obtain ⟨hs, hl, ht⟩ := live_of_next h
    cases ht
    exact runs_stored ((start_performed s).seq.trans hs) (start_runs s.regs [] s hl)
  | stop =>
    obtain ⟨hs, hl, ht⟩ := live_of_next h
    cases ht
    exact runs_stored ((stop_performed s).seq.trans hs) (stop_runs s.regs [] s hl)
  | writeBit =>
    obtain ⟨hs, hl, ht⟩ := live_of_next h
    cases ht
    exact runs_stored ((writeBit_performed _ s).seq.trans hs) (writeBit_runs s.regs s.regs.bit [] s hl)
  | readBit =>
    obtain ⟨hs, hl, ht⟩ := live_of_next h
    cases ht
    exact runs_stored ((readBit_performed s).seq.trans hs) (readBit_runs s.regs [] s hl)
  | writeByte =>
    obtain ⟨hs, hl, ht⟩ := live_of_next h
    cases ht
    exact runs_stored ((writeByte_performed (s.regs.byte, s.regs.flag) s).1.seq.trans hs)
      (writeByte_runs s.regs s.regs.byte s.regs.flag [] s hl)
  | readByte =>
    obtain ⟨hs, hl, ht⟩ := live_of_next h
    cases ht
    exact runs_stored ((readByte_performed _ s).seq.trans hs) (readByte_runs s.regs s.regs.flag [] s hl)
  | delay =>
    obtain ⟨hs, -, ht⟩ := live_of_next h
    cases ht
    exact ⟨delay_runs s.regs s hs, hs⟩
  | smbusBlockWrite =>
    obtain ⟨hs, hl, ht⟩ := live_of_next h
    cases ht
    exact runs_stored ((seq_smbusBlockWrite _ _ _ s).trans hs) (smbusBlockWrite_runs s.regs [] s hl)
  | smbusBlockRead =>
    obtain ⟨hs, hl, ht⟩ := live_of_next h
    cases ht
    exact runs_stored ((seq_smbusBlockRead _ _ s).trans hs) (smbusBlockRead_runs s.regs [] s hl)
  | readAtOffset =>
    obtain ⟨hs, hl, ht⟩ := live_of_next h
    cases ht
    exact runs_stored ((seq_readAtOffset _ _ _ s).trans hs) (readAtOffset_runs s.regs [] s hl)
  | wireAddrWrite a => exact wireByte_served h
  | wireAddrRead a => exact wireByte_served h
  | wireCommand c => exact wireByte_served h
  | wireCount n => exact wireByte_served h
  | wireOffsetHigh c => exact wireByte_served h
  | wireOffsetLow c => exact wireByte_served h
  | wireData c => exact wireByte_served h
  | wireAck =>
    obtain ⟨hs, hl, ht⟩ := live_of_next h
    cases ht
    exact runs_stored ((writeBit_performed _ s).seq.trans hs) (writeBit_runs s.regs (ackBit true) [] s hl)
  | wireNack =>
    obtain ⟨hs, hl, ht⟩ := live_of_next h
    cases ht
    exact runs_stored ((writeBit_performed _ s).seq.trans hs) (writeBit_runs s.regs (ackBit false) [] s hl)

/-! ### SEQ stays a stack of calls -/

theorem saved_openIdentity (id : PadId) (s : State) : (openIdentity id s).saved = s.saved := by
  unfold openIdentity
  split <;> rfl

theorem saved_settlePhase (s : State) : (settlePhase s).saved = s.saved := (settlePhase_frame s).2.1

/-- A step that calls nothing ends its listing, SAVED as it was, or moves the top of SEQ to another step
of the same listing. -/
theorem localStep_cases (f : SeqFrame) (rest : List SeqFrame) (s : State) :
    (∃ x s1, localStep f rest s = returnResult x f rest s1 ∧ s1.saved = s.saved)
    ∨ ∃ f', localStep f rest s = { s with seq := f' :: rest } ∧ f'.operation = f.operation
        ∧ f'.line = f.line ∧ f'.operands = f.operands := by
  rcases hop : f.operation <;> simp only [localStep, hop]
  case openPad => exact .inl ⟨_, _, rfl, saved_openIdentity _ s⟩
  case setConfig | setPadMode | enableRx | enableTx | setTx =>
    exact .inl ⟨_, _, rfl, saved_settlePhase _⟩
  case drive =>
    refine .inl ⟨_, _, rfl, ?_⟩
    cases f.operands.bit <;> rfl
  case writeByte =>
    split
    · exact .inr ⟨_, rfl, hop, rfl, rfl⟩
    · exact .inl ⟨_, _, rfl, rfl⟩
  case readByte =>
    split
    · exact .inr ⟨_, rfl, rfl, rfl, rfl⟩
    · exact .inl ⟨_, _, rfl, rfl⟩
  case smbusBlockWrite =>
    split
    · split
      · exact .inl ⟨_, _, rfl, rfl⟩
      · exact .inr ⟨_, rfl, rfl, rfl, rfl⟩
    · exact .inl ⟨_, _, rfl, rfl⟩
  all_goals exact .inl ⟨_, _, rfl, rfl⟩

/-- A step of the sequencer keeps SEQ a stack of calls (R30). -/
theorem tick_stackOk {s : State} (h : stackOk s.saved s.seq = true) :
    stackOk (tick s).saved (tick s).seq = true := by
  rcases hq : s.seq with _ | ⟨f, rest⟩
  · rw [show tick s = s by simp only [tick, hq]]
    exact h
  · rw [hq] at h
    rcases hc : callOf f s.saved with _ | c
    · rw [tick_local hq hc]
      rcases localStep_cases f rest s with ⟨x, s1, he, hsav⟩ | ⟨f', he, h1, h2, h3⟩
      · rw [he]
        exact returnResult_stackOk h hsav
      · rw [he]
        exact stackOk_top h h1 h2 h3
    · rw [show tick s = callStep f c rest s by simp only [tick, hq, hc]]
      exact callStep_stackOk h hc

theorem iterate_tick_stackOk {s : State} (h : stackOk s.saved s.seq = true) (m : Nat) :
    stackOk (tick^[m] s).saved (tick^[m] s).seq = true := by
  induction m generalizing s with
  | zero => exact h
  | succ m ih => exact ih (tick_stackOk h)

/-- A request's listing is one a request moves SEQ into, at step 1 (R82). -/
theorem entryOf_requestable (i : Instr) (r : Registers) :
    requestable (entryOf i r).operation = true ∧ (entryOf i r).nextStep = 1 ∧ (entryOf i r).k = 0 := by
  cases i <;> exact ⟨rfl, rfl, rfl⟩

/-- A request that `exec` serves moves SEQ to step 1 of its listing and changes nothing else. -/
theorem post_of_next {i : Instr} {s t : State} (h : exec i s = .next t) :
    post i s = .next { s with seq := [entryOf i s.regs] } := by simp only [post, h]

/-- Settles O60: `exec_runs` gives the steps, `tick_stackOk` the depth of SEQ before each. -/
theorem sequencerRunsTheListing : Obligations.SequencerRunsTheListing := by
  intro i s t h
  refine ⟨post_of_next h, ?_⟩
  obtain ⟨⟨n, hbusy, hend⟩, hidle⟩ := exec_runs h
  have hstack : stackOk s.saved [entryOf i s.regs] = true := by
    simp [stackOk, (entryOf_requestable i s.regs).1]
  refine ⟨n, Nat.pos_of_ne_zero ?_, hend, fun m hm => ⟨List.length_pos_iff.mpr (hbusy m hm), ?_⟩⟩
  · rintro rfl
    have hq : t.seq = [entryOf i s.regs] := by rw [← hend]; rfl
    rw [hidle] at hq
    cases hq
  · exact stackOk_depth (iterate_tick_stackOk (s := s.withSeq [entryOf i s.regs]) hstack m)

end Sys2Proof.Machine
end

section
/-! The invariant of the block under every step (10_state.md R30, R34, R40): a step of the sequencer keeps it
(`tick_inv`), listing by listing; a request the host waits for keeps it because SEQ runs it (`exec_runs`). -/

namespace Sys2Proof.Machine

open Sys2Proof

variable {s t u : State} {f g : SeqFrame} {rest below : List SeqFrame} {x : Result}

/-! ### The instants of T and the drivers under the shared operations -/

/-- An event keeps what holds whatever the sequencer does. -/
theorem emit_invData (hs : s.InvData) (e : Event) : (emit e s).InvData :=
  ⟨hs.phaseDefined, hs.idleReleased, hs.openClockDriven, hs.countBound, record_bound hs.traceBound [e]⟩

/-- A read-modify-write is two events in two instants. -/
theorem modify_traceBound (hs : s.InvData) (l : Line) (w : PadWord → PadWord) :
    (modify l w s).trace.length ≤ (modify l w s).instant :=
  record_bound (s := { emit (.rd l (s.readWord l)) s with
      pads := s.pads.set l (storedWord (s.pad l) (w (s.readWord l))) })
    (record_bound hs.traceBound [_]) [_]

/-- A word stored with the driver it had leaves every driver as it was. -/
theorem txdis_set_of_kept (p : PerLine PadWord) {l : Line} {w : PadWord}
    (h : w.txdis = (p.get l).txdis) (m : Line) : ((p.set l w).get m).txdis = (p.get m).txdis := by
  cases l <;> cases m <;> first | exact h | rfl

/-- `enableTx` sets the driver of its line and no other (R95). -/
theorem txdis_enableTx (l : Line) (b : Bool) (s : State) (m : Line) :
    ((enableTx l b s).pad m).txdis = if l = m then !b else (s.pad m).txdis := by
  cases l <;> cases m <;> rfl

/-- The drivers after a call that sets none of them, or as `drivenBy` says. -/
def DrivenAs (f : SeqFrame) (s s1 : State) : Prop :=
  ∀ l, match drivenBy l f with
    | some r => (s1.pad l).txdis = r
    | none => (s1.pad l).txdis = (s.pad l).txdis

/-- A call that sets no driver and stores every word with the driver it had. -/
theorem drivenAs_of_kept {s1 : State} (h : ∀ l, drivenBy l f = none)
    (hk : ∀ l, (s1.pad l).txdis = (s.pad l).txdis) : DrivenAs f s s1 := by
  intro l
  rw [h l]
  exact hk l

/-- A call that enables or disables the driver of its line. -/
theorem drivenAs_enableTx {b : Bool} {l : Line}
    (h : ∀ m, drivenBy m f = if l = m then some (!b) else none) : DrivenAs f s (enableTx l b s) := by
  intro m
  rw [h m, txdis_enableTx]
  by_cases hm : l = m <;> simp [hm]

/-! ### The end of each kind of listing -/

/-- The registers after `open` (R90). -/
def openedRegs (id : PadId) (r : Registers) : Registers :=
  { r with
    handle := if Config.resolves id then some id else none
    status := if Config.resolves id then .ok else .identityNotFound id }

/-- `open` writes its result registers and nothing else. -/
theorem openIdentity_eq (id : PadId) (s : State) :
    openIdentity id s = { s with regs := openedRegs id s.regs } := by
  unfold openIdentity openedRegs
  split <;> rfl

/-- `open` ends. -/
theorem openPad_return (hs : s.Inv) (hq : s.seq = f :: rest) (hop : f.operation = .openPad) (id : PadId) :
    (returnResult .nothing f rest (openIdentity id s)).Inv := by
  rw [openIdentity_eq]
  refine lineOp_return hs hq (by rw [hop]; rfl) (by simp [hop])
    ⟨hs.data.phaseDefined, hs.data.idleReleased, hs.data.openClockDriven, hs.data.countBound,
      hs.data.traceBound⟩ rfl rfl (by simp) (.inl (by simp)) (fun l => .inr ?_)
  exact drivenAs_of_kept (by simp [drivenBy, hop]) (fun _ => rfl) l

/-- `getConfig`, `getRx` or `getTx` ends: one read of its line. -/
theorem read_return (hs : s.Inv) (hq : s.seq = f :: rest)
    (hop : f.operation = .getConfig ∨ f.operation = .getRx ∨ f.operation = .getTx)
    (hx : ∀ n, x ≠ .accepted n) (hw : (∀ w, x ≠ .word w) ∨ f.operation = .getConfig) (e : Event) :
    (returnResult x f rest (emit e s)).Inv := by
  refine lineOp_return hs hq ?_ ?_ (emit_invData hs.data e) rfl rfl hx hw (fun l => .inr ?_)
  · rcases hop with h | h | h <;> rw [h] <;> rfl
  · rcases hop with h | h | h <;> simp [h]
  · refine drivenAs_of_kept (fun l => ?_) (fun _ => rfl) l
    rcases hop with h | h | h <;> simp [drivenBy, h]

/-- A GpioLine call that writes its line ends: PHASE is settled (R34). -/
theorem hostWrite_return (hs : s.Inv) (hq : s.seq = f :: rest) (hop : f.operation.ofEngine = false)
    (hop' : f.operation ≠ .construct) (hph : u.phase = s.phase) (hl : u.life = s.life)
    (hsav : u.saved = s.saved) (hr : u.regs = s.regs) (ht : u.trace.length ≤ u.instant)
    (hdrive : f.operation = .setConfig ∨ DrivenAs f s u) :
    (returnResult .nothing f rest (settlePhase u)).Inv := by
  refine lineOp_return hs hq hop hop' (settlePhase_inv hs.data hph hl hr ht)
    ((settlePhase_frame u).2.2.1.trans hl) ((saved_settlePhase u).trans hsav) (by simp) (.inl (by simp))
    (fun l => ?_)
  simp only [settlePhase_pad]
  exact hdrive.imp_right (fun h => h l)

/-- A read-modify-write that keeps the driver ends: `setPadMode`, `enableRx` or `setTx`. -/
theorem modify_return (hs : s.Inv) (hq : s.seq = f :: rest)
    (hop : f.operation = .setPadMode ∨ f.operation = .enableRx ∨ f.operation = .setTx) (l : Line)
    {w : PadWord → PadWord} (hw : ∀ v b, w { v with rxlvl := b } = { w v with rxlvl := b })
    (hk : ∀ v, (w v).txdis = v.txdis) :
    (returnResult .nothing f rest (settlePhase (modify l w s))).Inv := by
  refine hostWrite_return (u := modify l w s) hs hq ?_ ?_ rfl rfl rfl rfl (modify_traceBound hs.data l w)
    (.inr (drivenAs_of_kept (fun m => ?_) (fun m => ?_)))
  · rcases hop with h | h | h <;> rw [h] <;> rfl
  · rcases hop with h | h | h <;> simp [h]
  · rcases hop with h | h | h <;> simp [drivenBy, h]
  · rw [modify_eq l w s hw]
    exact txdis_set_of_kept s.pads (hk _) m

/-- `rel`, `low` or `drive` ends: one driver is set (R111 to R113). -/
theorem driver_return (hs : s.Inv) (hq : s.seq = f :: rest)
    (hop : f.operation = .rel ∨ f.operation = .low ∨ f.operation = .drive) {l : Line} {b : Bool}
    (hdrive : ∀ m, drivenBy m f = if l = m then some (!b) else none) :
    (returnResult .nothing f rest (enableTx l b s)).Inv := by
  refine leaf_return (s1 := enableTx l b s) hs hq ?_ rfl rfl rfl rfl (modify_traceBound hs.data l _) ?_
    (by simp) (by simp) (drivenAs_enableTx hdrive)
  · rcases hop with h | h | h <;> simp [h]
  · rcases hop with h | h | h <;> simp [h]

/-- `smp` or a delay ends: one event, the pads as they were (R110, R114). -/
theorem event_return (hs : s.Inv) (hq : s.seq = f :: rest)
    (hop : f.operation = .smp ∨ f.operation = .delay) (hx : ∀ n, x ≠ .accepted n)
    (hw : ∀ w, x ≠ .word w) (e : Event) : (returnResult x f rest (emit e s)).Inv := by
  refine leaf_return hs hq ?_ rfl rfl rfl rfl (record_bound hs.data.traceBound [e]) (fun _ => rfl) hx hw
    (drivenAs_of_kept (fun l => ?_) (fun _ => rfl))
  · rcases hop with h | h <;> simp [h]
  · rcases hop with h | h <;> simp [drivenBy, h]

/-- A block write under a listing that ends has its locals within its payload. -/
theorem caller_payload (hs : s.InvSeq) (hq : s.seq = f :: rest) :
    ∀ g below, rest = g :: below → g.operation = .smbusBlockWrite → payloadOk (resume x g) = true := by
  rintro g below rfl hg
  obtain ⟨-, hgm, c, hc, -⟩ := caller_facts hs hq
  exact payload_resume hg hc (hs.payload g hgm hg)

/-- PHASE after a cell is InTransaction or Undefined (R34). -/
theorem phaseAfterCell_cases (p : Option BusPhase) :
    ∃ q, phaseAfterCell p = some q ∧ (q = .undefined ∨ q = .inTransaction) := by
  unfold phaseAfterCell
  split
  next h => exact ⟨_, h, .inr rfl⟩
  · exact ⟨_, rfl, .inl rfl⟩

/-- `writeBit` or `readBit` ends. -/
theorem bitCell_return (hs : s.Inv) (hq : s.seq = f :: rest) (hc : callOf f s.saved = none)
    (hop : f.operation = .writeBit ∨ f.operation = .readBit) (hx : ∀ n, x ≠ .accepted n)
    (hw : ∀ w, x ≠ .word w) :
    (returnResult x f rest { s with phase := phaseAfterCell f.entry }).Inv := by
  obtain ⟨q, hphase, hcases⟩ := phaseAfterCell_cases f.entry
  rw [hphase]
  refine cell_return hs hq hc (by tauto) (hcases.imp_right (fun h => .inl ⟨h, ?_⟩)) hx hw
    (caller_payload hs.seq hq)
  rcases hop with h | h <;> simp [h]

/-- A construction or a teardown is a request itself: no listing calls it. -/
theorem rest_nil_of_life (hs : s.InvSeq) (hq : s.seq = f :: rest)
    (hop : f.operation = .construct ∨ f.operation = .teardown) : rest = [] := by
  have hstack := hs.stack
  rw [hq] at hstack
  match rest, hstack with
  | [], _ => rfl
  | g :: below, hstack =>
    obtain ⟨hc, ht, -⟩ := not_called_construct (stackOk_cons2.mp hstack).1
    exact absurd hop (by tauto)

/-- A construction or a teardown ends: LIFE and PHASE are written. -/
theorem life_return (hs : s.Inv) (hq : s.seq = f :: rest)
    (hop : f.operation = .construct ∨ f.operation = .teardown) {life : Life} {p : Option BusPhase}
    (hd : ({ s with life := life, phase := p } : State).InvData) :
    (returnResult .nothing f rest { s with life := life, phase := p }).Inv := by
  obtain rfl := rest_nil_of_life hs.seq hq hop
  refine return_inv (s1 := { s with life := life, phase := p }) hs hq hd (by simp) (.inl rfl) rfl
    (.inl (by simp)) (by simp) (fun l => .inr ?_) (by simp)
  refine drivenAs_of_kept (fun l => ?_) (fun _ => rfl) l
  rcases hop with h | h <;> simp [drivenBy, h]

/-- A construction ends with both lines released (R115). -/
theorem construct_return (hs : s.Inv) (hq : s.seq = f :: rest) (hc : callOf f s.saved = none)
    (hop : f.operation = .construct) :
    (returnResult .nothing f rest { s with life := .live, phase := some .busIdle }).Inv := by
  have hreleased : ∀ l, (s.pad l).txdis = true := by
    intro l
    refine hs.seq.driven f (by simp [hq]) l true ?_
    rw [straight_end hc (by rw [hop]; rfl)]
    exact lastDrive_construct hop s.saved l
  exact life_return hs hq (.inl hop) ⟨by simp, fun _ => ⟨hreleased .scl, hreleased .sda⟩, by simp,
    hs.data.countBound, hs.data.traceBound⟩

/-- A teardown ends. -/
theorem teardown_return (hs : s.Inv) (hq : s.seq = f :: rest) (hop : f.operation = .teardown) :
    (returnResult .nothing f rest { s with life := .absent, phase := none }).Inv :=
  life_return hs hq (.inr hop) ⟨by simp, by simp, by simp, hs.data.countBound, hs.data.traceBound⟩

/-- A step of `smbusBlockWrite` that calls nothing: the length test, or the return of the count. -/
theorem blockWrite_step (hs : s.Inv) (hq : s.seq = f :: rest) (hop : f.operation = .smbusBlockWrite) :
    (localStep f rest s).Inv := by
  have hrank : 3 ≤ rank f.operation := by rw [hop]; decide
  have hpay := hs.seq.payload f (by simp [hq]) hop
  simp only [localStep, hop]
  split
  next h1 =>
    rw [payloadOk, if_pos h1, decide_eq_true_eq] at hpay
    split
    · refine byte_return hs hq hrank ?_ (by simp)
      rintro n ⟨⟩
      decide
    next hlen =>
      refine advance_inv hs hq hrank hop.symm rfl rfl (by simp [SeqFrame.advance]) (fun _ => ?_)
      simp [payloadOk, SeqFrame.advance, h1, hpay]
      omega
  next h1 =>
    rw [payloadOk, if_neg h1, decide_eq_true_eq] at hpay
    obtain ⟨hlen, hcnt, hk, -⟩ := hpay
    refine byte_return hs hq hrank ?_ (by simp)
    rintro n ⟨⟩
    exact (hcnt.trans hk).trans hlen

/-! ### Every step -/

/-- A step that calls nothing keeps the invariant. -/
theorem localStep_inv (hs : s.Inv) (hq : s.seq = f :: rest) (hc : callOf f s.saved = none) :
    (localStep f rest s).Inv := by
  rcases hop : f.operation
  case smbusBlockWrite => exact blockWrite_step hs hq hop
  all_goals simp only [localStep, hop]
  case openPad => exact openPad_return hs hq hop _
  case getConfig => exact read_return hs hq (.inl hop) (by simp) (.inr hop) _
  case getRx => exact read_return hs hq (.inr (.inl hop)) (by simp) (.inl (by simp)) _
  case getTx => exact read_return hs hq (.inr (.inr hop)) (by simp) (.inl (by simp)) _
  case setConfig =>
    exact hostWrite_return hs hq (by rw [hop]; rfl) (by simp [hop]) rfl rfl rfl rfl
      (record_bound hs.data.traceBound [_]) (.inl hop)
  case setPadMode => exact modify_return hs hq (.inl hop) _ (fun _ _ => rfl) (fun _ => rfl)
  case enableRx => exact modify_return hs hq (.inr (.inl hop)) _ (fun _ _ => rfl) (fun _ => rfl)
  case setTx => exact modify_return hs hq (.inr (.inr hop)) _ (fun _ _ => rfl) (fun _ => rfl)
  case enableTx =>
    exact hostWrite_return hs hq (by rw [hop]; rfl) (by simp [hop]) rfl rfl rfl rfl
      (modify_traceBound hs.data _ _) (.inr (drivenAs_enableTx (by simp [drivenBy, hop])))
  case rel => exact driver_return hs hq (by simp [hop]) (by simp [drivenBy, hop])
  case low => exact driver_return hs hq (by simp [hop]) (by simp [drivenBy, hop])
  case drive =>
    cases hb : f.operands.bit
    · exact driver_return (l := .sda) (b := true) hs hq (by simp [hop])
        (by simp [drivenBy, hop, hb, eq_comm])
    · exact driver_return (l := .sda) (b := false) hs hq (by simp [hop])
        (by simp [drivenBy, hop, hb, eq_comm])
  case smp => exact event_return hs hq (.inl hop) (by simp) (by simp) _
  case delay => exact event_return hs hq (.inr hop) (by simp) (by simp) _
  case construct => exact construct_return hs hq hc hop
  case teardown => exact teardown_return hs hq hop
  case start =>
    exact cell_return hs hq hc (.inl hop) (.inr (.inl ⟨rfl, by simp [hop]⟩)) (by simp) (by simp)
      (caller_payload hs.seq hq)
  case stop =>
    exact cell_return hs hq hc (.inr (.inl hop)) (.inr (.inr ⟨rfl, hop⟩)) (by simp) (by simp)
      (caller_payload hs.seq hq)
  case writeBit => exact bitCell_return hs hq hc (.inl hop) (by simp) (by simp)
  case readBit => exact bitCell_return hs hq hc (.inr hop) (by simp) (by simp)
  case writeByte =>
    have hrank : 3 ≤ rank f.operation := by rw [hop]; decide
    split
    · exact advance_inv hs hq hrank rfl rfl rfl (by simp [SeqFrame.advance]) (by simp [hop])
    · exact byte_return hs hq hrank (by simp) (by simp)
  case readByte =>
    have hrank : 3 ≤ rank f.operation := by rw [hop]; decide
    split
    · exact advance_inv hs hq hrank hop.symm rfl rfl (by simp [SeqFrame.advance]) (by simp [hop])
    · exact byte_return hs hq hrank (by simp) (by simp)
  case smbusBlockRead | readAtOffset =>
    exact byte_return hs hq (by rw [hop]; decide) (by simp) (by simp)

/-- A step of the sequencer keeps the invariant (R30). -/
theorem tick_inv (hs : s.Inv) : (tick s).Inv := by
  rcases hq : s.seq with _ | ⟨f, rest⟩
  · rw [show tick s = s by simp only [tick, hq]]
    exact hs
  · rcases hc : callOf f s.saved with _ | c
    · rw [tick_local hq hc]
      exact localStep_inv hs hq hc
    · rw [show tick s = callStep f c rest s by simp only [tick, hq, hc]]
      exact callStep_inv hs hq hc

theorem iterate_tick_inv (hs : s.Inv) (n : Nat) : (tick^[n] s).Inv := by
  induction n generalizing s with
  | zero => exact hs
  | succ n ih => exact ih (tick_inv hs)

/-- A served request of an engine listing found LIFE Live, and a served `construct` found it Absent
(R169). -/
theorem life_of_next {i : Instr} (h : exec i s = .next t) :
    ((entryOf i s.regs).operation.ofEngine = true → s.life = .live)
    ∧ ((entryOf i s.regs).operation = .construct → s.life = .absent) := by
  cases i with
  | construct =>
    obtain ⟨-, ht⟩ := idle_of_next h
    cases hl : s.life with
    | absent => exact ⟨(nomatch ·), fun _ => rfl⟩
    | live => simp [hl] at ht
  | openPad | getConfig l | setConfig l | setPadMode l | enableRx l | enableTx l | getRx l | getTx l
  | setTx l => exact ⟨(nomatch ·), (nomatch ·)⟩
  | _ =>
    obtain ⟨-, hl, -⟩ := live_of_next h
    exact ⟨fun _ => hl, (nomatch ·)⟩

/-- A request that `exec` serves, posted, keeps the invariant. -/
theorem posted_inv {i : Instr} (hs : s.Inv) (h : exec i s = .next t) :
    ({ s with seq := [entryOf i s.regs] } : State).Inv := by
  obtain ⟨hreq, hstep, hk⟩ := entryOf_requestable i s.regs
  obtain ⟨hlive, habsent⟩ := life_of_next h
  refine ⟨⟨hs.data.phaseDefined, hs.data.idleReleased, hs.data.openClockDriven, hs.data.countBound,
    hs.data.traceBound⟩, ⟨by simp, by simp [stackOk, hreq], ?_, ?_, ?_, ?_, ?_, ?_⟩⟩
  all_goals
    intro g hg
    obtain rfl := List.mem_singleton.mp hg
  · exact hstep.ge
  · exact hlive
  · exact habsent
  · intro hcell
    simp only [inCell, hstep, ne_eq, not_true_eq_false, decide_false, Bool.and_false, Bool.or_false,
      decide_eq_true_eq] at hcell
    rcases hcell with h | h | h | h <;> rw [h] at hreq <;> cases hreq
  · intro l r hr
    rw [hstep] at hr
    cases hr
  · intro _
    simp [payloadOk, hstep, hk]

/-- A request run to its end keeps the invariant: it ends where SEQ does. -/
theorem exec_inv {i : Instr} (hs : s.Inv) (h : exec i s = .next t) : t.Inv := by
  obtain ⟨⟨n, -, rfl⟩, -⟩ := exec_runs h
  exact iterate_tick_inv (posted_inv hs h) n

theorem post_inv {i : Instr} (hs : s.Inv) (h : post i s = .next t) : t.Inv := by
  unfold post at h
  split at h
  next h' =>
    cases h
    exact posted_inv hs h'
  · cases h
  · cases h

/-- The invariant speaks of COUNT alone of the registers, and of nothing the host has still to do. -/
theorem inv_of_frame (hs : s.Inv) (r : Registers) (q : List HostAct) (hr : r.count = s.regs.count) :
    ({ s with regs := r, requests := q } : State).Inv :=
  ⟨⟨hs.data.phaseDefined, hs.data.idleReleased, hs.data.openClockDriven,
      (congrArg BitVec.toNat hr).le.trans hs.data.countBound, hs.data.traceBound⟩,
    ⟨hs.seq.depth, hs.seq.stack, hs.seq.stepsFromOne, hs.seq.engineLive, hs.seq.constructAbsent,
      hs.seq.cellPhase, hs.seq.driven, hs.seq.payload⟩⟩

/-- COUNT is no operand: handing operands over leaves it alone (R28). -/
theorem count_foldl_applyLoad (xs : List Load) (r : Registers) :
    (xs.foldl applyLoad r).count = r.count := by
  induction xs generalizing r with
  | nil => rfl
  | cons x xs ih =>
    rw [List.foldl_cons, ih]
    cases x <;> rfl

theorem raiseFailure_inv (hs : s.Inv) (e : Status) : (raiseFailure e s).Inv :=
  inv_of_frame hs { s.regs with status := e } s.requests rfl

/-- A request, waited for or not, keeps the invariant, served or refused. -/
theorem serveRequest_inv {run : Instr → State → Host.Outcome State Fault Refusal} {w : BitVec 9}
    (hrun : ∀ i u, run i s = .next u → u.Inv) (hs : s.Inv) (h : serveRequest run w s = .next t) :
    t.Inv := by
  unfold serveRequest at h
  split at h
  next i hi =>
    unfold recordRefusal at h
    split at h
    next hr =>
      cases h
      exact hrun i _ hr
    · cases h
    · cases h
      exact raiseFailure_inv hs _
  · cases h
    exact raiseFailure_inv hs _

theorem takeRequest_inv (hs : s.Inv) (r : Request) (q : List HostAct) : (takeRequest r q s).Inv :=
  inv_of_frame hs (r.loads.foldl applyLoad s.regs) q (count_foldl_applyLoad _ _)

/-- Settles O58, by what the host does: the sequencer goes on, a request is taken, operands land. -/
theorem everyStepKeepsTheInvariant : Obligations.EveryStepKeepsTheInvariant := by
  intro s t hs h
  unfold step at h
  split at h
  · cases h
  · split at h
    · cases h
      exact tick_inv hs
    next r q _ =>
      have hr := takeRequest_inv hs r q
      exact serveRequest_inv (fun _ _ => exec_inv hr) hr h
    next r q _ =>
      have hr := takeRequest_inv hs r q
      exact serveRequest_inv (fun _ _ => post_inv hr) hr h
    next xs q _ =>
      cases h
      exact inv_of_frame hs (xs.foldl applyLoad s.regs) q (count_foldl_applyLoad _ _)
    next q _ =>
      cases h
      exact tick_inv (inv_of_frame hs s.regs q rfl)

/-- Settles O57: nothing has happened yet. -/
theorem invariantHoldsAtReset : Obligations.InvariantHoldsAtReset :=
  ⟨⟨by decide, by decide, by decide, by decide, by decide⟩, invSeq_nil rfl⟩

end Sys2Proof.Machine
end

section
/-! What every instruction does to SAVED, T, the instants, the record of fights and the registers, said once
(`exec_served`); from it the statements that range over all instructions (10_state.md R26, R28, R29, R35,
R37, R40). -/

namespace Sys2Proof.Machine

open Sys2Proof

variable {s t u : State}

/-! ### Events and their instants -/

/-- Some events happen between `s` and `t`, one an instant: T takes them if it is open, and stays as open as
it was; a recorded fight stays recorded. -/
structure Elapsed (s t : State) : Prop where
  events : ∃ es, t.trace = s.record es ∧ t.instant = s.instant + es.length
  traceOpen : t.traceOpen = s.traceOpen
  fightsKept : s.contention = true → t.contention = true

namespace Elapsed

theorem refl (s : State) : Elapsed s s := ⟨⟨[], by simp⟩, rfl, id⟩

theorem trans (h : Elapsed s t) (h' : Elapsed t u) : Elapsed s u := by
  obtain ⟨es, htrace, hinstant⟩ := h.events
  obtain ⟨es', htrace', hinstant'⟩ := h'.events
  refine ⟨⟨es ++ es', htrace'.trans (State.record_append htrace h.traceOpen es'), ?_⟩,
    h'.traceOpen.trans h.traceOpen, fun hc => h'.fightsKept (h.fightsKept hc)⟩
  rw [hinstant', hinstant, List.length_append, Nat.add_assoc]

/-- A loop of steps. -/
theorem foldl {α : Type} {F : State → α → State} (hF : ∀ t a, Elapsed t (F t a)) (as : List α)
    (s : State) : Elapsed s (as.foldl F s) := by
  induction as generalizing s with
  | nil => exact refl s
  | cons a as ih => exact (hF s a).trans (ih (F s a))

end Elapsed

theorem emit_elapsed (e : Event) (s : State) : Elapsed s (emit e s) :=
  ⟨⟨[e], rfl, rfl⟩, rfl, fun h => by simp [h]⟩

theorem memWrite_elapsed (l : Line) (v : PadWord) (s : State) : Elapsed s (memWrite l v s) :=
  ⟨⟨[.wr l v], rfl, rfl⟩, rfl, fun h => by simp [memWrite, h]⟩

theorem modify_elapsed (l : Line) (f : PadWord → PadWord) (s : State) : Elapsed s (modify l f s) :=
  (emit_elapsed (.rd l (s.readWord l)) s).trans (memWrite_elapsed l (f (s.readWord l)) _)

theorem settlePhase_elapsed (s : State) : Elapsed s (settlePhase s) := by
  obtain ⟨p, hp⟩ := settlePhase_eq s
  rw [hp]
  exact ⟨⟨[], by simp [State.withPhase], rfl⟩, rfl, id⟩

theorem capture_elapsed (l : Line) (s : State) : Elapsed s (capture l s) :=
  ⟨⟨[.rd l (s.readWord l)], rfl, rfl⟩, rfl, fun h => by simp [capture_eq, h]⟩

theorem applySetting_elapsed (l : Line) (p : PadSetting) (s : State) :
    Elapsed s (applySetting l p s) := by
  rw [applySetting_eq]
  exact ⟨⟨_, rfl, rfl⟩, rfl, fun h => by simp [h]⟩

/-! ### The engine's operations -/

/-- Some engine listing leads from `s` to `t`: its events, drives and ACKED, and nothing else. -/
def Performs (s t : State) : Prop := ∃ sh p ph, Performed s t sh p ph

theorem Performs.trans (h : Performs s t) (h' : Performs t u) : Performs s u := by
  obtain ⟨sh, p, ph, h⟩ := h
  obtain ⟨sh', p', ph', h'⟩ := h'
  exact ⟨_, _, _, h.trans h'⟩

theorem Performs.elapsed (h : Performs s t) : Elapsed s t := by
  obtain ⟨sh, p, ph, h⟩ := h
  obtain ⟨es, htrace, hshape⟩ := h.events
  refine ⟨⟨es, htrace, ?_⟩, h.traceOpen, h.fightsKept⟩
  rw [h.instant, ← hshape, List.length_map]

theorem Performs.saved (h : Performs s t) : t.saved = s.saved := by
  obtain ⟨_, _, _, h⟩ := h
  exact h.saved

theorem Performs.regs (h : Performs s t) : ∃ a, t.regs = { s.regs with acked := a } := by
  obtain ⟨_, _, _, h⟩ := h
  exact ⟨_, h.regs⟩

theorem refl_performs (s : State) : Performs s s := ⟨_, _, _, .refl s⟩
theorem stop_performs (s : State) : Performs s (stop s) := ⟨_, _, _, stop_performed s⟩
theorem readByte_performs (a : Bool) (s : State) : Performs s (readByte a s).2 :=
  ⟨_, _, _, readByte_performed a s⟩
theorem writeByte_performs (d : Byte) (f : Bool) (s : State) : Performs s (writeByte d f s).2 :=
  ⟨_, _, _, (writeByte_performed (d, f) s).1⟩

theorem sendPayload_performs (l : List Byte) (c : BitVec 6) (s : State) :
    Performs s (sendPayload l c s).2 := by
  induction l generalizing c s with
  | nil => exact refl_performs s
  | cons d l ih =>
    rw [sendPayload]
    split
    · exact (writeByte_performs d false s).trans (ih _ _)
    · exact writeByte_performs d false s

theorem sendHeader_performs (l : List (Byte × Bool)) (s : State) :
    Performs s (sendHeader .shortCircuit l s).2 := by
  induction l generalizing s with
  | nil => exact refl_performs s
  | cons h l ih =>
    rw [sendHeader]
    split
    · exact (writeByte_performs h.1 h.2 s).trans (ih _)
    · exact writeByte_performs h.1 h.2 s

theorem readData_performs (n : Nat) (out : List Byte) (s : State) :
    Performs s (readData n out s).2 := by
  induction n generalizing out s with
  | zero => exact refl_performs s
  | succ n ih => exact (readByte_performs _ s).trans (ih _ _)

theorem smbusBlockWrite_performs (a : BitVec 7) (c : Byte) (l : List Byte) (s : State) :
    Performs s (smbusBlockWrite a c l s).2 := by
  unfold smbusBlockWrite
  split
  · exact refl_performs s
  · refine Performs.trans ?_ (stop_performs _)
    split
    · exact (sendHeader_performs _ s).trans (sendPayload_performs _ _ _)
    · exact sendHeader_performs _ s

theorem smbusBlockRead_performs (a : BitVec 7) (c : Byte) (s : State) :
    Performs s (smbusBlockRead a c s).2 := by
  refine Performs.trans ?_ (stop_performs _)
  dsimp only
  split
  · exact ((sendHeader_performs _ s).trans (readByte_performs true _)).trans (readData_performs _ _ _)
  · exact sendHeader_performs _ s

theorem readAtOffset_performs (a : BitVec 7) (o : BitVec 16) (n : Nat) (s : State) :
    Performs s (readAtOffset a o n s).2 := by
  refine Performs.trans ?_ (stop_performs _)
  split
  · exact (sendHeader_performs _ s).trans (readData_performs _ _ _)
  · exact sendHeader_performs _ s

/-! ### The registers -/

theorem regs_writeBit (b : Bool) (s : State) : (writeBit b s).regs = s.regs := by cases b <;> rfl

theorem regs_readBits (order : List Nat) (v : Byte) (s : State) :
    (readBits order v s).2.regs = s.regs := by
  induction order generalizing v s with
  | nil => rfl
  | cons i order ih => exact (ih _ _).trans rfl

theorem regs_readByte (a : Bool) (s : State) : (readByte a s).2.regs = s.regs :=
  (regs_writeBit _ _).trans (regs_readBits bitOrder 0 s)

/-- The registers an instruction may change, and how (R28, R29, R90; ACKED by note 20). -/
def Instr.writes (i : Instr) (r r' : Registers) : Prop :=
  match i with
  | .openPad => ∃ h st, r' = { r with handle := h, status := st }
  | .getConfig _ => ∃ w, r' = { r with cfg := w }
  | .getRx _ | .getTx _ | .readBit => ∃ b, r' = { r with bit := b }
  | .readByte => ∃ d, r' = { r with byte := d }
  | .writeByte | .wireAddrWrite _ | .wireAddrRead _ | .wireCommand _ | .wireCount _
  | .wireOffsetHigh _ | .wireOffsetLow _ | .wireData _ => ∃ a, r' = { r with acked := a }
  | .smbusBlockWrite => ∃ a n, r' = { r with acked := a, count := n }
  | .smbusBlockRead | .readAtOffset => ∃ a out, r' = { r with acked := a, rxbuf := out }
  | _ => r' = r

/-! ### Every instruction -/

/-- What an instruction that answers a next state does to SAVED, to T and the instants, to the record of
fights and to the registers. -/
structure Served (i : Instr) (s t : State) : Prop where
  saved : i ≠ .construct → t.saved = s.saved
  events : ∃ es : List Event, t.instant = s.instant + es.length
    ∧ t.trace = if i = .construct then es else if s.life = .live then s.trace ++ es else s.trace
  fightsKept : s.contention = true → t.contention = true
  regs : Instr.writes i s.regs t.regs

/-- An instruction other than `construct`, from the events between the two states. -/
theorem served_of_elapsed {i : Instr} (hidle : s.seq = []) (hi : i ≠ .construct) (h : Elapsed s t)
    (hsaved : t.saved = s.saved) (hregs : Instr.writes i s.regs t.regs) : Served i s t := by
  obtain ⟨es, htrace, hinstant⟩ := h.events
  refine ⟨fun _ => hsaved, ⟨es, hinstant, ?_⟩, h.fightsKept, hregs⟩
  rw [htrace, State.record_of_idle hidle, if_neg hi]

/-- A listing of reads, drives and delays without a result of its own. -/
theorem served_of_listing {i : Instr} (hidle : s.seq = []) (hi : i ≠ .construct) (h : Performs s t)
    (hregs : Instr.writes i s.regs t.regs) : Served i s t :=
  served_of_elapsed hidle hi h.elapsed h.saved hregs

/-- A listing of reads, drives and delays whose result is stored. -/
theorem served_of_performs {i : Instr} {r : Registers} (hidle : s.seq = []) (hi : i ≠ .construct)
    (h : Performs s u) (hregs : Instr.writes i s.regs r) : Served i s { u with regs := r } :=
  served_of_elapsed hidle hi (t := { u with regs := r })
    ⟨h.elapsed.events, h.elapsed.traceOpen, h.elapsed.fightsKept⟩ h.saved hregs

/-- A write of the host, after which PHASE is settled. -/
theorem served_of_hostWrite {i : Instr} (hidle : s.seq = []) (hi : i ≠ .construct) (h : Elapsed s u)
    (hsaved : u.saved = s.saved) (hregs : u.regs = s.regs) (hw : Instr.writes i s.regs s.regs) :
    Served i s (settlePhase u) := by
  refine served_of_elapsed hidle hi (h.trans (settlePhase_elapsed u))
    ((saved_settlePhase u).trans hsaved) ?_
  rw [(settlePhase_frame u).2.2.2.1, hregs]
  exact hw

/-- The bytes the wire formats denote. -/
theorem served_of_wireByte {i : Instr} {d : Byte} (hi : i ≠ .construct)
    (hw : ∀ a, Instr.writes i s.regs { s.regs with acked := a }) (h : sendWireByte d s = .next t) :
    Served i s t := by
  obtain ⟨hidle, -, ht⟩ := live_of_next h
  cases ht
  have hp := writeByte_performs d false s
  obtain ⟨a, ha⟩ := hp.regs
  exact served_of_listing hidle hi hp (by rw [ha]; exact hw a)

/-- Construction begins T anew with its own events (R37, R40). -/
theorem construct_served (s : State) :
    Served .construct s (constructWith Config.captureOrder Config.constructOrder s) := by
  have hel := (Elapsed.foldl (fun t l => capture_elapsed l t) Config.captureOrder
    s.underConstruction).trans
    (Elapsed.foldl (fun t p => applySetting_elapsed p.1 p.2 t) Config.constructOrder _)
  obtain ⟨es, htrace, hinstant⟩ := hel.events
  refine ⟨fun h => absurd rfl h, ⟨es, hinstant, ?_⟩, hel.fightsKept, ?_⟩
  · rw [State.record_of_open s.underConstruction_traceOpen] at htrace
    exact htrace
  · obtain ⟨es', j, c, heq, -⟩ := constructWith_eq captureOrder_perm constructOrder_perm s
    rw [heq]
    exact rfl

/-- Teardown writes the saved words back, while Live. -/
theorem teardown_served (hlive : s.life = .live) :
    Served .teardown s (teardownWith Config.teardownOrder s) := by
  obtain ⟨es, htrace, hinstant⟩ := (Elapsed.foldl
    (fun t l => memWrite_elapsed l (t.saved.get l) t) Config.teardownOrder s).events
  have hkept := (Elapsed.foldl
    (fun t l => memWrite_elapsed l (t.saved.get l) t) Config.teardownOrder s).fightsKept
  obtain ⟨c, j, heq⟩ := teardownWith_eq teardownOrder_perm hlive
  refine ⟨fun _ => by rw [heq], ⟨es, hinstant, ?_⟩, hkept, by rw [heq]; exact rfl⟩
  rw [State.record_of_live hlive] at htrace
  rw [if_neg (by simp), if_pos hlive]
  exact htrace

/-- What every instruction that answers a next state does. -/
theorem exec_served {i : Instr} (h : exec i s = .next t) : Served i s t := by
  cases i with
  | openPad =>
    obtain ⟨hidle, ht⟩ := idle_of_next h
    cases ht
    rw [openIdentity_eq]
    exact served_of_performs hidle (by simp) (refl_performs s) ⟨_, _, rfl⟩
  | getConfig l | getRx l | getTx l =>
    obtain ⟨hidle, ht⟩ := idle_of_next h
    cases ht
    exact served_of_performs hidle (by simp) ⟨_, _, _, getConfig_performed l s⟩ ⟨_, rfl⟩
  | setConfig l =>
    obtain ⟨hidle, ht⟩ := idle_of_next h
    cases ht
    exact served_of_hostWrite hidle (by simp) (memWrite_elapsed l s.regs.cfg s) rfl rfl rfl
  | setPadMode l | enableRx l | enableTx l | setTx l =>
    obtain ⟨hidle, ht⟩ := idle_of_next h
    cases ht
    exact served_of_hostWrite hidle (by simp) (modify_elapsed l _ s) rfl rfl rfl
  | construct =>
    obtain ⟨-, ht⟩ := idle_of_next h
    split at ht
    · cases ht
    · split at ht
      · cases ht
      · cases ht
        exact construct_served s
  | teardown =>
    obtain ⟨-, hlive, ht⟩ := live_of_next h
    cases ht
    exact teardown_served hlive
  | start =>
    obtain ⟨hidle, -, ht⟩ := live_of_next h
    cases ht
    exact served_of_listing hidle (by simp) ⟨_, _, _, start_performed s⟩ rfl
  | stop =>
    obtain ⟨hidle, -, ht⟩ := live_of_next h
    cases ht
    exact served_of_listing hidle (by simp) (stop_performs s) rfl
  | delay =>
    obtain ⟨hidle, -, ht⟩ := live_of_next h
    cases ht
    exact served_of_listing hidle (by simp) ⟨_, _, _, delay_performed s⟩ rfl
  | writeBit | wireAck | wireNack =>
    obtain ⟨hidle, -, ht⟩ := live_of_next h
    cases ht
    exact served_of_listing hidle (by simp) ⟨_, _, _, writeBit_performed _ s⟩ (regs_writeBit _ s)
  | readBit =>
    obtain ⟨hidle, -, ht⟩ := live_of_next h
    cases ht
    exact served_of_performs hidle (by simp) ⟨_, _, _, readBit_performed s⟩ ⟨_, rfl⟩
  | readByte =>
    obtain ⟨hidle, -, ht⟩ := live_of_next h
    cases ht
    exact served_of_performs hidle (by simp) (readByte_performs s.regs.flag s)
      ⟨(readByte s.regs.flag s).1, by rw [regs_readByte]⟩
  | writeByte =>
    obtain ⟨hidle, -, ht⟩ := live_of_next h
    cases ht
    have hp := writeByte_performs s.regs.byte s.regs.flag s
    exact served_of_listing hidle (by simp) hp hp.regs
  | smbusBlockWrite =>
    obtain ⟨hidle, -, ht⟩ := live_of_next h
    cases ht
    have hp := smbusBlockWrite_performs s.regs.addr s.regs.cmd s.regs.txbuf s
    obtain ⟨a, ha⟩ := hp.regs
    exact served_of_performs hidle (by simp) hp ⟨a, _, by rw [ha]⟩
  | smbusBlockRead =>
    obtain ⟨hidle, -, ht⟩ := live_of_next h
    cases ht
    have hp := smbusBlockRead_performs s.regs.addr s.regs.cmd s
    obtain ⟨a, ha⟩ := hp.regs
    exact served_of_performs hidle (by simp) hp ⟨a, _, by rw [ha]⟩
  | readAtOffset =>
    obtain ⟨hidle, -, ht⟩ := live_of_next h
    cases ht
    have hp := readAtOffset_performs s.regs.addr s.regs.offset s.regs.length s
    obtain ⟨a, ha⟩ := hp.regs
    exact served_of_performs hidle (by simp) hp ⟨a, _, by rw [ha]⟩
  | wireAddrWrite _ | wireAddrRead _ | wireCommand _ | wireCount _ | wireOffsetHigh _
  | wireOffsetLow _ | wireData _ => exact served_of_wireByte (by simp) (fun a => ⟨a, rfl⟩) h

/-- Settles O32. -/
theorem savedIsWrittenByConstructOnly : Obligations.SavedIsWrittenByConstructOnly :=
  fun _ _ _ hi h => (exec_served h).saved hi

/-- Settles O44. -/
theorem everyEventIsOneInstant : Obligations.EveryEventIsOneInstant :=
  fun _ _ _ h => (exec_served h).events

/-- Settles O55: `Instr.writes` names the registers each instruction may change. -/
theorem resultRegistersAreWrittenByTheirOperations :
    Obligations.ResultRegistersAreWrittenByTheirOperations := by
  intro i s t h
  have hw := (exec_served h).regs
  generalize t.regs = r at hw ⊢
  cases i with
  | openPad | smbusBlockWrite | smbusBlockRead | readAtOffset =>
    obtain ⟨_, _, rfl⟩ := hw
    simp
  | getConfig _ | getRx _ | getTx _ | readBit | readByte | writeByte =>
    obtain ⟨_, rfl⟩ := hw
    simp
  | wireAddrWrite _ | wireAddrRead _ | wireCommand _ | wireCount _ | wireOffsetHigh _
  | wireOffsetLow _ | wireData _ =>
    obtain ⟨_, rfl⟩ := hw
    simp [slotOf]
  | _ =>
    obtain rfl := hw
    simp

end Sys2Proof.Machine
end

section
/-! The step and what it does with the host's next act (10_state.md R30, 60_exceptions.md R169, 70 R204), the
levels and fights at a read or a write (10_state.md R32), and PHASE after host writes and cells (R34). -/

namespace Sys2Proof.Machine

open Sys2Proof

variable {s t u : State}

/-! ### The step -/

/-- Settles O8. -/
theorem stepAfterDriversFoughtFaults : Obligations.StepAfterDriversFoughtFaults :=
  fun _ h => if_pos h

/-! Without a recorded fight a step is the host's next act. -/

section Acts

variable {r : Request} {xs : List Load} {rest : List HostAct} (hfight : s.contention = false)

include hfight

theorem step_of_no_act (hr : s.requests = []) : step s = .next (tick s) := by
  simp [step, hfight, hr]

theorem step_of_call (hr : s.requests = .call r :: rest) :
    step s = serveRequest exec r.word (takeRequest r rest s) := by
  simp [step, hfight, hr]

theorem step_of_post (hr : s.requests = .post r :: rest) :
    step s = serveRequest post r.word (takeRequest r rest s) := by
  simp [step, hfight, hr]

theorem step_of_load (hr : s.requests = .load xs :: rest) :
    step s = .next { s.handOver xs with requests := rest } := by
  simp [step, hfight, hr]

theorem step_of_wait (hr : s.requests = .wait :: rest) :
    step s = .next (tick { s with requests := rest }) := by
  simp [step, hfight, hr]

end Acts

theorem serveRequest_of_decode {run : Instr → State → Host.Outcome State Fault Refusal} {w : BitVec 9}
    {i : Instr} (h : decode .request w = .ok i) : serveRequest run w s = recordRefusal (run i s) s := by
  rw [serveRequest, h]

/-- What `exec` refuses `post` refuses. -/
theorem post_of_refused {i : Instr} {why : Refusal} (h : exec i s = .refused why) :
    post i s = .refused why := by rw [post, h]

/-- Settles O6: the request is taken, decoded and served, or its refusal recorded. -/
theorem stepRunsTheDecodedRequest : Obligations.StepRunsTheDecodedRequest := by
  rintro s s' r rest i hfight hdecode rfl
  have hcall : s.requests = .call r :: rest →
      step s = recordRefusal (exec i (takeRequest r rest s)) (takeRequest r rest s) :=
    fun hr => (step_of_call hfight hr).trans (serveRequest_of_decode hdecode)
  have hpost : s.requests = .post r :: rest →
      step s = recordRefusal (post i (takeRequest r rest s)) (takeRequest r rest s) :=
    fun hr => (step_of_post hfight hr).trans (serveRequest_of_decode hdecode)
  refine ⟨fun hr t ht => ?_, fun hr t ht => ?_, fun hr why hwhy => ?_⟩
  · exact (hcall hr).trans (congrArg (recordRefusal · _) ht)
  · exact (hpost hr).trans (congrArg (recordRefusal · _) (post_of_next ht))
  · rcases hr with hr | hr
    · exact (hcall hr).trans (congrArg (recordRefusal · _) hwhy)
    · exact (hpost hr).trans (congrArg (recordRefusal · _) (post_of_refused hwhy))

/-- Settles O7: the four acts that make no request. -/
theorem stepWithoutRequestWaits : Obligations.StepWithoutRequestWaits := by
  intro s hfight
  refine ⟨fun hr hidle => ?_, step_of_no_act hfight, fun _ => step_of_wait hfight,
    fun _ _ => step_of_load hfight⟩
  rw [step_of_no_act hfight hr]
  simp only [tick, hidle]

theorem whenLive_of_absent (hidle : s.seq = []) (hlife : s.life = .absent)
    (o : Host.Outcome State Fault Refusal) : whenLive s o = .refused .engineAbsent := by
  rw [whenLive, whenIdle, if_pos hidle, if_neg (by simp [hlife])]

/-- Settles O10: each such operation is an arm `whenLive`. -/
theorem engineOperationWhileAbsentIsRefused : Obligations.EngineOperationWhileAbsentIsRefused := by
  intro i s hidle hlife hi
  cases i with
  | openPad | getConfig _ | setConfig _ | setPadMode _ | enableRx _ | enableTx _ | getRx _ | getTx _
  | setTx _ | construct => cases hi
  | _ => exact whenLive_of_absent hidle hlife _

/-- Settles O56. -/
theorem resetIsBeforeConstruction : Obligations.ResetIsBeforeConstruction :=
  ⟨rfl, rfl, rfl, rfl, rfl, rfl, rfl, fun l => by cases l <;> rfl⟩

/-! ### The level of a line -/

/-- A read of the input level while Idle. -/
theorem exec_getRx_of_idle (l : Line) (hidle : s.seq = []) :
    ∃ t, exec (.getRx l) s = .next t
      ∧ t.regs.bit = inputLevel (s.pad l) ((s.sampleAt 0).low l) (s.sampleAt 0).draw
      ∧ t.contention = (s.contention || s.fightsWith s.pads 0) :=
  ⟨_, if_pos hidle, rfl, rfl⟩

/-- Two drivers fight at a line: mode GPIO, driver on, level high, and the slave pulls low (R32). -/
theorem fights_iff (w : PadWord) (b : Bool) :
    fights w b = true ↔ w.pmode = .gpio ∧ w.txdis = false ∧ w.txlvl = true ∧ b = true := by
  simp [fights, masterHigh, and_assoc]

/-- The model's record of a fight is a fight on some line (R32). -/
theorem fightsWith_iff (s : State) (p : PerLine PadWord) (k : Nat) :
    s.fightsWith p k = true ↔ s.driversFight p k := by
  rw [State.fightsWith, Bool.or_eq_true, fights_iff, fights_iff]
  constructor
  · rintro (h | h)
    · exact ⟨.scl, h⟩
    · exact ⟨.sda, h⟩
  · rintro ⟨_ | _, h⟩
    · exact .inl h
    · exact .inr h

/-- With the input enabled in mode GPIO the input level is the line's (R24, R32). -/
theorem inputLevel_of_enabled {w : PadWord} (hm : w.pmode = .gpio) (hr : w.rxdis = false) (b d : Bool) :
    inputLevel w b d = if fights w b then d else !((!w.txdis && !w.txlvl) || b) := by
  have hen : (!w.rxdis && decide (w.pmode = .gpio)) = true := by simp [hm, hr]
  have hlow : masterLow w = (!w.txdis && !w.txlvl) := by simp [masterLow, hm]
  rw [inputLevel, if_pos hen, lineLevel, if_pos hm, hlow]
  cases (!w.txdis && !w.txlvl) || b <;> rfl

/-- With another mode or the input disabled it is the environment's free value (R24). -/
theorem inputLevel_of_disabled {w : PadWord} (h : w.pmode ≠ .gpio ∨ w.rxdis = true) (b d : Bool) :
    inputLevel w b d = d := by
  rw [inputLevel, if_neg]
  rcases h with h | h <;> simp [h]

/-- Settles O24. -/
theorem inputLevelFollowsTheLine : Obligations.InputLevelFollowsTheLine := by
  intro l s hidle
  obtain ⟨t, hexec, hbit, hfight⟩ := exec_getRx_of_idle l hidle
  refine ⟨t, hexec, ?_⟩
  rw [hbit, hfight]
  refine ⟨fun hm hr h => ?_, fun hm hr hlow h => ?_, fun h => inputLevel_of_disabled h _ _,
    fun hm htx hlvl hlow => ⟨?_, ?_⟩⟩
  · rw [inputLevel_of_enabled hm hr]
    rcases h with ⟨htx, hlvl⟩ | ⟨htx, hlow⟩
    · simp [fights, masterHigh, htx, hlvl]
    · simp [fights, masterHigh, htx, hlow]
  · rw [inputLevel_of_enabled hm hr]
    rcases h with h | h <;> simp [fights, hlow, h]
  · cases hr : (s.pad l).rxdis
    · rw [inputLevel_of_enabled hm hr, if_pos ((fights_iff _ _).mpr ⟨hm, htx, hlvl, hlow⟩)]
    · exact inputLevel_of_disabled (.inr hr) _ _
  · have hf : s.driversFight s.pads 0 := ⟨l, hm, htx, hlvl, hlow⟩
    simp [(fightsWith_iff _ _ _).mpr hf]

/-! ### Fights of drivers -/

theorem contention_settlePhase (s : State) : (settlePhase s).contention = s.contention := by
  obtain ⟨p, hp⟩ := settlePhase_eq s
  rw [hp]
  rfl

/-- A read-modify-write records a fight at its read, with the pads as they were, or at its write, with the
pads as written. -/
theorem modify_fights (l : Line) {f : PadWord → PadWord}
    (hf : ∀ w b, f { w with rxlvl := b } = { f w with rxlvl := b }) (s : State) :
    (settlePhase (modify l f s)).contention = true ↔ s.contention = true ∨ s.driversFight s.pads 0
      ∨ s.driversFight (settlePhase (modify l f s)).pads 1 := by
  rw [contention_settlePhase, (settlePhase_frame _).1, modify_eq l f s hf, Bool.or_eq_true,
    Bool.or_eq_true, fightsWith_iff, fightsWith_iff, or_assoc]

/-- A read records a fight at its read. -/
theorem emit_fights (e : Event) (s : State) :
    (emit e s).contention = true ↔ s.contention = true ∨ s.driversFight s.pads 0 := by
  rw [emit_contention, Bool.or_eq_true, fightsWith_iff]

/-- Settles O45: the first clause is `exec_served`, the others the two or one events of each request. -/
theorem fightsStayRecorded : Obligations.FightsStayRecorded := by
  refine ⟨fun i s t h => (exec_served h).fightsKept, fun i l s hidle hi => ?_, fun l s hidle => ?_,
    fun i l s hidle hi => ?_⟩
  · rcases hi with rfl | rfl | rfl | rfl <;>
      exact ⟨_, if_pos hidle, modify_fights l (fun _ _ => rfl) s⟩
  · refine ⟨_, if_pos hidle, ?_⟩
    rw [contention_settlePhase, (settlePhase_frame _).1]
    exact emit_fights _ { s with pads := s.pads.set l (storedWord (s.pad l) s.regs.cfg) }
  · rcases hi with rfl | rfl | rfl <;>
      exact ⟨_, if_pos hidle, emit_fights (.rd l (s.readWord l)) s⟩

/-! ### A written input level -/

/-- Settling PHASE changes nothing a read returns. -/
theorem readWord_settlePhase (s : State) (m : Line) : (settlePhase s).readWord m = s.readWord m := by
  obtain ⟨p, hp⟩ := settlePhase_eq s
  rw [hp]
  rfl

/-- Settles O25: `storedWord` drops the input level of the word written. -/
theorem writtenInputLevelIsNotKept : Obligations.WrittenInputLevelIsNotKept := by
  intro l s b hidle
  refine ⟨_, _, if_pos hidle, if_pos hidle, ?_, fun m => ?_⟩
  · rw [(settlePhase_frame _).1, (settlePhase_frame _).1]
    rfl
  · rw [readWord_settlePhase, readWord_settlePhase]
    rfl

/-! ### PHASE -/

/-- PHASE after a write of the host stays if its drives do, and is Undefined otherwise (R34). -/
theorem phase_settlePhase (s : State) :
    (settlePhase s).phase = s.phase.map (fun p => if phaseHolds p (settlePhase s) then p else .undefined) := by
  have hholds : ∀ p, phaseHolds p (settlePhase s) = phaseHolds p s := fun p => by
    cases p <;> simp only [phaseHolds, settlePhase_pad]
  simp only [hholds]
  unfold settlePhase
  cases hp : s.phase with
  | none => exact hp
  | some p =>
    dsimp only [Option.map_some]
    split
    · exact hp
    · rfl

/-- Settles O42. -/
theorem phaseAfterHostWrites : Obligations.PhaseAfterHostWrites := by
  intro i l s hidle hi
  rcases hi with rfl | rfl | rfl | rfl | rfl <;> exact ⟨_, if_pos hidle, phase_settlePhase _⟩

theorem whenLive_of_live (hidle : s.seq = []) (hlive : s.life = .live)
    (o : Host.Outcome State Fault Refusal) : whenLive s o = o := by
  rw [whenLive, whenIdle, if_pos hidle, if_pos hlive]

/-- PHASE after a cell, as the statement has it (R34). -/
theorem phaseAfterCell_eq (p : Option BusPhase) :
    phaseAfterCell p = if p = some .inTransaction then some .inTransaction else some .undefined := by
  unfold phaseAfterCell
  split
  next h => exact h
  · rfl

/-- PHASE after a byte frame (R34). -/
theorem phase_writeByte (d : Byte) (f : Bool) (s : State) :
    (writeByte d f s).2.phase
      = if s.phase = some .inTransaction ∨ f = true then some .inTransaction else some .undefined := by
  rw [(writeByte_performed (d, f) s).1.phase, phaseAfterFrame, phaseAfterCell_eq]
  cases f <;> simp

/-- A byte on the wire while Live and Idle is a byte frame with no start. -/
theorem phase_sendWireByte (hidle : s.seq = []) (hlive : s.life = .live) (d : Byte) :
    ∃ t, sendWireByte d s = .next t
      ∧ t.phase = if s.phase = some .inTransaction then some .inTransaction else some .undefined :=
  ⟨_, whenLive_of_live hidle hlive _, by simp [phase_writeByte]⟩

/-- Settles O43: the cells and frames by `Performed`, the wire formats by the frame each denotes. -/
theorem phaseAfterBitCells : Obligations.PhaseAfterBitCells := by
  intro i s hidle hlive hi
  have hexec := whenLive_of_live hidle hlive
  have hcell := phaseAfterCell_eq s.phase
  cases i with
  | writeBit | wireAck | wireNack =>
    exact ⟨_, hexec _, (writeBit_performed _ s).phase.trans (by simpa using hcell)⟩
  | readBit => exact ⟨_, hexec _, (readBit_performed s).phase.trans (by simpa using hcell)⟩
  | readByte => exact ⟨_, hexec _, (readByte_performed s.regs.flag s).phase.trans (by simpa using hcell)⟩
  | writeByte => exact ⟨_, hexec _, (phase_writeByte _ _ s).trans (by simp)⟩
  | wireAddrWrite _ | wireAddrRead _ | wireCommand _ | wireCount _ | wireOffsetHigh _
  | wireOffsetLow _ | wireData _ =>
    obtain ⟨t, ht, hphase⟩ := phase_sendWireByte hidle hlive _
    exact ⟨t, ht, by simpa using hphase⟩
  | _ => simp [slotOf] at hi

end Sys2Proof.Machine
end

section
/-! What the operand and result registers have to do with a step of the sequencer (10_state.md R28, 92 D18):
nothing, but that it writes at most one operation's result. -/

namespace Sys2Proof.Machine

open Sys2Proof

/-- With the registers at `r`. -/
def State.withRegs (s : State) (r : Registers) : State := { s with regs := r }

/-- A change of the registers that leaves them alone or writes one operation's result, the same value
whatever they held. -/
def WritesOneResult (g : Registers → Registers) : Prop :=
  (∀ r, g r = r) ∨ (∃ h st, ∀ r, g r = { r with handle := h, status := st })
  ∨ (∃ w, ∀ r, g r = { r with cfg := w }) ∨ (∃ b, ∀ r, g r = { r with bit := b })
  ∨ (∃ d, ∀ r, g r = { r with byte := d }) ∨ (∃ a, ∀ r, g r = { r with acked := a })
  ∨ (∃ n, ∀ r, g r = { r with count := n }) ∨ ∃ xs, ∀ r, g r = { r with rxbuf := xs }

theorem writesOneResult_id : WritesOneResult id := .inl (fun _ => rfl)

/-- Each result goes to one register (R28). -/
theorem writesOneResult_storeResult (x : Result) : WritesOneResult (storeResult x) := by
  cases x with
  | nothing => exact .inl (fun _ => rfl)
  | word w => exact .inr (.inr (.inl ⟨w, fun _ => rfl⟩))
  | level b => exact .inr (.inr (.inr (.inl ⟨b, fun _ => rfl⟩)))
  | byte d => exact .inr (.inr (.inr (.inr (.inl ⟨d, fun _ => rfl⟩))))
  | acked a => exact .inr (.inr (.inr (.inr (.inr (.inl ⟨a, fun _ => rfl⟩)))))
  | accepted n => exact .inr (.inr (.inr (.inr (.inr (.inr (.inl ⟨n, fun _ => rfl⟩))))))
  | bytes xs => exact .inr (.inr (.inr (.inr (.inr (.inr (.inr ⟨xs, fun _ => rfl⟩))))))

/-- A result that goes to a caller is kept in ACKED at most (R29). -/
theorem writesOneResult_storeFlag (x : Result) : WritesOneResult (storeFlag x) := by
  cases x with
  | acked a => exact .inr (.inr (.inr (.inr (.inr (.inl ⟨a, fun _ => rfl⟩)))))
  | _ => exact .inl (fun _ => rfl)

/-- The end of a listing writes its result, whatever the registers hold. -/
theorem returnResult_withRegs (x : Result) (f : SeqFrame) (rest : List SeqFrame) (s : State) :
    ∃ g, WritesOneResult g
      ∧ ∀ r, returnResult x f rest (s.withRegs r) = (returnResult x f rest s).withRegs (g r) := by
  cases rest with
  | nil => exact ⟨_, writesOneResult_storeResult x, fun _ => rfl⟩
  | cons c below => exact ⟨_, writesOneResult_storeFlag x, fun _ => rfl⟩

theorem settlePhase_withRegs (s : State) (r : Registers) :
    settlePhase (s.withRegs r) = (settlePhase s).withRegs r := by
  have hphase : (s.withRegs r).phase = s.phase := rfl
  have hholds : ∀ p, phaseHolds p (s.withRegs r) = phaseHolds p s := fun p => by cases p <;> rfl
  simp only [settlePhase, hphase, hholds]
  split
  · rfl
  · split <;> rfl

theorem drive_withRegs (b : Bool) (s : State) (r : Registers) :
    drive b (s.withRegs r) = (drive b s).withRegs r := by cases b <;> rfl

theorem beginListing_withRegs (f : SeqFrame) (s : State) (r : Registers) :
    beginListing f (s.withRegs r) = (beginListing f s).withRegs r := by
  rcases hop : f.operation <;> simp only [beginListing, hop] <;> rfl

theorem callStep_withRegs (f c : SeqFrame) (rest : List SeqFrame) (s : State) (r : Registers) :
    callStep f c rest (s.withRegs r) = (callStep f c rest s).withRegs r := by
  simp only [callStep, beginListing_withRegs]
  split <;> rfl

/-- A write of the host, at its end. -/
theorem return_settled_withRegs (f : SeqFrame) (rest : List SeqFrame) (u : State) :
    ∃ g, WritesOneResult g
      ∧ ∀ r, returnResult .nothing f rest (settlePhase (u.withRegs r))
        = (returnResult .nothing f rest (settlePhase u)).withRegs (g r) := by
  simp only [settlePhase_withRegs]
  exact returnResult_withRegs .nothing f rest (settlePhase u)

/-- `open`, at its end. -/
theorem return_open_withRegs (f : SeqFrame) (rest : List SeqFrame) (id : PadId) (s : State)
    (r : Registers) :
    returnResult .nothing f rest (openIdentity id (s.withRegs r))
      = (returnResult .nothing f rest (openIdentity id s)).withRegs (openedRegs id r) := by
  rw [openIdentity_eq, openIdentity_eq]
  cases rest <;> rfl

/-- A step that calls nothing does the same whatever the registers hold, and writes at most one result. -/
theorem localStep_withRegs (f : SeqFrame) (rest : List SeqFrame) (s : State) :
    ∃ g, WritesOneResult g
      ∧ ∀ r, localStep f rest (s.withRegs r) = (localStep f rest s).withRegs (g r) := by
  rcases hop : f.operation <;> simp only [localStep, hop]
  case openPad =>
    exact ⟨openedRegs _, .inr (.inl ⟨_, _, fun _ => rfl⟩), return_open_withRegs f rest _ s⟩
  case getConfig => exact returnResult_withRegs (.word (s.readWord f.line)) f rest (getConfig f.line s).2
  case getRx => exact returnResult_withRegs (.level (getRx f.line s).1) f rest (getRx f.line s).2
  case getTx => exact returnResult_withRegs (.level (getTx f.line s).1) f rest (getTx f.line s).2
  case smp => exact returnResult_withRegs (.level (smp s).1) f rest (smp s).2
  case setConfig => exact return_settled_withRegs f rest (setConfig f.line f.operands.cfg s)
  case setPadMode => exact return_settled_withRegs f rest (setPadMode f.line f.operands.mode s)
  case enableRx => exact return_settled_withRegs f rest (enableRx f.line f.operands.flag s)
  case enableTx => exact return_settled_withRegs f rest (enableTx f.line f.operands.flag s)
  case setTx => exact return_settled_withRegs f rest (setTx f.line f.operands.flag s)
  case rel => exact returnResult_withRegs .nothing f rest (rel f.line s)
  case low => exact returnResult_withRegs .nothing f rest (low f.line s)
  case delay => exact returnResult_withRegs .nothing f rest (delay s)
  case drive =>
    simp only [drive_withRegs]
    exact returnResult_withRegs .nothing f rest _
  case construct | teardown | start | stop | writeBit =>
    exact returnResult_withRegs .nothing f rest { s with life := _, phase := _ }
  case readBit =>
    exact returnResult_withRegs (.level f.b) f rest { s with phase := phaseAfterCell f.entry }
  case writeByte =>
    split
    · exact ⟨id, writesOneResult_id, fun _ => rfl⟩
    · exact returnResult_withRegs (.acked (ackedFlag f.b)) f rest s
  case readByte =>
    split
    · exact ⟨id, writesOneResult_id, fun _ => rfl⟩
    · exact returnResult_withRegs (.byte f.v) f rest s
  case smbusBlockWrite =>
    split
    · split
      · exact returnResult_withRegs (.accepted 0) f rest s
      · exact ⟨id, writesOneResult_id, fun _ => rfl⟩
    · exact returnResult_withRegs (.accepted f.cnt) f rest s
  case smbusBlockRead | readAtOffset => exact returnResult_withRegs (.bytes f.out) f rest s

/-- A step of the sequencer does the same whatever the registers hold, and writes at most one result. -/
theorem tick_withRegs (s : State) :
    ∃ g, WritesOneResult g ∧ ∀ r, tick (s.withRegs r) = (tick s).withRegs (g r) := by
  rcases hq : s.seq with _ | ⟨f, rest⟩
  · have hidle : ∀ u : State, u.seq = [] → tick u = u := fun u hu => by simp only [tick, hu]
    refine ⟨id, writesOneResult_id, fun r => ?_⟩
    rw [hidle s hq, hidle (s.withRegs r) hq]
    rfl
  · rcases hc : callOf f s.saved with _ | c
    · obtain ⟨g, hg, hstep⟩ := localStep_withRegs f rest s
      refine ⟨g, hg, fun r => ?_⟩
      rw [tick_local hq hc, tick_local (s := s.withRegs r) hq hc, hstep]
    · have hcall : ∀ u : State, u.seq = f :: rest → callOf f u.saved = some c →
          tick u = callStep f c rest u := fun u hu hcu => by simp only [tick, hu, hcu]
      refine ⟨id, writesOneResult_id, fun r => ?_⟩
      rw [hcall s hq hc, hcall (s.withRegs r) hq hc]
      exact callStep_withRegs f c rest s r

/-- Settles O59: each operand by the definition of its load, a step of the sequencer by `tick_withRegs`. -/
theorem handingOverWritesTheNamedOperand : Obligations.HandingOverWritesTheNamedOperand := by
  refine ⟨fun _ _ => ⟨rfl, rfl⟩, fun _ _ => ⟨rfl, rfl⟩, fun _ _ => rfl, fun _ _ => rfl,
    fun _ _ => ⟨rfl, rfl⟩, fun _ _ => ⟨rfl, rfl⟩, fun _ _ => rfl, fun _ _ => rfl, fun _ _ => rfl,
    fun _ _ => rfl, fun s => ?_⟩
  obtain ⟨g, hg, hstep⟩ := tick_withRegs s
  exact ⟨g, hstep, hg⟩

end Sys2Proof.Machine
end

section
/-! The fields of a pad word and its 32 bits as two views of one word, under every valid layout and every
injective mode code (10_state.md R22, R25, 92 D4, D5). -/

namespace Sys2Proof.Machine

open Sys2Proof

variable {p : PadLayout} {code : PadMode → BitVec 3}

/-! ### The mode codes -/

theorem PadMode.mem_all (m : PadMode) : m ∈ PadMode.all := by cases m <;> decide

/-- The codes of two modes differ (92 D5). -/
theorem modeCode_injective (h : ValidModeCode code) {m n : PadMode} (hmn : code m = code n) : m = n :=
  List.inj_on_of_nodup_map h (PadMode.mem_all m) (PadMode.mem_all n) hmn

/-- Eight different codes are all the codes of 3 bits. -/
theorem exists_modeCode (h : ValidModeCode code) (c : BitVec 3) : ∃ m, code m = c := by
  have hnodup : (PadMode.all.map (fun m => (code m).toNat)).Nodup := by
    have := h.map (f := BitVec.toNat) (fun _ _ => BitVec.eq_of_toNat_eq)
    rwa [List.map_map] at this
  have hsub : PadMode.all.map (fun m => (code m).toNat) ⊆ List.range 8 := by
    intro n hn
    obtain ⟨m, -, rfl⟩ := List.mem_map.mp hn
    exact List.mem_range.mpr (code m).isLt
  have hperm := (hnodup.subperm hsub).perm_of_length_le (by simp [PadMode.all])
  have hc : c.toNat ∈ List.range 8 := List.mem_range.mpr c.isLt
  obtain ⟨m, -, hm⟩ := List.mem_map.mp (hperm.symm.subset hc)
  exact ⟨m, BitVec.eq_of_toNat_eq hm⟩

/-- A mode is read back from its code (R22). -/
theorem modeOfCode_code (h : ValidModeCode code) (m : PadMode) : modeOfCode code (code m) = m := by
  unfold modeOfCode
  cases hfind : PadMode.all.find? (fun n => code n = code m) with
  | none => exact absurd (List.find?_eq_none.mp hfind m (PadMode.mem_all m)) (by simp)
  | some n =>
    have hn : code n = code m := by simpa using List.find?_some hfind
    exact modeCode_injective h hn

/-- Every code is the code of the mode read from it. -/
theorem code_modeOfCode (h : ValidModeCode code) (c : BitVec 3) : code (modeOfCode code c) = c := by
  obtain ⟨m, rfl⟩ := exists_modeCode h c
  rw [modeOfCode_code h]

/-! ### The positions -/

theorem mem_freePositions {i : Nat} : i ∈ freePositions p ↔ i < 32 ∧ i ∉ p.positions := by
  simp [freePositions]

theorem freePositions_nodup (p : PadLayout) : (freePositions p).Nodup := List.nodup_range.filter _

/-- The fields take seven of the 32 positions (R25). -/
theorem freePositions_length (h : p.Valid) : (freePositions p).length = 25 := by
  obtain ⟨hnodup, hrange⟩ := h
  have hdisjoint : (p.positions ++ freePositions p).Nodup :=
    List.nodup_append'.mpr ⟨hnodup, freePositions_nodup p, fun i hi hf => (mem_freePositions.mp hf).2 hi⟩
  have hperm : (p.positions ++ freePositions p).Perm (List.range 32) := by
    rw [List.perm_ext_iff_of_nodup hdisjoint List.nodup_range]
    intro i
    rw [List.mem_append, mem_freePositions, List.mem_range]
    have := hrange i
    tauto
  have hlength := hperm.length_eq
  rw [List.length_append, List.length_range] at hlength
  simp only [PadLayout.positions, List.length_cons, List.length_nil] at hlength
  omega

/-! ### The bits of the fields -/

/-- The four flags stand outside PMODE and at different positions (R25). -/
theorem positions_distinct (h : p.Valid) :
    (p.rxdisBit < p.pmodeLsb ∨ p.pmodeLsb + 3 ≤ p.rxdisBit)
    ∧ (p.txdisBit < p.pmodeLsb ∨ p.pmodeLsb + 3 ≤ p.txdisBit)
    ∧ (p.rxlvlBit < p.pmodeLsb ∨ p.pmodeLsb + 3 ≤ p.rxlvlBit)
    ∧ (p.txlvlBit < p.pmodeLsb ∨ p.pmodeLsb + 3 ≤ p.txlvlBit)
    ∧ p.rxdisBit ≠ p.txdisBit ∧ p.rxdisBit ≠ p.rxlvlBit ∧ p.rxdisBit ≠ p.txlvlBit
    ∧ p.txdisBit ≠ p.rxlvlBit ∧ p.txdisBit ≠ p.txlvlBit ∧ p.rxlvlBit ≠ p.txlvlBit := by
  have hnodup := h.1
  simp only [PadLayout.positions, List.nodup_cons, List.mem_cons, List.not_mem_nil, not_or, or_false]
    at hnodup
  omega

theorem bitAt_pmode (w : PadWord) {k : Nat} (hk : k < 3) :
    PadWord.bitAt p code w (p.pmodeLsb + k) = (code w.pmode).getLsbD k := by
  rw [PadWord.bitAt, if_pos (by omega), Nat.add_sub_cancel_left]

theorem bitAt_rxdis (h : p.Valid) (w : PadWord) : PadWord.bitAt p code w p.rxdisBit = w.rxdis := by
  have hdistinct := positions_distinct h
  rw [PadWord.bitAt, if_neg (by omega), if_pos rfl]

theorem bitAt_txdis (h : p.Valid) (w : PadWord) : PadWord.bitAt p code w p.txdisBit = w.txdis := by
  have hdistinct := positions_distinct h
  rw [PadWord.bitAt, if_neg (by omega), if_neg (by omega), if_pos rfl]

theorem bitAt_rxlvl (h : p.Valid) (w : PadWord) : PadWord.bitAt p code w p.rxlvlBit = w.rxlvl := by
  have hdistinct := positions_distinct h
  rw [PadWord.bitAt, if_neg (by omega), if_neg (by omega), if_neg (by omega), if_pos rfl]

theorem bitAt_txlvl (h : p.Valid) (w : PadWord) : PadWord.bitAt p code w p.txlvlBit = w.txlvl := by
  have hdistinct := positions_distinct h
  rw [PadWord.bitAt, if_neg (by omega), if_neg (by omega), if_neg (by omega), if_neg (by omega),
    if_pos rfl]

theorem bitAt_free (w : PadWord) {i : Nat} (hi : i ∉ p.positions) :
    PadWord.bitAt p code w i = w.other.getLsbD ((freePositions p).idxOf i) := by
  simp only [PadLayout.positions, List.mem_cons, List.not_mem_nil, or_false, not_or] at hi
  rw [PadWord.bitAt, if_neg (by omega), if_neg (by omega), if_neg (by omega), if_neg (by omega),
    if_neg (by omega)]

/-- A position belongs to PMODE, to one of the four flags, or is free. -/
theorem position_cases (p : PadLayout) (i : Nat) :
    (∃ k, k < 3 ∧ i = p.pmodeLsb + k) ∨ i = p.rxdisBit ∨ i = p.txdisBit ∨ i = p.rxlvlBit
      ∨ i = p.txlvlBit ∨ i ∉ p.positions := by
  by_cases hi : i ∈ p.positions
  · simp only [PadLayout.positions, List.mem_cons, List.not_mem_nil, or_false] at hi
    rcases hi with h | h | h | h | h | h | h
    · exact .inl ⟨0, by omega, h⟩
    · exact .inl ⟨1, by omega, h⟩
    · exact .inl ⟨2, by omega, h⟩
    all_goals simp [h]
  · simp [hi]

theorem getLsbD_toBits (w : PadWord) {i : Nat} (hi : i < 32) :
    (PadWord.toBits p code w).getLsbD i = PadWord.bitAt p code w i := by
  rw [PadWord.toBits, BitVec.getLsbD_ofFnLE, dif_pos hi]

/-- The opaque bits are those of the free positions, in rising order (R25). -/
theorem getLsbD_ofBits_other (v : BitVec 32) {j : Nat} (hj : j < 25) :
    (PadWord.ofBits p code v).other.getLsbD j = v.getLsbD ((freePositions p).getD j 0) := by
  rw [PadWord.ofBits, BitVec.getLsbD_ofFnLE, dif_pos hj]

/-! ### The two views -/

theorem lt_of_valid (h : p.Valid) : p.pmodeLsb + 2 < 32 ∧ p.rxdisBit < 32 ∧ p.txdisBit < 32
    ∧ p.rxlvlBit < 32 ∧ p.txlvlBit < 32 := by
  have hrange := h.2
  refine ⟨?_, ?_, ?_, ?_, ?_⟩ <;> exact hrange _ (by simp [PadLayout.positions])

/-- The PMODE field of the word of a pad holds the code of its mode. -/
theorem extractLsb'_toBits (h : p.Valid) (w : PadWord) :
    (PadWord.toBits p code w).extractLsb' p.pmodeLsb 3 = code w.pmode := by
  obtain ⟨hlsb, -⟩ := lt_of_valid h
  refine BitVec.eq_of_getLsbD_eq (fun k hk => ?_)
  rw [BitVec.getLsbD_extractLsb', getLsbD_toBits w (by omega), bitAt_pmode w hk]
  simp [hk]

/-- The fields of the word of a pad are the pad. -/
theorem ofBits_toBits (h : p.Valid) (hc : ValidModeCode code) (w : PadWord) :
    PadWord.ofBits p code (PadWord.toBits p code w) = w := by
  obtain ⟨-, hrxdis, htxdis, hrxlvl, htxlvl⟩ := lt_of_valid h
  have hother : (PadWord.ofBits p code (PadWord.toBits p code w)).other = w.other := by
    refine BitVec.eq_of_getLsbD_eq (fun j hj => ?_)
    have hlen : j < (freePositions p).length := by rw [freePositions_length h]; exact hj
    obtain ⟨hlt, hfree⟩ := mem_freePositions.mp (List.getElem_mem hlen)
    rw [getLsbD_ofBits_other _ hj, List.getD_eq_getElem _ _ hlen, getLsbD_toBits w hlt,
      bitAt_free w hfree, (freePositions_nodup p).idxOf_getElem]
  calc PadWord.ofBits p code (PadWord.toBits p code w)
      = { pmode := w.pmode, rxdis := w.rxdis, txdis := w.txdis, rxlvl := w.rxlvl, txlvl := w.txlvl
          other := (PadWord.ofBits p code (PadWord.toBits p code w)).other } := by
        simp only [PadWord.ofBits, extractLsb'_toBits h, modeOfCode_code hc, getLsbD_toBits w hrxdis,
          getLsbD_toBits w htxdis, getLsbD_toBits w hrxlvl, getLsbD_toBits w htxlvl, bitAt_rxdis h,
          bitAt_txdis h, bitAt_rxlvl h, bitAt_txlvl h]
    _ = w := by rw [hother]

/-- The word of the fields of a word is the word. -/
theorem toBits_ofBits (h : p.Valid) (hc : ValidModeCode code) (v : BitVec 32) :
    PadWord.toBits p code (PadWord.ofBits p code v) = v := by
  refine BitVec.eq_of_getLsbD_eq (fun i hi => ?_)
  rw [getLsbD_toBits _ hi]
  rcases position_cases p i with ⟨k, hk, rfl⟩ | rfl | rfl | rfl | rfl | hfree
  · rw [bitAt_pmode _ hk, PadWord.ofBits, code_modeOfCode hc, BitVec.getLsbD_extractLsb']
    simp [hk]
  · exact bitAt_rxdis h _
  · exact bitAt_txdis h _
  · exact bitAt_rxlvl h _
  · exact bitAt_txlvl h _
  · have hmem : i ∈ freePositions p := mem_freePositions.mpr ⟨hi, hfree⟩
    have hlt : (freePositions p).idxOf i < (freePositions p).length := List.idxOf_lt_length_of_mem hmem
    rw [bitAt_free _ hfree, getLsbD_ofBits_other _ (by rwa [freePositions_length h] at hlt),
      List.getD_eq_getElem _ _ hlt, List.getElem_idxOf]

/-- Settles O26. -/
theorem padWordViewsAreInverse : Obligations.PadWordViewsAreInverse :=
  fun _ _ hp hc => ⟨ofBits_toBits hp hc, toBits_ofBits hp hc⟩

end Sys2Proof.Machine
end

section
/-! The order in which the bits of a byte move (20_memory.md R55): the cells of a written frame as an observer
of the wire sees them, the bits of a read byte as they are sampled. -/

namespace Sys2Proof.Machine

open Sys2Proof

variable {s : State}

/-- The symbol of the `k`-th bit cell of a written frame, after its start if it has one (R55). -/
theorem frameSymbols_bitCell (f : Frame) {k : Nat} (hk : k < 8) :
    (frameSymbols f)[k + if f.2 then 1 else 0]? = some (.bit (f.1.getLsbD (7 - k))) := by
  have hbyte : (writtenByte f.1)[k]? = some (.bit (f.1.getLsbD (7 - k))) := by
    interval_cases k <;> rfl
  rcases f with ⟨d, _ | _⟩ <;> exact hbyte

/-- On a clock held low, or on a released bus with a start, an observer of a written byte sees its frame. -/
theorem symbolsBetween_writeByte (f : Frame) (hlive : s.life = .live)
    (hbus : (s.pad .scl).txdis = true → f.2 = true ∧ (s.pad .sda).txdis = true) :
    symbolsBetween s (writeByte f.1 f.2 s).2 = frameSymbols f := by
  have hseen := (writeByte_performed f s).1.observed (State.traceOpen_of_live hlive) (observerAt s)
  have hframe := observe_frameShape f (released (s.pad .scl)) (released (s.pad .sda)) []
    (fun hscl => (hbus hscl).symm)
  exact congrArg Observer.symbols (hseen.trans hframe)

/-- Settles O40: a written byte by the symbols of its frame, a read byte by `readByte_value`. -/
theorem bitsMoveMostSignificantFirst : Obligations.BitsMoveMostSignificantFirst := by
  refine ⟨fun s hidle hlive hbus => ?_, fun s hidle hlive => ?_⟩
  · refine ⟨_, whenLive_of_live hidle hlive _, fun k hk => ?_⟩
    rw [symbolsBetween_writeByte (s.regs.byte, s.regs.flag) hlive hbus]
    exact frameSymbols_bitCell (s.regs.byte, s.regs.flag) hk
  · exact ⟨_, whenLive_of_live hidle hlive _, fun k hk => readByte_value s.regs.flag s k hk⟩

end Sys2Proof.Machine
end

section
/-! The encodings (30_encoding.md R75 to R82): the parts of a word, what decodes and what is refused, and the
meaning of a wire format as the byte or bit of its encoding. -/

namespace Sys2Proof.Machine

open Sys2Proof

variable {w : BitVec 9} {b : Byte} {i : Instr} {s t : State}

/-! ### The parts of a word -/

theorem bitOfLine_lineOfBit (x : Bool) : bitOfLine (lineOfBit x) = x := by cases x <;> rfl

theorem plainWord_eq_setWidth (b : Byte) : plainWord b = b.setWidth 9 :=
  (BitVec.setWidth_eq_append (by decide)).symm

@[simp] theorem plainWord_setWidth (b : Byte) : (plainWord b).setWidth 8 = b :=
  BitVec.setWidth_append_eq_right

/-- A word is its line bit beside its low byte. -/
theorem gpioRequest_parts (w : BitVec 9) :
    gpioRequest (lineOfBit (w.getLsbD 8)) (w.setWidth 8) = w := by
  rw [gpioRequest, bitOfLine_lineOfBit]
  exact BitVec.cons_msb_setWidth w

/-- The low byte of a word is the word without its line bit. -/
theorem plainWord_lowByte (w : BitVec 9) : plainWord (w.setWidth 8) = w &&& 0x0FF#9 := by
  apply BitVec.eq_of_toNat_eq
  rw [plainWord_eq_setWidth, BitVec.toNat_setWidth_of_le (by decide), BitVec.toNat_setWidth,
    BitVec.toNat_and]
  exact (Nat.and_two_pow_sub_one_eq_mod w.toNat 8).symm

/-- Only a word whose line bit is 0 is a wire byte (R75). -/
theorem wireByteOf_eq_ok_iff : wireByteOf w = .ok b ↔ plainWord b = w := by
  rw [wireByteOf]
  constructor
  · intro h
    split at h
    next => cases h
    next hline =>
      cases h
      have hparts := gpioRequest_parts w
      rwa [Bool.eq_false_iff.mpr hline] at hparts
  · rintro rfl
    have hbit : ¬ (plainWord b).getLsbD 8 := by simp [plainWord_eq_setWidth]
    rw [if_neg hbit, plainWord_setWidth]

/-- An address byte is the address above the direction bit (R77). -/
@[simp] theorem addrByte_address (a : BitVec 7) (rw : Bool) :
    (addrByte a rw).extractLsb' 1 7 = a :=
  BitVec.extractLsb'_append_eq_left

@[simp] theorem addrByte_direction (a : BitVec 7) (rw : Bool) :
    (addrByte a rw).getLsbD 0 = rw :=
  BitVec.getLsbD_concat_zero

theorem addrByte_parts (b : Byte) : addrByte (b.extractLsb' 1 7) (b.getLsbD 0) = b := by
  change (b.extractLsb' 1 7).concat (b.getLsbD 0) = b
  ext k hk
  rw [BitVec.getElem_concat]
  split
  next h => simp [h]
  next h => simp [BitVec.getLsbD_eq_getElem hk, show 1 + (k - 1) = k by omega]

/-- A count byte is the six bits of the count, extended (R78 (a)). -/
theorem encode_wireCount (n : BitVec 6) : encode (.wireCount n) = plainWord (n.setWidth 8) :=
  congrArg plainWord (BitVec.setWidth_eq_append (by decide)).symm

/-! ### Decoding -/

/-- A place of a wire byte decodes the words that are one, by what it makes of the byte (R75 to R79). -/
theorem wireByteOf_bind_eq_ok_iff {f : Byte → Except DecodeError Instr} :
    (wireByteOf w >>= f) = .ok i ↔ ∃ b, plainWord b = w ∧ f b = .ok i := by
  constructor
  · intro h
    cases hb : wireByteOf w with
    | error e =>
      rw [hb] at h
      cases h
    | ok b =>
      rw [hb] at h
      exact ⟨b, wireByteOf_eq_ok_iff.mp hb, h⟩
  · rintro ⟨b, hb, h⟩
    rw [wireByteOf_eq_ok_iff.mpr hb]
    exact h

/-- What a request word decodes to is a request with the word's selector, and with its line bit if the
operation acts on a line (R82, 92 D3). -/
theorem encode_of_decodeRequest (h : decodeRequest w = .ok i) :
    slotOf i = .request ∧ (encode i = w ∨ encode i = plainWord (w.setWidth 8)) := by
  have hsel : ∀ {n : Nat}, (w.setWidth 8).toNat = n → BitVec.ofNat 8 n = w.setWidth 8 := fun hn => by
    rw [← hn, BitVec.ofNat_toNat, BitVec.setWidth_eq]
  have hline : ∀ {n : Nat}, (w.setWidth 8).toNat = n →
      gpioRequest (lineOfBit (w.getLsbD 8)) (BitVec.ofNat 8 n) = w := fun hn => by
    rw [hsel hn, gpioRequest_parts]
  unfold decodeRequest at h
  split at h
  -- the operations that act on a line, then those that do not, then an unlisted selector
  case h_2 hn | h_3 hn | h_4 hn | h_5 hn | h_6 hn | h_7 hn | h_8 hn | h_9 hn =>
    cases h
    exact ⟨rfl, .inl (hline hn)⟩
  case h_1 hn | h_10 hn | h_11 hn | h_12 hn | h_13 hn | h_14 hn | h_15 hn | h_16 hn | h_17 hn | h_18 hn
    | h_19 hn | h_20 hn | h_21 hn =>
    cases h
    exact ⟨rfl, .inr (congrArg plainWord (hsel hn))⟩
  case h_22 => cases h

/-- Every request is well formed: a request word encodes no operand but a line (R82). -/
theorem wellFormed_of_request (h : slotOf i = .request) : i.wellFormed = true := by
  cases i with
  | wireCount n => cases h
  | _ => rfl

/-- Settles O1: a request by its selector and line bit, a wire format by its byte. -/
theorem decodeOfEncodeIsTheInstruction : Obligations.DecodeOfEncodeIsTheInstruction := by
  intro i hi
  cases i with
  | getConfig l | setConfig l | setPadMode l | enableRx l | enableTx l | getRx l | getTx l
  | setTx l => cases l <;> rfl
  | wireAddrWrite a =>
    refine wireByteOf_bind_eq_ok_iff.mpr ⟨addrByte a false, rfl, ?_⟩
    rw [addrByte_direction, addrByte_address]
    rfl
  | wireAddrRead a =>
    refine wireByteOf_bind_eq_ok_iff.mpr ⟨addrByte a true, rfl, ?_⟩
    rw [addrByte_direction, addrByte_address]
    rfl
  | wireCount n =>
    have hcount : (n.setWidth 8).toNat ≤ Config.maxBlock := by
      rw [BitVec.toNat_setWidth_of_le (by decide)]
      exact of_decide_eq_true hi
    refine wireByteOf_bind_eq_ok_iff.mpr ⟨n.setWidth 8, (encode_wireCount n).symm, ?_⟩
    rw [if_pos hcount, BitVec.setWidth_setWidth_of_le _ (by decide), BitVec.setWidth_eq]
    rfl
  | wireCommand b | wireOffsetHigh b | wireOffsetLow b | wireData b =>
    exact wireByteOf_bind_eq_ok_iff.mpr ⟨b, rfl, rfl⟩
  | _ => rfl

/-- Settles O2, by the slot: a request by `encode_of_decodeRequest`, a wire format by the byte it denotes. -/
theorem decodedWordIsReencoded : Obligations.DecodedWordIsReencoded := by
  intro slot w i h
  cases slot with
  | request =>
    obtain ⟨hslot, henc⟩ := encode_of_decodeRequest h
    rw [plainWord_lowByte] at henc
    exact ⟨wellFormed_of_request hslot, hslot, henc.imp_right fun h => ⟨rfl, h⟩⟩
  | addressByte =>
    obtain ⟨b, rfl, hb⟩ := wireByteOf_bind_eq_ok_iff.mp h
    have hparts := addrByte_parts b
    cases hdir : b.getLsbD 0 with
    | false | true =>
      rw [hdir] at hb hparts
      cases hb
      exact ⟨rfl, rfl, .inl (congrArg plainWord hparts)⟩
  | countByte =>
    obtain ⟨b, rfl, hb⟩ := wireByteOf_bind_eq_ok_iff.mp h
    split at hb
    next hcount =>
      cases hb
      have hlow : (b.setWidth 6).toNat = b.toNat := by
        rw [BitVec.toNat_setWidth, Nat.mod_eq_of_lt (Nat.lt_of_le_of_lt hcount (by decide))]
      refine ⟨decide_eq_true (hlow ▸ hcount), rfl, .inl ?_⟩
      rw [encode_wireCount]
      refine congrArg plainWord (BitVec.eq_of_toNat_eq ?_)
      rw [BitVec.toNat_setWidth_of_le (by decide), hlow]
    next => cases hb
  | commandByte | offsetHighByte | offsetLowByte | dataByte =>
    obtain ⟨b, rfl, hb⟩ := wireByteOf_bind_eq_ok_iff.mp h
    cases hb
    exact ⟨rfl, rfl, .inl rfl⟩
  | ackBit =>
    simp only [decode] at h
    split at h
    case h_1 hw | h_2 hw =>
      cases h
      exact ⟨rfl, rfl, .inl (BitVec.eq_of_toNat_eq hw.symm)⟩
    case h_3 => cases h

/-! ### The request rows -/

/-- A request has the fixed bits of a row of the table (R82). -/
theorem exists_row_of_request (hi : slotOf i = .request) :
    ∃ p ∈ requestRows, encode i &&& 0x0FF#9 = p.pattern := by
  cases i with
  | getConfig l | setConfig l | setPadMode l | enableRx l | enableTx l | getRx l | getTx l
  | setTx l => cases l <;> decide
  | wireAddrWrite _ | wireAddrRead _ | wireCommand _ | wireCount _ | wireOffsetHigh _ | wireOffsetLow _
  | wireData _ | wireAck | wireNack => cases hi
  | _ => decide

/-- A word that is of no row is no request (R84). -/
theorem decode_unlisted (h : ∀ p ∈ requestRows, (w &&& 0x0FF#9) ≠ p.pattern) :
    ∃ e, decode .request w = .error e := by
  cases hd : decode .request w with
  | error e => exact ⟨e, rfl⟩
  | ok i =>
    obtain ⟨hslot, henc⟩ := encode_of_decodeRequest hd
    obtain ⟨p, hp, hrow⟩ := exists_row_of_request hslot
    have hbits : encode i &&& 0x0FF#9 = w &&& 0x0FF#9 := by
      rcases henc with henc | henc
      · rw [henc]
      · rw [henc, plainWord_lowByte, BitVec.and_assoc, BitVec.and_self]
    exact absurd (hbits.symm.trans hrow) (h p hp)

theorem serveRequest_of_error {run : Instr → State → Host.Outcome State Fault Refusal} {e : DecodeError}
    (h : decode .request w = .error e) : serveRequest run w s
      = .next (raiseFailure (.refused (.unknownSelector (w.setWidth 8))) s) := by
  rw [serveRequest, h]

/-- Settles O3. -/
theorem requestRowsDoNotOverlap : Obligations.RequestRowsDoNotOverlap := by
  unfold Obligations.RequestRowsDoNotOverlap
  decide

/-- Settles O4. -/
theorem writtenOutWordsDecode : Obligations.WrittenOutWordsDecode := by
  unfold Obligations.WrittenOutWordsDecode
  decide

/-- Settles O5: the word is of no row, so it is not decoded, and its refusal is recorded. -/
theorem unlistedSelectorIsRefused : Obligations.UnlistedSelectorIsRefused := by
  intro s r rest hfight hr hunlisted
  obtain ⟨e, he⟩ := decode_unlisted hunlisted
  rcases hr with hr | hr
  · exact (step_of_call hfight hr).trans (serveRequest_of_error he)
  · exact (step_of_post hfight hr).trans (serveRequest_of_error he)

/-! ### The meaning of a wire format -/

/-- A wire byte format is the written byte frame of its encoding (R75, R77 to R79). -/
theorem exec_wireByte (hr : slotOf i ≠ .request) (ha : slotOf i ≠ .ackBit) (s : State) :
    exec i s = sendWireByte ((encode i).setWidth 8) s := by
  have hplain : ∀ b : Byte, sendWireByte b s = sendWireByte ((plainWord b).setWidth 8) s := fun b => by
    rw [plainWord_setWidth]
  cases i with
  | wireAddrWrite a => exact hplain (addrByte a false)
  | wireAddrRead a => exact hplain (addrByte a true)
  | wireCount n =>
    have hcount : countByte n.toNat = n.setWidth 8 := BitVec.ofNat_toNat 8 n
    rw [encode_wireCount, plainWord_setWidth, ← hcount]
    rfl
  | wireCommand b | wireOffsetHigh b | wireOffsetLow b | wireData b => exact hplain b
  | wireAck | wireNack => exact absurd rfl ha
  | _ => exact absurd rfl hr

/-- A wire acknowledgment is the written cell of its one bit (R76). -/
theorem exec_wireAck (hi : i = .wireAck ∨ i = .wireNack) (s : State) :
    exec i s = whenLive s (.next (writeBit ((encode i).getLsbD 0) s)) := by
  rcases hi with rfl | rfl <;> rfl

/-- A listing on a live engine, as a next state and its events. -/
theorem Performed.nextState {sh : List Shape} {p : PerLine PadWord} {ph : Option BusPhase}
    (h : Performed s t sh p ph) (hlive : s.life = .live) :
    ∃ es c j, t = { s with
        pads := p, phase := ph, regs := { s.regs with acked := t.regs.acked }
        trace := s.trace ++ es, instant := j, contention := c }
      ∧ es.map Event.shape = sh := by
  obtain ⟨es, htrace, hshape⟩ := h.eventsOpen (State.traceOpen_of_live hlive)
  exact ⟨es, _, _, htrace ▸ h.frame, hshape⟩

/-- The symbols an observer sees in a listing on a clock held low. -/
theorem symbols_of_shape {es : List Event} {sh : List Shape} (hsh : es.map Event.shape = sh)
    (hscl : (s.pad .scl).txdis = false) : (es.foldl observe (observerAt s)).symbols
      = (sh.foldl observeShape ⟨false, (s.pad .sda).txdis, none, []⟩).symbols := by
  rw [foldl_observe_eq_shape, hsh, observerAt, released, hscl, released]

/-- Settles O53: the format is a byte frame, which `writeByte_false_performed` describes. -/
theorem wireByteSendsItsEncoding : Obligations.WireByteSendsItsEncoding := by
  intro i s _ hr ha hidle hlive
  obtain ⟨hperf, hresult, hacked⟩ := writeByte_false_performed ((encode i).setWidth 8) s
  obtain ⟨es, c, j, hnext, hshape⟩ := hperf.nextState hlive
  rw [hacked, hresult] at hnext
  have hexec := (exec_wireByte hr ha s).trans (whenLive_of_live hidle hlive _)
  refine ⟨es, c, j, _, hexec.trans (congrArg _ hnext), hshape, fun hscl => ?_⟩
  rw [symbols_of_shape hshape hscl, observe_writeByteShape]
  rfl

/-- Settles O54: the format is a bit cell, which `writeBit_performed` describes. -/
theorem wireAckSendsItsBit : Obligations.WireAckSendsItsBit := by
  intro i s hi hidle hlive
  obtain ⟨es, c, j, hnext, hshape⟩ := (writeBit_performed ((encode i).getLsbD 0) s).nextState hlive
  rw [regs_writeBit] at hnext
  have hexec := (exec_wireAck hi s).trans (whenLive_of_live hidle hlive _)
  refine ⟨es, c, j, _, hexec.trans (congrArg _ hnext), hshape, fun hscl => ?_⟩
  rw [symbols_of_shape hshape hscl, observe_writeBitShape]
  rfl

end Sys2Proof.Machine
end

section
/-! The nine requests of GpioLine: the state each answers (40_gpio_line.md R90 to R99), and the fields they write
as bits of the 32-bit word (R93 to R95, R98). -/

namespace Sys2Proof.Machine

open Sys2Proof

variable {s : State} {l : Line}

/-! ### Requests that write no pad -/

theorem whenIdle_of_idle (hidle : s.seq = []) (o : Host.Outcome State Fault Refusal) :
    whenIdle s o = o := if_pos hidle

/-- Settles O14: `open` answers as `openedRegs` says. -/
theorem openAnswersHandleOrIdentityNotFound : Obligations.OpenAnswersHandleOrIdentityNotFound := by
  intro s hidle
  exact (whenIdle_of_idle hidle _).trans (congrArg _ (openIdentity_eq _ s))

/-- A request that reads a line is one read event, and its registers are all it writes (R91). -/
theorem whenIdle_getConfig (hidle : s.seq = []) (l : Line) (r : Registers) :
    whenIdle s (.next { (getConfig l s).2 with regs := r }) = .next { s with
      regs := r
      trace := s.record [.rd l (s.readWord l)]
      instant := s.instant + 1
      contention := s.contention || s.fightsWith s.pads 0 } := whenIdle_of_idle hidle _

/-- Settles O15: CFG takes the word read. -/
theorem getConfigReadsTheLiveWord : Obligations.GetConfigReadsTheLiveWord :=
  fun l _ hidle => ⟨_, _, whenIdle_getConfig hidle l _⟩

/-- Settles O20: BIT takes the input level of the word read, the live one by `readWord`. -/
theorem getRxReadsTheInputLevel : Obligations.GetRxReadsTheInputLevel :=
  fun l _ hidle => ⟨_, _, whenIdle_getConfig hidle l _⟩

/-- Settles O21: BIT takes the output level of the word read, the stored one by `readWord`. -/
theorem getTxReadsTheOutputLevel : Obligations.GetTxReadsTheOutputLevel :=
  fun l _ hidle => ⟨_, _, whenIdle_getConfig hidle l _⟩

/-! ### Requests that write a pad -/

/-- A request that writes a pad answers the state after its write, but for PHASE (R34). -/
theorem whenIdle_settlePhase (hidle : s.seq = []) (u : State) :
    ∃ p, whenIdle s (.next (settlePhase u)) = .next { u with phase := p } := by
  obtain ⟨p, hp⟩ := settlePhase_eq u
  exact ⟨p, (whenIdle_of_idle hidle _).trans (congrArg _ hp)⟩

/-- Settles O16: one write, as `setConfig_eq` has it, and PHASE settled. -/
theorem setConfigWritesTheWord : Obligations.SetConfigWritesTheWord := by
  intro l s hidle
  obtain ⟨p, hp⟩ := whenIdle_settlePhase hidle (setConfig l s.regs.cfg s)
  exact ⟨p, _, _, hp⟩

/-- A request that rewrites a field by `f`, where `f` keeps the input level and treats it as no operand: one
read, one write, and the line's stored word changed by `f` (R99). -/
theorem whenIdle_modify (hidle : s.seq = []) {f : PadWord → PadWord}
    (hf : ∀ w b, f { w with rxlvl := b } = { f w with rxlvl := b }) :
    ∃ p, whenIdle s (.next (settlePhase (modify l f s))) = .next { s with
      pads := s.pads.set l (f (s.pad l))
      trace := s.record [.rd l (s.readWord l), .wr l (f (s.readWord l))]
      phase := p, instant := s.instant + 2, contention := (modify l f s).contention } := by
  obtain ⟨p, hp⟩ := whenIdle_settlePhase hidle (modify l f s)
  refine ⟨p, hp.trans ?_⟩
  rw [modify_eq l f s hf]

/-- Settles O17: `setPadMode` is a `modify` of PMODE. -/
theorem setPadModeRewritesTheMode : Obligations.SetPadModeRewritesTheMode := by
  intro l s hidle
  obtain ⟨p, hexec⟩ := whenIdle_modify (l := l) hidle
    (f := fun w => { w with pmode := s.regs.mode }) (fun _ _ => rfl)
  exact ⟨p, _, _, hexec⟩

/-- Settles O18: `enableRx` is a `modify` of RXDIS. -/
theorem enableRxWritesTheInputDisable : Obligations.EnableRxWritesTheInputDisable := by
  intro l s hidle
  obtain ⟨p, hexec⟩ := whenIdle_modify (l := l) hidle
    (f := fun w => { w with rxdis := !s.regs.flag }) (fun _ _ => rfl)
  exact ⟨p, _, _, hexec⟩

/-- Settles O19: `enableTx` is a `modify` of TXDIS. -/
theorem enableTxWritesTheOutputDisable : Obligations.EnableTxWritesTheOutputDisable := by
  intro l s hidle
  obtain ⟨p, hexec⟩ := whenIdle_modify (l := l) hidle
    (f := fun w => { w with txdis := !s.regs.flag }) (fun _ _ => rfl)
  exact ⟨p, _, _, hexec⟩

/-- Settles O22: `setTx` is a `modify` of TXLVL. -/
theorem setTxWritesTheOutputLevel : Obligations.SetTxWritesTheOutputLevel := by
  intro l s hidle
  obtain ⟨p, hexec⟩ := whenIdle_modify (l := l) hidle
    (f := fun w => { w with txlvl := s.regs.flag }) (fun _ _ => rfl)
  exact ⟨p, _, _, hexec⟩

/-- What `whenIdle_modify` leaves to see: the two events and the two pads. -/
theorem whenIdle_modify_observed (hidle : s.seq = []) {f : PadWord → PadWord}
    (hf : ∀ w b, f { w with rxlvl := b } = { f w with rxlvl := b }) :
    ∃ t, whenIdle s (.next (settlePhase (modify l f s))) = .next t
      ∧ t.trace = s.record [.rd l (s.readWord l), .wr l (f (s.readWord l))]
      ∧ t.instant = s.instant + 2
      ∧ t.pad l = f (s.pad l) ∧ ∀ m, m ≠ l → t.pad m = s.pad m := by
  obtain ⟨p, hnext⟩ := whenIdle_modify (l := l) hidle hf
  exact ⟨_, hnext, rfl, rfl, PerLine.get_set_self s.pads l _, fun m => PerLine.get_set_other s.pads l m _⟩

/-- Settles O23: each of the four is a `modify` of its own field. -/
theorem mutatorsAreOneReadAndOneWrite : Obligations.MutatorsAreOneReadAndOneWrite := by
  intro i l s hidle hi
  rcases hi with rfl | rfl | rfl | rfl
  · obtain ⟨t, hexec, htrace, hinstant, hpad, hother⟩ := whenIdle_modify_observed (l := l) hidle
      (f := fun w => { w with pmode := s.regs.mode }) (fun _ _ => rfl)
    exact ⟨t, _, _, hexec, htrace, hinstant, fun _ => rfl, nofun, nofun, nofun, rfl, hpad, hother⟩
  · obtain ⟨t, hexec, htrace, hinstant, hpad, hother⟩ := whenIdle_modify_observed (l := l) hidle
      (f := fun w => { w with rxdis := !s.regs.flag }) (fun _ _ => rfl)
    exact ⟨t, _, _, hexec, htrace, hinstant, nofun, fun _ => rfl, nofun, nofun, rfl, hpad, hother⟩
  · obtain ⟨t, hexec, htrace, hinstant, hpad, hother⟩ := whenIdle_modify_observed (l := l) hidle
      (f := fun w => { w with txdis := !s.regs.flag }) (fun _ _ => rfl)
    exact ⟨t, _, _, hexec, htrace, hinstant, nofun, nofun, fun _ => rfl, nofun, rfl, hpad, hother⟩
  · obtain ⟨t, hexec, htrace, hinstant, hpad, hother⟩ := whenIdle_modify_observed (l := l) hidle
      (f := fun w => { w with txlvl := s.regs.flag }) (fun _ _ => rfl)
    exact ⟨t, _, _, hexec, htrace, hinstant, nofun, nofun, nofun, fun _ => rfl, rfl, hpad, hother⟩

/-! ### The fields as bits -/

variable {p : PadLayout} {code : PadMode → BitVec 3} {w w' : PadWord} {i : Nat} {b : Bool}

/-- Two pad words whose bits agree but at one position: the way in which each flag is a bit of the word. -/
theorem toBits_eq_replaceBit (hbit : PadWord.bitAt p code w' i = b)
    (hrest : ∀ j, j ≠ i → PadWord.bitAt p code w' j = PadWord.bitAt p code w j) :
    PadWord.toBits p code w' = replaceBit (PadWord.toBits p code w) i b := by
  refine BitVec.eq_of_getLsbD_eq (fun j hj => ?_)
  rw [getLsbD_toBits w' hj, replaceBit, BitVec.getLsbD_ofFnLE, dif_pos hj, getLsbD_toBits w hj]
  split
  next h => exact (congrArg _ h).trans hbit
  next h => exact hrest j h

/-- The mode stands in the three bits of PMODE and in no other, under any layout. -/
theorem toBits_pmode (w : PadWord) (m : PadMode) :
    PadWord.toBits p code { w with pmode := m }
      = replaceField (PadWord.toBits p code w) p.pmodeLsb (code m) := by
  refine BitVec.eq_of_getLsbD_eq (fun j hj => ?_)
  rw [getLsbD_toBits _ hj, replaceField, BitVec.getLsbD_ofFnLE, dif_pos hj, getLsbD_toBits w hj]
  dsimp only [PadWord.bitAt]
  split
  · rfl
  · rfl

/-- Settles O27: PMODE by `toBits_pmode`, each flag by its own bit. -/
theorem fieldWritesAreBitWrites : Obligations.FieldWritesAreBitWrites := by
  intro p code w m b hp
  refine ⟨toBits_pmode w m, toBits_eq_replaceBit (bitAt_rxdis hp _) fun j hj => ?_,
    toBits_eq_replaceBit (bitAt_txdis hp _) fun j hj => ?_,
    toBits_eq_replaceBit (bitAt_txlvl hp _) fun j hj => ?_⟩ <;>
  simp only [PadWord.bitAt, if_neg hj]

end Sys2Proof.Machine
end

section
/-! The requests of the bit engine (41_bit_engine.md R110 to R124): the state each cell and frame answers and
the events it performs, the symbols an observer sees inside a transaction, and what every request keeps
between a construction and its teardown. -/

namespace Sys2Proof.Machine

open Sys2Proof

variable {s t u : State} {sh : List Shape} {p : PerLine PadWord} {ph : Option BusPhase}

/-! ### A listing as a request -/

/-- A listing on a live engine, with its result stored, as the answer of a request. -/
theorem whenLive_performed (hidle : s.seq = []) (hlive : s.life = .live) (h : Performed s u sh p ph)
    (r : Registers) :
    ∃ es c j, whenLive s (.next { u with regs := r }) = .next { s with
        pads := p, phase := ph, regs := r
        trace := s.trace ++ es, instant := j, contention := c }
      ∧ es.map Event.shape = sh := by
  obtain ⟨es, c, j, hnext, hshape⟩ := h.nextState hlive
  refine ⟨es, c, j, (whenLive_of_live hidle hlive _).trans (congrArg _ ?_), hshape⟩
  rw [hnext]

/-- A written bit cell leaves the registers alone. -/
theorem writeBit_withRegs (b : Bool) (s : State) :
    { writeBit b s with regs := s.regs } = writeBit b s := by cases b <;> rfl

/-- A byte frame leaves the registers alone but for ACKED, the negated level of its ninth cell (R29, R121). -/
theorem writeByte_withRegs (f : Frame) (s : State) :
    { (writeByte f.1 f.2 s).2 with regs := { s.regs with acked := !(s.answerAt (frameSample f)) } }
      = (writeByte f.1 f.2 s).2 := by
  obtain ⟨hperf, hresult, hacked⟩ := writeByte_performed f s
  rw [← hresult, ← hacked, ← hperf.regs]

/-- `readByte` stores its byte, and its cells leave the registers alone (R122). -/
theorem exec_readByte (s : State) :
    exec .readByte s = whenLive s (.next { (readByte s.regs.flag s).2 with
      regs := { s.regs with byte := (readByte s.regs.flag s).1 } }) :=
  congrArg (fun r : Registers => whenLive s (.next { (readByte s.regs.flag s).2 with
    regs := { r with byte := (readByte s.regs.flag s).1 } })) (regs_readByte s.regs.flag s)

/-- `drive` is a release or a pull (R113). -/
theorem driveShape_eq (b : Bool) : driveShape b = if b then relShape .sda else lowShape .sda := by
  cases b <;> rfl

/-- Settles O33. -/
theorem delayIsOneEvent : Obligations.DelayIsOneEvent := by
  intro s hidle hlive
  rw [← State.record_of_live hlive]
  exact ⟨_, _, whenLive_of_live hidle hlive _⟩

/-- Settles O34: `start_performed`. -/
theorem startIsItsSevenEvents : Obligations.StartIsItsSevenEvents :=
  fun s hidle hlive => whenLive_performed hidle hlive (start_performed s) s.regs

/-- Settles O35: `stop_performed`. -/
theorem stopIsItsSixEvents : Obligations.StopIsItsSixEvents :=
  fun s hidle hlive => whenLive_performed hidle hlive (stop_performed s) s.regs

/-- Settles O36: `writeBit_performed`, a released data line being a 1. -/
theorem writeBitIsItsFiveEvents : Obligations.WriteBitIsItsFiveEvents := by
  intro s hidle hlive
  obtain ⟨es, c, j, hexec, hshape⟩ :=
    whenLive_performed hidle hlive (writeBit_performed s.regs.bit s) s.regs
  rw [writeBit_withRegs] at hexec
  rw [writeBitShape, driveShape_eq] at hshape
  exact ⟨es, c, j, _, hexec, hshape⟩

/-- Settles O37: `readBit_performed`, and `readBit_value` for the bit stored. -/
theorem readBitIsItsSixEvents : Obligations.ReadBitIsItsSixEvents := by
  intro s hidle hlive
  rw [← readBit_value]
  obtain ⟨es, c, j, hexec, hshape⟩ := whenLive_performed hidle hlive (readBit_performed s)
    { s.regs with bit := (readBit s).1 }
  exact ⟨es, c, j, _, hexec, hshape⟩

/-! ### Delays and accesses of the frames -/

/-- The delays among the shapes of some events. -/
def shapeDelays (sh : List Shape) : Nat := sh.countP (fun e => decide (e = .delay))

theorem shapeDelays_append (sh sh' : List Shape) :
    shapeDelays (sh ++ sh') = shapeDelays sh + shapeDelays sh' := List.countP_append

theorem shapeDelays_writeBit (b : Bool) : shapeDelays (writeBitShape b) = 2 := rfl
theorem shapeDelays_readBit : shapeDelays readBitShape = 2 := rfl
theorem shapeDelays_start : shapeDelays startShape = 3 := rfl

theorem shapeDelays_writeByte (d : Byte) : shapeDelays (writeByteShape d) = 18 := by
  simp only [writeByteShape, writeBitsShape, bitOrder, List.flatMap_cons, List.flatMap_nil,
    shapeDelays_append, shapeDelays_writeBit, shapeDelays_readBit]
  rfl

theorem shapeDelays_frame (f : Frame) : shapeDelays (frameShape f) = frameDelays f := by
  rcases f with ⟨d, _ | _⟩
  · exact shapeDelays_writeByte d
  · exact (shapeDelays_append _ _).trans (congrArg (3 + ·) (shapeDelays_writeByte d))

theorem shapeDelays_readByte (a : Bool) : shapeDelays (readByteShape a) = 18 := by
  rw [readByteShape, shapeDelays_append, shapeDelays_writeBit]
  rfl

/-- Every event is a delay or an access (R202). -/
theorem delayCount_add_accessCount (es : List Event) : delayCount es + accessCount es = es.length := by
  rw [List.length_eq_countP_add_countP Event.isDelay, delayCount, accessCount]
  simp

/-- The delays and accesses of some events, from their shapes (R202). -/
theorem counts_of_shape {es : List Event} (h : es.map Event.shape = sh) :
    delayCount es = shapeDelays sh ∧ accessCount es = sh.length - shapeDelays sh := by
  have hdelays : delayCount es = shapeDelays sh := by rw [delayCount_eq_shape, h, shapeDelays]
  have hlength : es.length = sh.length := by rw [← h, List.length_map]
  have hall := delayCount_add_accessCount es
  omega

/-! ### Byte frames -/

/-- Settles O38: the byte frame of `writeByte_performed`, its counts and its symbols by its shapes. -/
theorem writeByteSendsAByteFrame : Obligations.WriteByteSendsAByteFrame := by
  intro s hidle hlive
  obtain ⟨es, c, j, hexec, hshape⟩ := whenLive_performed hidle hlive
    (writeByte_performed (s.regs.byte, s.regs.flag) s).1
    { s.regs with acked := !(s.answerAt (frameSample (s.regs.byte, s.regs.flag))) }
  rw [writeByte_withRegs] at hexec
  obtain ⟨hdelays, haccesses⟩ := counts_of_shape hshape
  rw [shapeDelays_frame] at hdelays haccesses
  rw [frameShape_length] at haccesses
  refine ⟨es, c, j, _, hexec, hshape, ?_, ?_, fun hbus => ?_⟩
  · rw [hdelays, frameDelays]
    cases s.regs.flag <;> rfl
  · rw [haccesses, frameLength, frameDelays]
    cases s.regs.flag <;> rfl
  · rw [foldl_observe_eq_shape, hshape]
    exact congrArg Observer.symbols (observe_frameShape _ _ _ [] fun hscl => (hbus hscl).symm)

/-- Settles O39: the byte frame of `readByte_performed`, and `readByte_value` for the byte stored. -/
theorem readByteAssemblesAByte : Obligations.ReadByteAssemblesAByte := by
  intro s hidle hlive
  obtain ⟨es, c, j, hexec, hshape⟩ := whenLive_performed hidle hlive (readByte_performed s.regs.flag s)
    { s.regs with byte := (readByte s.regs.flag s).1 }
  obtain ⟨hdelays, haccesses⟩ := counts_of_shape hshape
  rw [shapeDelays_readByte] at hdelays haccesses
  refine ⟨es, c, j, _, _, (exec_readByte s).trans hexec, readByte_value _ s, hshape, hdelays,
    haccesses, fun hscl => ?_⟩
  rw [symbols_of_shape hshape hscl, observe_readByteShape]
  rfl

/-- Settles O41: both directions move bit 7 first (O40). -/
theorem loopbackGivesTheByteBack : Obligations.LoopbackGivesTheByteBack := by
  intro u v s huidle hulive hbus hsent hidle hlive hanswer
  obtain ⟨hwrite, hread⟩ := bitsMoveMostSignificantFirst
  obtain ⟨v', hv', hbits⟩ := hwrite u huidle hulive hbus
  obtain rfl : v = v' := by simpa using hsent.symm.trans hv'
  obtain ⟨t, ht, hbyte⟩ := hread s hidle hlive
  refine ⟨t, ht, BitVec.eq_of_getLsbD_eq fun i hi => ?_⟩
  have hk : 7 - i < 8 := by omega
  have hcell : s.answerAt (9 * (7 - i) + 6) = u.regs.byte.getLsbD (7 - (7 - i)) := by
    simpa using (hanswer _ hk).symm.trans (hbits _ hk)
  have hsame := (hbyte _ hk).trans hcell
  rwa [show 7 - (7 - i) = i by omega] at hsame

/-! ### Inside a transaction -/

/-- An observer of a clock held low sees bits, at least one, in the events of these shapes, and nothing
else. -/
def ShowsBits (sh : List Shape) : Prop :=
  ∃ bs : List Bool, bs ≠ [] ∧
    ∀ d, (sh.foldl observeShape ⟨false, d, none, []⟩).symbols = bs.map Symbol.bit

theorem writeBitShape_showsBits (b : Bool) : ShowsBits (writeBitShape b) :=
  ⟨[b], by simp, fun d => congrArg Observer.symbols (observe_writeBitShape b d [])⟩

theorem readBitShape_showsBits : ShowsBits readBitShape :=
  ⟨[true], by simp, fun d => congrArg Observer.symbols (observe_readBitShape d [])⟩

theorem writeByteShape_showsBits (w : Byte) : ShowsBits (writeByteShape w) :=
  ⟨bitOrder.map (selectBit w) ++ [true], by simp,
    fun d => congrArg Observer.symbols (observe_writeByteShape w d [])⟩

theorem readByteShape_showsBits (a : Bool) : ShowsBits (readByteShape a) :=
  ⟨List.replicate 8 true ++ [!a], by simp,
    fun d => congrArg Observer.symbols (observe_readByteShape a d [])⟩

/-- Between the two states the wire carries bits, at least one, and no condition, and the clock ends pulled
low (R123 (a)). -/
structure CarriesBits (s t : State) : Prop where
  carries : symbolsBetween s t ≠ []
  bits : ∀ y ∈ symbolsBetween s t, ∃ b, y = .bit b
  clockLow : (t.pad .scl).txdis = false

/-- A listing that shows bits, on a live engine with the clock pulled low. -/
theorem ShowsBits.carriesBits {b : Bool} (hsh : ShowsBits sh)
    (h : Performed s t sh (withDrives s.pads false b) ph) (hlive : s.life = .live)
    (hscl : (s.pad .scl).txdis = false) : CarriesBits s t := by
  obtain ⟨bs, hbs, hseen⟩ := hsh
  obtain ⟨es, htrace, hshape⟩ := h.eventsOpen (State.traceOpen_of_live hlive)
  have hsymbols : symbolsBetween s t = bs.map Symbol.bit := by
    rw [symbolsBetween, newEvents, htrace, List.drop_left, symbols_of_shape hshape hscl]
    exact hseen _
  refine ⟨?_, fun y hy => ?_, ?_⟩
  · rwa [hsymbols, ne_eq, List.map_eq_nil_iff]
  · rw [hsymbols] at hy
    obtain ⟨b, -, rfl⟩ := List.mem_map.mp hy
    exact ⟨b, rfl⟩
  · rw [State.pad_scl, h.pads]
    rfl

/-- The registers are not on the wire. -/
theorem CarriesBits.withRegs (h : CarriesBits s t) (r : Registers) :
    CarriesBits s { t with regs := r } := ⟨h.carries, h.bits, h.clockLow⟩

/-- Settles O47: an engine request that is none of those excluded is a cell or a frame without a start. -/
theorem noConditionInsideATransaction : Obligations.NoConditionInsideATransaction := by
  intro i s hengine hidle hlive hscl ⟨hteardown, hstart, hstop, hdelay, hblockWrite, hblockRead,
    hreadAtOffset, hflag⟩
  suffices h : ∃ t, exec i s = .next t ∧ CarriesBits s t by
    obtain ⟨t, hexec, hcarries⟩ := h
    exact ⟨t, hexec, hcarries.carries, hcarries.bits, hcarries.clockLow⟩
  have hnext := whenLive_of_live hidle hlive
  have hbit : ∀ b, CarriesBits s (writeBit b s) := fun b =>
    (writeBitShape_showsBits b).carriesBits (writeBit_performed b s) hlive hscl
  have hbyte : ∀ d, CarriesBits s (writeByte d false s).2 := fun d =>
    (writeByteShape_showsBits d).carriesBits (writeByte_false_performed d s).1 hlive hscl
  cases i with
  | writeBit | wireAck | wireNack => exact ⟨_, hnext _, hbit _⟩
  | readBit =>
    have h := readBitShape_showsBits.carriesBits (readBit_performed s) hlive hscl
    exact ⟨_, hnext _, h.withRegs _⟩
  | readByte =>
    have h := (readByteShape_showsBits s.regs.flag).carriesBits (readByte_performed _ s) hlive hscl
    exact ⟨_, hnext _, h.withRegs _⟩
  | writeByte =>
    have h := hbyte s.regs.byte
    rw [← hflag rfl] at h
    exact ⟨_, hnext _, h⟩
  | wireAddrWrite _ | wireAddrRead _ | wireCommand _ | wireCount _ | wireOffsetHigh _
  | wireOffsetLow _ | wireData _ => exact ⟨_, hnext _, hbyte _⟩
  | teardown => exact absurd rfl hteardown
  | start => exact absurd rfl hstart
  | stop => exact absurd rfl hstop
  | delay => exact absurd rfl hdelay
  | smbusBlockWrite => exact absurd rfl hblockWrite
  | smbusBlockRead => exact absurd rfl hblockRead
  | readAtOffset => exact absurd rfl hreadAtOffset
  | openPad | getConfig _ | setConfig _ | setPadMode _ | enableRx _ | enableTx _ | getRx _ | getTx _
  | setTx _ | construct => cases hengine

/-! ### Every request of the engine -/

/-- Between the two states nothing changes in the pads but the two drives (R33), LIFE stays, and without a
line that can be driven high no fight is recorded. -/
structure DrivesOnly (s t : State) : Prop where
  pads : ∃ a b, t.pads = withDrives s.pads a b
  life : t.life = s.life
  noFight : s.openDrain = true → t.contention = s.contention

theorem Performs.drivesOnly (h : Performs s t) : DrivesOnly s t := by
  obtain ⟨_, _, _, h⟩ := h
  obtain ⟨a, b, hdrives⟩ := h.lines
  exact ⟨⟨a, b, h.pads.trans hdrives⟩, h.life, h.noFight⟩

/-- The registers are not in the pads. -/
theorem DrivesOnly.withRegs (h : DrivesOnly s t) (r : Registers) : DrivesOnly s { t with regs := r } :=
  ⟨h.pads, h.life, h.noFight⟩

/-- Both lines stay configured whatever their drives. -/
theorem DrivesOnly.linesConfigured (h : DrivesOnly s t) : t.linesConfigured = s.linesConfigured := by
  obtain ⟨a, b, hpads⟩ := h.pads
  rw [State.linesConfigured, State.pad_scl, State.pad_sda, hpads]
  rfl

/-- Every engine request but `teardown` is a listing of reads, drives and delays, with a result stored or
without (R123 (c)). -/
theorem exec_drivesOnly {i : Instr} (hi : needsEngine i = true) (ht : i ≠ .teardown)
    (hidle : s.seq = []) (hlive : s.life = .live) : ∃ t, exec i s = .next t ∧ DrivesOnly s t := by
  have hnext := whenLive_of_live hidle hlive
  cases i with
  | start => exact ⟨_, hnext _, Performs.drivesOnly ⟨_, _, _, start_performed s⟩⟩
  | stop => exact ⟨_, hnext _, (stop_performs s).drivesOnly⟩
  | delay => exact ⟨_, hnext _, Performs.drivesOnly ⟨_, _, _, delay_performed s⟩⟩
  | writeBit | wireAck | wireNack =>
    exact ⟨_, hnext _, Performs.drivesOnly ⟨_, _, _, writeBit_performed _ s⟩⟩
  | readBit => exact ⟨_, hnext _, (Performs.drivesOnly ⟨_, _, _, readBit_performed s⟩).withRegs _⟩
  | readByte => exact ⟨_, hnext _, (readByte_performs _ s).drivesOnly.withRegs _⟩
  | writeByte | wireAddrWrite _ | wireAddrRead _ | wireCommand _ | wireCount _ | wireOffsetHigh _
  | wireOffsetLow _ | wireData _ => exact ⟨_, hnext _, (writeByte_performs _ _ s).drivesOnly⟩
  | smbusBlockWrite => exact ⟨_, hnext _, (smbusBlockWrite_performs _ _ _ s).drivesOnly.withRegs _⟩
  | smbusBlockRead => exact ⟨_, hnext _, (smbusBlockRead_performs _ _ s).drivesOnly.withRegs _⟩
  | readAtOffset => exact ⟨_, hnext _, (readAtOffset_performs _ _ _ s).drivesOnly.withRegs _⟩
  | teardown => exact absurd rfl ht
  | openPad | getConfig _ | setConfig _ | setPadMode _ | enableRx _ | enableTx _ | getRx _ | getTx _
  | setTx _ | construct => cases hi

/-- Settles O46. -/
theorem engineChangesDrivesOnly : Obligations.EngineChangesDrivesOnly := by
  intro i s hi ht hidle hlive
  obtain ⟨t, hexec, h⟩ := exec_drivesOnly hi ht hidle hlive
  obtain ⟨a, b, hpads⟩ := h.pads
  exact ⟨t, a, b, hexec, hpads, h.life.trans hlive, h.noFight, h.linesConfigured.trans⟩

/-! ### Between a construction and its teardown -/

/-- A served `construct` ran its listing (R115). -/
theorem construct_of_next (h : exec .construct s = .next t) :
    t = constructWith Config.captureOrder Config.constructOrder s := by
  obtain ⟨-, ht⟩ := idle_of_next h
  split at ht
  · cases ht
  · split at ht
    · cases ht
    · cases ht
      rfl

/-- LIFE is written by `construct` and `teardown` only (R27). -/
theorem life_of_exec {i : Instr} (hc : i ≠ .construct) (ht : i ≠ .teardown) (h : exec i s = .next t) :
    t.life = s.life := by
  cases i with
  | openPad =>
    obtain ⟨-, h⟩ := idle_of_next h
    cases h
    rw [openIdentity_eq]
  | getConfig l | getRx l | getTx l =>
    obtain ⟨-, h⟩ := idle_of_next h
    cases h
    rfl
  | setConfig l | setPadMode l | enableRx l | enableTx l | setTx l =>
    obtain ⟨-, h⟩ := idle_of_next h
    cases h
    exact (settlePhase_frame _).2.2.1
  | construct => exact absurd rfl hc
  | _ =>
    obtain ⟨hidle, hlive, -⟩ := live_of_next h
    obtain ⟨u, hexec, hdrives⟩ := exec_drivesOnly rfl ht hidle hlive
    cases h.symm.trans hexec
    exact hdrives.life

/-- `construct` is refused while Live (R169 (b)). -/
theorem ne_construct_of_live {i : Instr} (hlive : s.life = .live) (h : exec i s = .next t) :
    i ≠ .construct := by
  rintro rfl
  obtain ⟨-, h⟩ := idle_of_next h
  rw [if_pos hlive] at h
  cases h

/-- An engine at rest, with the words `saved` for its teardown. -/
structure Engine (saved : PerLine PadWord) (s : State) : Prop where
  live : s.life = .live
  idle : s.seq = []
  saved : s.saved = saved

/-- Whatever is requested of it but a teardown leaves an engine what it is. -/
theorem exec_engine {saved : PerLine PadWord} {i : Instr} (hs : Engine saved s) (ht : i ≠ .teardown)
    (h : exec i s = .next t) : Engine saved t := by
  have hc := ne_construct_of_live hs.live h
  exact ⟨(life_of_exec hc ht h).trans hs.live, (exec_runs h).2,
    (savedIsWrittenByConstructOnly i s t hc h).trans hs.saved⟩

/-- So does any list of requests without a teardown. -/
theorem runAll_engine {saved : PerLine PadWord} {rs : List (List Load × Instr)} (hs : Engine saved s)
    (hrs : ∀ r ∈ rs, r.2 ≠ .teardown) (h : runAll rs s = .next t) : Engine saved t := by
  induction rs generalizing s with
  | nil =>
    cases h
    exact hs
  | cons r rest ih =>
    obtain ⟨hr, hrest⟩ := List.forall_mem_cons.mp hrs
    have hload : Engine saved (s.handOver r.1) := ⟨hs.live, hs.idle, hs.saved⟩
    rw [runAll] at h
    split at h
    next u hu => exact ih (exec_engine hload hr hu) hrest h
    · cases h
    · cases h

/-- Construction makes an engine with the words it captured (R115). -/
theorem construct_engine (h : exec .construct s = .next t) :
    Engine (capturedWords Config.captureOrder s) t := by
  obtain ⟨es, j, c, heq, -⟩ := constructWith_eq captureOrder_perm constructOrder_perm s
  rw [construct_of_next h, heq]
  exact ⟨rfl, rfl, rfl⟩

/-- Settles O31: the engine of `construct` is kept by the requests between, and its words are the pads as
`construct` found them (`capturedWords_stored`). -/
theorem teardownRestoresWhatConstructFound : Obligations.TeardownRestoresWhatConstructFound := by
  intro s t u rs hconstruct hrun hrs
  have hu := runAll_engine (construct_engine hconstruct) hrs hrun
  obtain ⟨c, j, heq⟩ := teardownWith_eq teardownOrder_perm hu.live
  refine ⟨_, exec_teardown_of_live hu.idle hu.live, by rw [heq], fun l => ?_⟩
  have hword := capturedWords_stored Config.captureOrder s l
  rw [← hu.saved] at hword
  rw [heq]
  cases l <;> exact hword

end Sys2Proof.Machine
end

section
/-! BlockTransfer (42_block_transfer.md R140 to R147): a staged header, a body and one stop as one transfer, the
frames and read bytes an observer sees of it, and the three operations as such transfers. Last, that every
instruction completes where R169 does not refuse it (R146, R170). -/

namespace Sys2Proof.Machine

open Sys2Proof

variable {s t u : State} {sh : List Shape} {p : PerLine PadWord} {ph : Option BusPhase}

/-! ### Frames sent and frames acknowledged -/

/-- Frames after others are sent only if all the others are acknowledged. -/
theorem sentFrames_append (answer : Nat → Bool) (pos : Nat) (l l' : List Frame) :
    sentFrames answer pos (l ++ l') =
      if ackedFrames answer pos l = l.length then
        l ++ sentFrames answer (pos + (l.map frameLength).sum) l'
      else sentFrames answer pos l := by
  induction l generalizing pos with
  | nil => simp [ackedFrames]
  | cons f l ih =>
    by_cases hf : answer (pos + frameSample f) = true
    · simp [sentFrames, ackedFrames, hf]
    · simp only [List.cons_append, sentFrames, ackedFrames, hf, ih, List.length_cons, List.map_cons,
        List.sum_cons, Nat.add_assoc, Nat.add_right_cancel_iff, Bool.false_eq_true, if_false]
      split <;> rfl

/-- Frames after others are acknowledged only if all the others are. -/
theorem ackedFrames_append (answer : Nat → Bool) (pos : Nat) (l l' : List Frame) :
    ackedFrames answer pos (l ++ l') =
      if ackedFrames answer pos l = l.length then
        l.length + ackedFrames answer (pos + (l.map frameLength).sum) l'
      else ackedFrames answer pos l := by
  induction l generalizing pos with
  | nil => simp [ackedFrames]
  | cons f l ih =>
    by_cases hf : answer (pos + frameSample f) = true
    · simp [ackedFrames, hf]
    · simp only [List.cons_append, ackedFrames, hf, ih, List.length_cons, List.map_cons,
        List.sum_cons, Nat.add_assoc, Nat.add_right_cancel_iff, Bool.false_eq_true, if_false]
      split <;> omega

theorem ackedFrames_le (answer : Nat → Bool) (pos : Nat) (l : List Frame) :
    ackedFrames answer pos l ≤ l.length := by
  induction l generalizing pos with
  | nil => exact Nat.le_refl _
  | cons f l ih =>
    rw [ackedFrames]
    split
    · exact Nat.zero_le _
    · exact Nat.succ_le_succ (ih _)

/-- Frames that are all acknowledged are all sent. -/
theorem sentFrames_of_acked {answer : Nat → Bool} {pos : Nat} {l : List Frame}
    (h : ackedFrames answer pos l = l.length) : sentFrames answer pos l = l := by
  have happend := sentFrames_append answer pos l []
  rw [if_pos h, List.append_nil] at happend
  simpa [sentFrames] using happend

/-- The first frame is always sent, and of the others only frames that there are. -/
theorem sentFrames_cons (answer : Nat → Bool) (pos : Nat) (f : Frame) (l : List Frame) :
    ∃ sent, sentFrames answer pos (f :: l) = f :: sent ∧ sent ⊆ l := by
  induction l generalizing pos f with
  | nil => exact ⟨[], by simp [sentFrames], List.Subset.refl _⟩
  | cons g l ih =>
    rw [sentFrames]
    split
    · exact ⟨[], rfl, List.nil_subset _⟩
    · obtain ⟨sent, hsent, hsub⟩ := ih (pos + frameLength f) g
      exact ⟨g :: sent, by rw [hsent], List.cons_subset_cons g hsub⟩

/-- The first frame has a start before it. -/
def BeginsWithStart (l : List Frame) : Prop := ∃ d rest, l = (d, true) :: rest

theorem sentFrames_beginsWithStart (answer : Nat → Bool) (pos : Nat) {l : List Frame}
    (hl : BeginsWithStart l) : BeginsWithStart (sentFrames answer pos l) := by
  obtain ⟨d, rest, rfl⟩ := hl
  obtain ⟨sent, hsent, -⟩ := sentFrames_cons answer pos (d, true) rest
  exact ⟨d, sent, hsent⟩

/-! ### Lengths and counts of a transfer -/

theorem frameShapes_length (l : List Frame) :
    (l.flatMap frameShape).length = (l.map frameLength).sum := by
  simp [List.length_flatMap, frameShape_length]

theorem readShapes_length (bs : List Bool) : (bs.flatMap readByteShape).length = 80 * bs.length := by
  simp [List.length_flatMap, readByteShape_length, Nat.mul_comm]

theorem shapeDelays_frames (l : List Frame) :
    shapeDelays (l.flatMap frameShape) = (l.map frameDelays).sum := by
  induction l with
  | nil => rfl
  | cons f l ih => rw [List.flatMap_cons, shapeDelays_append, shapeDelays_frame, ih, List.map_cons,
      List.sum_cons]

theorem shapeDelays_reads (bs : List Bool) :
    shapeDelays (bs.flatMap readByteShape) = 18 * bs.length := by
  induction bs with
  | nil => rfl
  | cons b bs ih =>
    rw [List.flatMap_cons, shapeDelays_append, shapeDelays_readByte, ih, List.length_cons]
    omega

/-- Every event of a frame is a delay or an access (R202). -/
theorem sum_frameLength (l : List Frame) :
    (l.map frameLength).sum = (l.map frameDelays).sum + (l.map frameAccesses).sum := by
  induction l with
  | nil => rfl
  | cons f l ih =>
    have hf : frameLength f = frameDelays f + frameAccesses f := by rcases f with ⟨d, _ | _⟩ <;> rfl
    simp only [List.map_cons, List.sum_cons, ih, hf]
    omega

theorem ackPattern_length (n : Nat) : (ackPattern n).length = n := by
  cases n <;> simp [ackPattern]

/-- The events of a transfer: frames sent, then bytes read and answered as in `bs`, then one stop (R140). -/
def transferShape (l : List Frame) (bs : List Bool) : List Shape :=
  l.flatMap frameShape ++ bs.flatMap readByteShape ++ stopShape

/-- The symbols of a transfer. -/
def transferSymbols (l : List Frame) (bs : List Bool) : List Symbol :=
  l.flatMap frameSymbols ++ bs.flatMap readFrame ++ [.stopCond]

/-- What some events from `s` on are when they are those of a transfer (R202). -/
structure TransferEvents (s : State) (l : List Frame) (bs : List Bool) (es : List Event) : Prop where
  shape : es.map Event.shape = transferShape l bs
  delays : delayCount es = (l.map frameDelays).sum + 18 * bs.length + 3
  accesses : accessCount es = (l.map frameAccesses).sum + 62 * bs.length + 6
  symbols : ((s.pad .scl).txdis = true → (s.pad .sda).txdis = true) →
    (es.foldl observe (observerAt s)).symbols = transferSymbols l bs

/-- An observer of a released bus, or of a clock held low, sees the symbols of a transfer. -/
theorem observe_transferShape {l : List Frame} (hl : BeginsWithStart l) (bs : List Bool) {c d : Bool}
    (hbus : c = true → d = true) :
    ((transferShape l bs).foldl observeShape ⟨c, d, none, []⟩).symbols = transferSymbols l bs := by
  obtain ⟨w, rest, rfl⟩ := hl
  have hframes := observe_frameShapes ((w, true) :: rest) c d [] (by simp)
    fun hc => ⟨hbus hc, by simp⟩
  obtain ⟨e, hreads⟩ := observe_readShapes bs true (((w, true) :: rest).flatMap frameSymbols)
  rw [transferShape, List.foldl_append, List.foldl_append, hframes, List.nil_append, hreads,
    observe_stopShape, transferSymbols]

theorem transferEvents_of_shape {l : List Frame} (hl : BeginsWithStart l) {bs : List Bool}
    {es : List Event} (hshape : es.map Event.shape = transferShape l bs) :
    TransferEvents s l bs es := by
  obtain ⟨hdelays, haccesses⟩ := counts_of_shape hshape
  have hstop : shapeDelays stopShape = 3 := rfl
  have hstopLength : stopShape.length = 9 := rfl
  have hsum := sum_frameLength l
  rw [transferShape, shapeDelays_append, shapeDelays_append, shapeDelays_frames, shapeDelays_reads,
    hstop] at hdelays haccesses
  rw [List.length_append, List.length_append, frameShapes_length, readShapes_length,
    hstopLength] at haccesses
  refine ⟨hshape, hdelays, by omega, fun hbus => ?_⟩
  rw [foldl_observe_eq_shape, hshape]
  exact observe_transferShape hl bs hbus

/-- A transfer that reads nothing is its frames and the stop. -/
theorem TransferEvents.withoutReads {l : List Frame} {es : List Event} (h : TransferEvents s l [] es) :
    es.map Event.shape = l.flatMap frameShape ++ stopShape
    ∧ delayCount es = 3 + (l.map frameDelays).sum
    ∧ accessCount es = 6 + (l.map frameAccesses).sum
    ∧ (((s.pad .scl).txdis = true → (s.pad .sda).txdis = true) →
        (es.foldl observe (observerAt s)).symbols = l.flatMap frameSymbols ++ [.stopCond]) := by
  have hshape : transferShape l [] = l.flatMap frameShape ++ stopShape := by simp [transferShape]
  have hsymbols : transferSymbols l [] = l.flatMap frameSymbols ++ [.stopCond] := by
    simp [transferSymbols]
  exact ⟨h.shape.trans hshape, h.delays.trans (Nat.add_comm _ _), h.accesses.trans (Nat.add_comm _ _),
    fun hbus => (h.symbols hbus).trans hsymbols⟩

/-- A transfer on a live engine, with its result stored, as the answer of a request. -/
theorem whenLive_transfer {l : List Frame} {bs : List Bool} (hidle : s.seq = []) (hlive : s.life = .live)
    (hl : BeginsWithStart l)
    (h : Performed s u (transferShape l bs) (withDrives s.pads true true) (some .busIdle))
    (r : Registers) :
    ∃ es c j, whenLive s (.next { u with regs := r }) = .next { s with
        pads := withDrives s.pads true true, phase := some .busIdle, regs := r
        trace := s.trace ++ es, instant := j, contention := c }
      ∧ TransferEvents s l bs es := by
  obtain ⟨es, c, j, hexec, hshape⟩ := whenLive_performed hidle hlive h r
  exact ⟨es, c, j, hexec, transferEvents_of_shape hl hshape⟩

/-! ### A staged header, a body, one stop -/

/-- A listing ended by `stop` leaves both lines released and the bus idle (R118). -/
theorem Performed.thenStop (h : Performed s u sh p ph) :
    Performed s (stop u) (sh ++ stopShape) (withDrives s.pads true true) (some .busIdle) := by
  obtain ⟨a, b, hp⟩ := h.lines
  have hstop := h.trans (stop_performed u)
  rwa [h.pads, hp, withDrives_withDrives] at hstop

/-- The form of the three operations: a staged header, the body if every header byte is acknowledged and
`z` as the result if not, one stop on both paths (R140, R141, R143, R145). -/
def headedTransfer {α : Type} (header : List Frame) (z : α) (body : State → α × State) (s : State) :
    α × State :=
  let h := sendHeader .shortCircuit header s
  let r := if h.1 then body h.2 else (z, h.2)
  (r.1, stop r.2)

/-- After the header, all of it acknowledged, `body` performs the events `sh` and answers `x`. -/
def BodyPerforms {α : Type} (s : State) (header : List Frame) (body : State → α × State)
    (sh : List Shape) (x : α) : Prop :=
  ∀ u, Performed s u (header.flatMap frameShape) (withDrives s.pads false true) (some .inTransaction) →
    (∃ p ph, Performed u (body u).2 sh p ph) ∧ (body u).1 = x

/-- The levels the data line reads after a header, counted from its first event. -/
theorem Performed.answerAt_frames {header : List Frame} {m : Nat}
    (h : Performed s u (header.flatMap frameShape) p ph) (hm : (header.map frameLength).sum = m)
    (k : Nat) : u.answerAt k = s.answerAt (m + k) := by
  rw [h.answerAt, frameShapes_length, hm]

/-- A fully acknowledged header leads to the body; either path ends in the stop. -/
theorem headedTransfer_performed {α : Type} {header : List Frame} (hh : BeginsWithStart header) {z x : α}
    {body : State → α × State} (hbody : BodyPerforms s header body sh x) :
    Performed s (headedTransfer header z body s).2
      ((sentFrames s.answerAt 0 header).flatMap frameShape
        ++ (if ackedFrames s.answerAt 0 header = header.length then sh else []) ++ stopShape)
      (withDrives s.pads true true) (some .busIdle)
    ∧ (headedTransfer header z body s).1
        = if ackedFrames s.answerAt 0 header = header.length then x else z := by
  obtain ⟨d, rest, rfl⟩ := hh
  obtain ⟨hheader, hacked⟩ := sendHeader_performed (d, true) rest s (.inl rfl)
  unfold headedTransfer
  by_cases hall : ackedFrames s.answerAt 0 ((d, true) :: rest) = rest.length + 1
  · rw [decide_eq_true hall] at hacked
    rw [sentFrames_of_acked hall] at hheader ⊢
    obtain ⟨⟨_, _, hperf⟩, hresult⟩ := hbody _ hheader
    simp only [hacked, if_true, List.length_cons, hall]
    exact ⟨(hheader.trans hperf).thenStop, hresult⟩
  · rw [decide_eq_false hall] at hacked
    simp only [hacked, if_false, Bool.false_eq_true, List.length_cons, hall, List.append_nil]
    exact ⟨hheader.thenStop, trivial⟩

/-- A header whose body reads bytes, answered as in `bs`. -/
theorem headedRead_performed {header : List Frame} (hh : BeginsWithStart header) {bs : List Bool}
    {out : List Byte} {body : State → List Byte × State}
    (hbody : BodyPerforms s header body (bs.flatMap readByteShape) out) :
    Performed s (headedTransfer header [] body s).2
      (transferShape (sentFrames s.answerAt 0 header)
        (if ackedFrames s.answerAt 0 header = header.length then bs else []))
      (withDrives s.pads true true) (some .busIdle)
    ∧ (headedTransfer header [] body s).1
        = if ackedFrames s.answerAt 0 header = header.length then out else [] := by
  obtain ⟨hperf, hresult⟩ := headedTransfer_performed (z := []) hh hbody
  refine ⟨?_, hresult⟩
  rw [transferShape]
  split at hperf
  next h => rwa [if_pos h]
  next h => rwa [if_neg h]

/-! ### The block write -/

/-- The frames of a payload, none with a start (R141). -/
def dataFrames (payload : List Byte) : List Frame := payload.map fun d => (d, false)

/-- The frames of a block write: its header, then each payload byte (R141). -/
def blockWriteFrames (r : Registers) : List Frame :=
  blockWriteHeader r.addr r.cmd r.txbuf.length ++ dataFrames r.txbuf

theorem blockWriteHeader_beginsWithStart (a : BitVec 7) (c : Byte) (n : Nat) :
    BeginsWithStart (blockWriteHeader a c n) := ⟨_, _, rfl⟩

theorem blockWriteFrames_beginsWithStart (r : Registers) : BeginsWithStart (blockWriteFrames r) :=
  ⟨_, _, rfl⟩

theorem smbusBlockWrite_eq {payload : List Byte} (h : payload.length ≤ 32) (a : BitVec 7) (c : Byte) :
    smbusBlockWrite a c payload =
      headedTransfer (blockWriteHeader a c payload.length) 0 (sendPayload payload 0) :=
  funext fun _ => if_neg (Nat.not_lt.mpr h)

/-- The body of a block write: its payload frames, and the count of those acknowledged (R141). -/
theorem sendPayload_body {header : List Frame} {m : Nat} (hm : (header.map frameLength).sum = m)
    (payload : List Byte) (s : State) :
    BodyPerforms s header (sendPayload payload 0)
      ((sentFrames s.answerAt m (dataFrames payload)).flatMap frameShape)
      (BitVec.ofNat 6 (ackedFrames s.answerAt m (dataFrames payload))) := by
  intro u hu
  obtain ⟨hperf, hcount⟩ := sendPayload_performed payload 0 u (by rw [hu.pads]; rfl) hu.phase
  rw [sentFrames_shift s.answerAt _ _ (hu.answerAt_frames hm)] at hperf
  rw [ackedFrames_shift s.answerAt _ _ (hu.answerAt_frames hm)] at hcount
  exact ⟨⟨_, _, hperf⟩, hcount.trans (BitVec.zero_add _)⟩

/-- A block write of at most 32 bytes, whose header is 230 events, sends its frames up to and with the
first that is not acknowledged, and counts the payload bytes acknowledged before it; 32 fits in COUNT. -/
theorem smbusBlockWrite_performed (h : s.regs.txbuf.length ≤ 32) :
    Performed s (smbusBlockWrite s.regs.addr s.regs.cmd s.regs.txbuf s).2
      (transferShape (sentFrames s.answerAt 0 (blockWriteFrames s.regs)) [])
      (withDrives s.pads true true) (some .busIdle)
    ∧ (smbusBlockWrite s.regs.addr s.regs.cmd s.regs.txbuf s).1.toNat
        = ackedFrames s.answerAt 0 (blockWriteFrames s.regs) - 3 := by
  have hheader := blockWriteHeader_beginsWithStart s.regs.addr s.regs.cmd s.regs.txbuf.length
  have hlength : (blockWriteHeader s.regs.addr s.regs.cmd s.regs.txbuf.length).length = 3 := rfl
  have hevents : ((blockWriteHeader s.regs.addr s.regs.cmd s.regs.txbuf.length).map frameLength).sum
      = 230 := rfl
  have hheaderLe := ackedFrames_le s.answerAt 0
    (blockWriteHeader s.regs.addr s.regs.cmd s.regs.txbuf.length)
  have hpayloadLe := ackedFrames_le s.answerAt 230 (dataFrames s.regs.txbuf)
  rw [dataFrames, List.length_map, ← dataFrames] at hpayloadLe
  obtain ⟨hperf, hcount⟩ := headedTransfer_performed (z := 0) hheader
    (sendPayload_body hevents s.regs.txbuf s)
  rw [smbusBlockWrite_eq h, hcount, blockWriteFrames, sentFrames_append, ackedFrames_append, hevents,
    transferShape, List.flatMap_nil, List.append_nil, Nat.zero_add]
  split at hperf
  next hall =>
    rw [sentFrames_of_acked hall] at hperf
    rw [if_pos hall, if_pos hall, if_pos hall, List.flatMap_append, BitVec.toNat_ofNat]
    exact ⟨hperf, by omega⟩
  next hall =>
    rw [List.append_nil] at hperf
    have hzero : (0 : BitVec 6).toNat = 0 := rfl
    rw [if_neg hall, if_neg hall, if_neg hall, hzero]
    exact ⟨hperf, by omega⟩

/-- A block write stores its count; its frames write ACKED (R141, note 20). -/
theorem exec_smbusBlockWrite (s : State) :
    ∃ a, exec .smbusBlockWrite s = whenLive s (.next
      { (smbusBlockWrite s.regs.addr s.regs.cmd s.regs.txbuf s).2 with
        regs := { s.regs with
          acked := a, count := (smbusBlockWrite s.regs.addr s.regs.cmd s.regs.txbuf s).1 } }) := by
  obtain ⟨a, ha⟩ := (smbusBlockWrite_performs s.regs.addr s.regs.cmd s.regs.txbuf s).regs
  exact ⟨a, by simp only [exec, execSmbusBlockWrite, ha]⟩

/-- Above 32 bytes the answer is 0, with no bus activity (R141, R165). -/
theorem exec_smbusBlockWrite_of_overlong (hidle : s.seq = []) (hlive : s.life = .live)
    (h : 32 < s.regs.txbuf.length) :
    exec .smbusBlockWrite s = .next { s with regs := { s.regs with count := 0 } } := by
  have hop : smbusBlockWrite s.regs.addr s.regs.cmd s.regs.txbuf s = (0, s) := if_pos h
  simp only [exec, execSmbusBlockWrite, hop, whenLive_of_live hidle hlive]

/-- A start is 3 delays and 8 accesses, every frame 18 and 55: of the frames of a block write that are
sent, the first alone has a start (R141, R202). -/
theorem blockWrite_frameCounts (answer : Nat → Bool) (r : Registers) :
    ((sentFrames answer 0 (blockWriteFrames r)).map frameDelays).sum
        = 3 + 18 * (sentFrames answer 0 (blockWriteFrames r)).length
    ∧ ((sentFrames answer 0 (blockWriteFrames r)).map frameAccesses).sum
        = 8 + 55 * (sentFrames answer 0 (blockWriteFrames r)).length := by
  obtain ⟨rest, hframes, hrest⟩ : ∃ rest,
      blockWriteFrames r = (addrByte r.addr Config.rwWrite, true) :: rest ∧ ∀ f ∈ rest, f.2 = false := ⟨_, rfl, by simp [dataFrames]⟩
  obtain ⟨sent, hsent, hsub⟩ := sentFrames_cons answer 0 (addrByte r.addr Config.rwWrite, true) rest
  have hstart : ∀ f ∈ sent, f.2 = false := fun f hf => hrest f (hsub hf)
  have hdelays : sent.map frameDelays = sent.map fun _ => 18 :=
    List.map_congr_left fun f hf => by simp [frameDelays, hstart f hf]
  have haccesses : sent.map frameAccesses = sent.map fun _ => 55 :=
    List.map_congr_left fun f hf => by simp [frameAccesses, hstart f hf]
  rw [hframes, hsent]
  simp only [List.map_cons, List.sum_cons, List.length_cons, hdelays, haccesses, List.map_const',
    List.sum_replicate, frameDelays, frameAccesses, if_true, smul_eq_mul]
  omega

/-- Settles O49: `smbusBlockWrite_performed`, and `blockWrite_frameCounts` for the counts. -/
theorem blockWriteSendsItsFrame : Obligations.BlockWriteSendsItsFrame := by
  intro s hidle hlive
  split
  next hlong => exact exec_smbusBlockWrite_of_overlong hidle hlive hlong
  next hshort =>
    obtain ⟨hperf, hcount⟩ := smbusBlockWrite_performed (Nat.not_lt.mp hshort)
    obtain ⟨a, hexec⟩ := exec_smbusBlockWrite s
    have hbegins := sentFrames_beginsWithStart s.answerAt 0 (blockWriteFrames_beginsWithStart s.regs)
    obtain ⟨es, c, j, hnext, hes⟩ := whenLive_transfer hidle hlive hbegins hperf _
    obtain ⟨hshape, hdelays, haccesses, hsymbols⟩ := hes.withoutReads
    obtain ⟨hframeDelays, hframeAccesses⟩ := blockWrite_frameCounts s.answerAt s.regs
    exact ⟨es, c, j, a, _, hexec.trans hnext, hcount, hsymbols, hshape,
      hdelays.trans (by rw [hframeDelays]; exact (Nat.add_assoc 3 3 _).symm),
      haccesses.trans (by rw [hframeAccesses]; exact (Nat.add_assoc 6 8 _).symm)⟩

/-! ### The reads -/

/-- The body of a raw read: exactly `n` bytes (R145). -/
theorem readData_body {header : List Frame} {m : Nat} (hm : (header.map frameLength).sum = m) (n : Nat)
    (s : State) :
    BodyPerforms s header (readData n []) ((ackPattern n).flatMap readByteShape)
      (sampledBytes s.answerAt m n) := by
  intro u hu
  obtain ⟨hperf, hout⟩ := readData_performed n [] u (.inr hu.phase)
  rw [sampledBytes_shift s.answerAt _ _ (hu.answerAt_frames hm)] at hout
  exact ⟨⟨_, _, hperf⟩, hout⟩

/-- The body of a block read: a length byte, then as many bytes as it says (R143, R144). -/
def readCounted (s : State) : List Byte × State :=
  let n := readByte true s
  readData n.1.toNat [] n.2

/-- The length byte begins where the header ends, and the data 80 events later. -/
theorem readCounted_body {header : List Frame} {m : Nat} (hm : (header.map frameLength).sum = m)
    (s : State) :
    BodyPerforms s header readCounted
      ((true :: ackPattern (sampledByte s.answerAt m).toNat).flatMap readByteShape)
      (sampledBytes s.answerAt (m + 80) (sampledByte s.answerAt m).toNat) := by
  intro u hu
  have hlength := readByte_performed true u
  have hphase : (readByte true u).2.phase = some .inTransaction := by
    rw [hlength.phase, hu.phase, phaseAfterCell_inTransaction]
  have hn : (readByte true u).1 = sampledByte s.answerAt m := by
    rw [readByte_eq_sampledByte, sampledByte_shift s.answerAt _ _ (hu.answerAt_frames hm), Nat.add_zero]
  obtain ⟨hperf, hout⟩ := readData_performed (readByte true u).1.toNat [] (readByte true u).2
    (.inr hphase)
  rw [sampledBytes_shift u.answerAt _ _ hlength.answerAt,
    sampledBytes_shift s.answerAt _ _ (hu.answerAt_frames hm), readByteShape_length] at hout
  rw [← hn]
  exact ⟨⟨_, _, hlength.trans hperf⟩, hout⟩

theorem blockReadHeader_beginsWithStart (a : BitVec 7) (c : Byte) :
    BeginsWithStart (blockReadHeader a c) := ⟨_, _, rfl⟩

theorem offsetReadHeader_beginsWithStart (a : BitVec 7) (o : BitVec 16) :
    BeginsWithStart (offsetReadHeader a o) := ⟨_, _, rfl⟩

theorem smbusBlockRead_eq (a : BitVec 7) (c : Byte) :
    smbusBlockRead a c = headedTransfer (blockReadHeader a c) [] readCounted := rfl

theorem readAtOffset_eq (a : BitVec 7) (o : BitVec 16) (n : Nat) :
    readAtOffset a o n = headedTransfer (offsetReadHeader a o) [] (readData n []) := rfl

/-- A block read, whose header is 241 events. -/
theorem smbusBlockRead_performed (a : BitVec 7) (c : Byte) (s : State) :
    Performed s (smbusBlockRead a c s).2
      (transferShape (sentFrames s.answerAt 0 (blockReadHeader a c))
        (if ackedFrames s.answerAt 0 (blockReadHeader a c) = 3 then
          true :: ackPattern (sampledByte s.answerAt 241).toNat else []))
      (withDrives s.pads true true) (some .busIdle)
    ∧ (smbusBlockRead a c s).1 = if ackedFrames s.answerAt 0 (blockReadHeader a c) = 3 then
        sampledBytes s.answerAt 321 (sampledByte s.answerAt 241).toNat else [] := by
  rw [smbusBlockRead_eq]
  exact headedRead_performed (blockReadHeader_beginsWithStart a c) (readCounted_body (m := 241) rfl s)

/-- A raw read, whose header is 314 events. -/
theorem readAtOffset_performed (a : BitVec 7) (o : BitVec 16) (n : Nat) (s : State) :
    Performed s (readAtOffset a o n s).2
      (transferShape (sentFrames s.answerAt 0 (offsetReadHeader a o))
        (if ackedFrames s.answerAt 0 (offsetReadHeader a o) = 4 then ackPattern n else []))
      (withDrives s.pads true true) (some .busIdle)
    ∧ (readAtOffset a o n s).1 = if ackedFrames s.answerAt 0 (offsetReadHeader a o) = 4 then
        sampledBytes s.answerAt 314 n else [] := by
  rw [readAtOffset_eq]
  exact headedRead_performed (offsetReadHeader_beginsWithStart a o) (readData_body (m := 314) rfl n s)

/-- A block read stores its bytes; its frames write ACKED (R143, note 20). -/
theorem exec_smbusBlockRead (s : State) :
    ∃ a, exec .smbusBlockRead s = whenLive s (.next
      { (smbusBlockRead s.regs.addr s.regs.cmd s).2 with
        regs := { s.regs with
          acked := a, rxbuf := (smbusBlockRead s.regs.addr s.regs.cmd s).1 } }) := by
  obtain ⟨a, ha⟩ := (smbusBlockRead_performs s.regs.addr s.regs.cmd s).regs
  exact ⟨a, by simp only [exec, execSmbusBlockRead, ha]⟩

/-- A raw read stores its bytes; its frames write ACKED (R145, note 20). -/
theorem exec_readAtOffset (s : State) :
    ∃ a, exec .readAtOffset s = whenLive s (.next
      { (readAtOffset s.regs.addr s.regs.offset s.regs.length s).2 with
        regs := { s.regs with
          acked := a, rxbuf := (readAtOffset s.regs.addr s.regs.offset s.regs.length s).1 } }) := by
  obtain ⟨a, ha⟩ := (readAtOffset_performs s.regs.addr s.regs.offset s.regs.length s).regs
  exact ⟨a, by simp only [exec, execReadAtOffset, ha]⟩

/-- Settles O50: `smbusBlockRead_performed`, read off on its two branches. -/
theorem blockReadReadsItsFrame : Obligations.BlockReadReadsItsFrame := by
  intro s hidle hlive
  obtain ⟨hperf, hout⟩ := smbusBlockRead_performed s.regs.addr s.regs.cmd s
  obtain ⟨a, hexec⟩ := exec_smbusBlockRead s
  have hbegins := sentFrames_beginsWithStart s.answerAt 0
    (blockReadHeader_beginsWithStart s.regs.addr s.regs.cmd)
  obtain ⟨es, c, j, hnext, hes⟩ := whenLive_transfer hidle hlive hbegins hperf _
  refine ⟨es, c, j, a, _, hexec.trans hnext, ?_⟩
  by_cases hall : ackedFrames s.answerAt 0 (blockReadHeader s.regs.addr s.regs.cmd) = 3
  · rw [if_pos hall, sentFrames_of_acked hall] at hes
    rw [if_pos hall] at hout
    have hframeDelays : ((blockReadHeader s.regs.addr s.regs.cmd).map frameDelays).sum = 60 := rfl
    have hframeAccesses : ((blockReadHeader s.regs.addr s.regs.cmd).map frameAccesses).sum = 181 := rfl
    refine (if_pos hall).mpr ⟨hout, ?_, ?_, ?_, fun hbus => ?_⟩
    · rw [hes.shape, transferShape, List.flatMap_cons, ← List.append_assoc]
      rfl
    · rw [hes.delays, hframeDelays, List.length_cons, ackPattern_length]
      omega
    · rw [hes.accesses, hframeAccesses, List.length_cons, ackPattern_length]
      omega
    · rw [hes.symbols hbus, transferSymbols, List.flatMap_cons, ← List.append_assoc]
      rfl
  · rw [if_neg hall] at hes hout
    exact (if_neg hall).mpr ⟨hout, hes.withoutReads⟩

/-- Settles O51: `readAtOffset_performed`, read off on its two branches. -/
theorem readAtOffsetReadsItsFrame : Obligations.ReadAtOffsetReadsItsFrame := by
  intro s hidle hlive
  obtain ⟨hperf, hout⟩ := readAtOffset_performed s.regs.addr s.regs.offset s.regs.length s
  obtain ⟨a, hexec⟩ := exec_readAtOffset s
  have hbegins := sentFrames_beginsWithStart s.answerAt 0
    (offsetReadHeader_beginsWithStart s.regs.addr s.regs.offset)
  obtain ⟨es, c, j, hnext, hes⟩ := whenLive_transfer hidle hlive hbegins hperf _
  refine ⟨es, c, j, a, _, hexec.trans hnext, ?_⟩
  by_cases hall : ackedFrames s.answerAt 0 (offsetReadHeader s.regs.addr s.regs.offset) = 4
  · rw [if_pos hall, sentFrames_of_acked hall] at hes
    rw [if_pos hall] at hout
    refine (if_pos hall).mpr ⟨hout, hes.shape, ?_, ?_, hes.symbols⟩
    · rw [hes.delays, ackPattern_length, Nat.add_right_comm]
      rfl
    · rw [hes.accesses, ackPattern_length, Nat.add_right_comm]
      rfl
  · rw [if_neg hall] at hes hout
    exact (if_neg hall).mpr ⟨hout, hes.withoutReads⟩

/-! ### One transaction -/

/-- A transfer on the wire: a start first, a stop last and no other stop (R140, R146). -/
theorem transferSymbols_oneTransaction {l : List Frame} (hl : BeginsWithStart l) (bs : List Bool) :
    (transferSymbols l bs).head? = some .startCond
    ∧ (transferSymbols l bs).getLast? = some .stopCond
    ∧ (transferSymbols l bs).count .stopCond = 1 := by
  have hframes : Symbol.stopCond ∉ l.flatMap frameSymbols := by
    simp only [List.mem_flatMap, not_exists, not_and]
    rintro ⟨d, _ | _⟩ - <;> simp [frameSymbols, writtenByte]
  have hreads : Symbol.stopCond ∉ bs.flatMap readFrame := by simp [readFrame]
  refine ⟨?_, by simp [transferSymbols], ?_⟩
  · obtain ⟨d, rest, rfl⟩ := hl
    rfl
  · simp [transferSymbols, List.count_append, List.count_eq_zero_of_not_mem hframes,
      List.count_eq_zero_of_not_mem hreads]

/-- The three operations on a live engine, a block write of at most 32 bytes, are transfers. -/
theorem exec_transfer {i : Instr}
    (hi : (i = .smbusBlockWrite ∧ s.regs.txbuf.length ≤ 32) ∨ i = .smbusBlockRead ∨ i = .readAtOffset) :
    ∃ l bs u r, BeginsWithStart l ∧ exec i s = whenLive s (.next { u with regs := r })
      ∧ Performed s u (transferShape l bs) (withDrives s.pads true true) (some .busIdle) := by
  rcases hi with ⟨rfl, hlen⟩ | rfl | rfl
  · obtain ⟨a, hexec⟩ := exec_smbusBlockWrite s
    exact ⟨_, _, _, _, sentFrames_beginsWithStart _ _ (blockWriteFrames_beginsWithStart _), hexec,
      (smbusBlockWrite_performed hlen).1⟩
  · obtain ⟨a, hexec⟩ := exec_smbusBlockRead s
    exact ⟨_, _, _, _, sentFrames_beginsWithStart _ _ (blockReadHeader_beginsWithStart _ _), hexec,
      (smbusBlockRead_performed _ _ s).1⟩
  · obtain ⟨a, hexec⟩ := exec_readAtOffset s
    exact ⟨_, _, _, _, sentFrames_beginsWithStart _ _ (offsetReadHeader_beginsWithStart _ _), hexec,
      (readAtOffset_performed _ _ _ s).1⟩

/-- Settles O52: `exec_transfer` and `transferSymbols_oneTransaction`. -/
theorem transferIsOneTransaction : Obligations.TransferIsOneTransaction := by
  intro i s hidle hlive hbus hi
  obtain ⟨l, bs, u, r, hl, hexec, hperf⟩ := exec_transfer hi
  obtain ⟨es, c, j, hnext, hes⟩ := whenLive_transfer hidle hlive hl hperf r
  obtain ⟨hhead, hlast, hcount⟩ := transferSymbols_oneTransaction hl bs
  refine ⟨_, hexec.trans hnext, ?_⟩
  rw [symbolsBetween, newEvents, List.drop_left, hes.symbols hbus]
  exact ⟨hhead, hlast, hcount, rfl, rfl, rfl⟩

/-! ### Every instruction -/

/-- The host's acts to come and the environment's answers are the same in both states. -/
structure SameInputs (s t : State) : Prop where
  requests : t.requests = s.requests
  slave : t.slave = s.slave

theorem SameInputs.trans (h : SameInputs s t) (h' : SameInputs t u) : SameInputs s u :=
  ⟨h'.requests.trans h.requests, h'.slave.trans h.slave⟩

/-- A loop of steps. -/
theorem SameInputs.foldl {α : Type} {F : State → α → State} (hF : ∀ t a, SameInputs t (F t a))
    (as : List α) (s : State) : SameInputs s (as.foldl F s) := by
  induction as generalizing s with
  | nil => exact ⟨rfl, rfl⟩
  | cons a as ih => exact (hF s a).trans (ih (F s a))

theorem Performs.sameInputs (h : Performs s t) : SameInputs s t := by
  obtain ⟨_, _, _, h⟩ := h
  exact ⟨h.requests, h.slave⟩

/-- The registers are no input. -/
theorem SameInputs.withRegs (h : SameInputs s t) (r : Registers) : SameInputs s { t with regs := r } :=
  ⟨h.requests, h.slave⟩

theorem settlePhase_sameInputs (s : State) : SameInputs s (settlePhase s) := by
  obtain ⟨q, hq⟩ := settlePhase_eq s
  rw [hq]
  exact ⟨rfl, rfl⟩

theorem constructWith_sameInputs (captures : List Line) (settings : List (Line × PadSetting)) (s : State) :
    SameInputs s (constructWith captures settings s) := by
  have hcaptures := SameInputs.foldl (F := fun t l => capture l t) (fun _ _ => ⟨rfl, rfl⟩) captures
    s.underConstruction
  have hsettings := applySettings_settled settings
    (captures.foldl (fun t l => capture l t) s.underConstruction)
  exact ⟨hsettings.requests.trans hcaptures.requests, hsettings.slave.trans hcaptures.slave⟩

/-- An instruction that R169 does not refuse answers a state with the same inputs. -/
theorem exec_completes {i : Instr} (hidle : s.seq = []) (hengine : needsEngine i = true → s.life = .live)
    (hconstruct : i = .construct →
      s.life = .absent ∧ (s.regs.clock = none ∨ s.regs.clock ≠ s.regs.data)) :
    ∃ t, exec i s = .next t ∧ SameInputs s t := by
  have hnext := whenIdle_of_idle hidle
  have hlive := fun h => whenLive_of_live hidle (hengine h)
  cases i with
  | openPad => exact ⟨_, hnext _, by rw [openIdentity_eq]; exact ⟨rfl, rfl⟩⟩
  | getConfig _ | getRx _ | getTx _ => exact ⟨_, hnext _, rfl, rfl⟩
  | setConfig l =>
    exact ⟨_, hnext _, SameInputs.trans (t := setConfig l s.regs.cfg s) ⟨rfl, rfl⟩
      (settlePhase_sameInputs _)⟩
  | setPadMode l | enableRx l | enableTx l | setTx l =>
    exact ⟨_, hnext _, SameInputs.trans (t := modify l _ s) ⟨rfl, rfl⟩ (settlePhase_sameInputs _)⟩
  | construct =>
    obtain ⟨habsent, hpads⟩ := hconstruct rfl
    exact ⟨_, exec_construct_of_absent hidle habsent hpads, constructWith_sameInputs _ _ s⟩
  | teardown =>
    have hwrites := SameInputs.foldl (F := fun t l => setConfig l (t.saved.get l) t)
      (fun _ _ => ⟨rfl, rfl⟩) Config.teardownOrder s
    exact ⟨_, hlive rfl _, hwrites.requests, hwrites.slave⟩
  | start => exact ⟨_, hlive rfl _, Performs.sameInputs ⟨_, _, _, start_performed s⟩⟩
  | stop => exact ⟨_, hlive rfl _, (stop_performs s).sameInputs⟩
  | delay => exact ⟨_, hlive rfl _, Performs.sameInputs ⟨_, _, _, delay_performed s⟩⟩
  | writeBit | wireAck | wireNack =>
    exact ⟨_, hlive rfl _, Performs.sameInputs ⟨_, _, _, writeBit_performed _ s⟩⟩
  | readBit =>
    exact ⟨_, hlive rfl _, (Performs.sameInputs ⟨_, _, _, readBit_performed s⟩).withRegs _⟩
  | readByte => exact ⟨_, hlive rfl _, (readByte_performs _ s).sameInputs.withRegs _⟩
  | writeByte | wireAddrWrite _ | wireAddrRead _ | wireCommand _ | wireCount _ | wireOffsetHigh _
  | wireOffsetLow _ | wireData _ => exact ⟨_, hlive rfl _, (writeByte_performs _ _ s).sameInputs⟩
  | smbusBlockWrite =>
    exact ⟨_, hlive rfl _, (smbusBlockWrite_performs _ _ _ s).sameInputs.withRegs _⟩
  | smbusBlockRead => exact ⟨_, hlive rfl _, (smbusBlockRead_performs _ _ s).sameInputs.withRegs _⟩
  | readAtOffset => exact ⟨_, hlive rfl _, (readAtOffset_performs _ _ _ s).sameInputs.withRegs _⟩

/-- Settles O12: `exec_completes`; SEQ is Idle by `exec_runs`, and the instants only go on by
`exec_served`. -/
theorem everyInstructionCompletes : Obligations.EveryInstructionCompletes := by
  intro i s hidle hengine hconstruct
  obtain ⟨t, hexec, hinputs⟩ := exec_completes hidle hengine hconstruct
  obtain ⟨es, hinstant, -⟩ := (exec_served hexec).events
  exact ⟨t, hexec, (exec_runs hexec).2, hinputs.requests, hinputs.slave, hinstant ▸ Nat.le_add_right _ _⟩

end Sys2Proof.Machine
end

section
/-! Refusals and faults of `exec` (60_exceptions.md R165 to R172): every meaning is guarded by SEQ being Idle,
behind the guard nothing faults, and a refusal has the reason of the first ground that applies. -/

namespace Sys2Proof.Machine

open Sys2Proof

variable {s : State}

theorem whenIdle_of_busy (hbusy : s.seq ≠ []) (o : Host.Outcome State Fault Refusal) :
    whenIdle s o = .refused .busy := if_neg hbusy

theorem whenIdle_noFault {o : Host.Outcome State Fault Refusal} (ho : ∀ f, o ≠ .fault f) (f : Fault) :
    whenIdle s o ≠ .fault f := by
  unfold whenIdle
  split
  · exact ho f
  · nofun

/-- An operation of the engine completes or is refused as `engineAbsent` (R169 (a)). -/
theorem liveOrAbsent_noFault (t : State) (f : Fault) :
    (if s.life = .live then .next t else .refused .engineAbsent : Host.Outcome State Fault Refusal)
      ≠ .fault f := by
  split <;> nofun

/-- Behind its guard a construction completes or is refused on a ground of R169 (b). -/
theorem exec_construct_whenIdle (s : State) :
    ∃ o, exec .construct s = whenIdle s o ∧ ∀ f, o ≠ .fault f := by
  refine ⟨_, rfl, fun f => ?_⟩
  split
  · nofun
  · split <;> nofun

/-- The guard of R169 (d) stands before the meaning of every instruction, and no meaning is a fault
(R167, R172). -/
theorem exec_whenIdle (i : Instr) (s : State) :
    ∃ o, exec i s = whenIdle s o ∧ ∀ f, o ≠ .fault f := by
  cases i with
  | openPad | getConfig _ | setConfig _ | setPadMode _ | enableRx _ | enableTx _ | getRx _ | getTx _
  | setTx _ => exact ⟨_, rfl, nofun⟩
  | construct => exact exec_construct_whenIdle s
  | _ => exact ⟨_, rfl, liveOrAbsent_noFault _⟩

/-- Settles O13: `exec_whenIdle`, the guard adding a refusal only. -/
theorem noOperationFaults : Obligations.NoOperationFaults := by
  intro i s f
  obtain ⟨o, hexec, ho⟩ := exec_whenIdle i s
  rw [hexec]
  exact whenIdle_noFault ho f

/-- Settles O9: the guard of `exec_whenIdle` is tried before every other ground of R169 (note 22). -/
theorem requestWhileBusyIsRefused : Obligations.RequestWhileBusyIsRefused := by
  intro i s hbusy
  obtain ⟨o, hexec, -⟩ := exec_whenIdle i s
  exact hexec.trans (whenIdle_of_busy hbusy o)

/-- One identity handed over for both lines is one pad (R169 (b); note 19: a handle is its identity). -/
theorem samePad_of_eq {r : Registers} {p : PadId} (hclock : r.clock = some p) (hdata : r.data = some p) :
    samePad r = true := by
  simp [samePad, hclock, hdata]

/-- A live engine is the ground tried first, whatever pads were handed over (note 22). -/
theorem exec_construct_of_live (hidle : s.seq = []) (hlive : s.life = .live) :
    exec .construct s = .refused .engineLive :=
  (whenIdle_of_idle hidle _).trans (if_pos hlive)

theorem exec_construct_of_samePad (hidle : s.seq = []) (habsent : s.life = .absent)
    (hsame : samePad s.regs = true) : exec .construct s = .refused .samePad := by
  have hlife : s.life ≠ .live := by simp [habsent]
  exact (whenIdle_of_idle hidle _).trans ((if_neg hlife).trans (if_pos hsame))

/-- Settles O11: the two grounds of R169 (b). -/
theorem senselessConstructIsRefused : Obligations.SenselessConstructIsRefused :=
  ⟨fun _ => exec_construct_of_live,
    fun _ _ hidle habsent hclock hdata =>
      exec_construct_of_samePad hidle habsent (samePad_of_eq hclock hdata)⟩

/-- Settles O48: the branch of a block write above 32 bytes. -/
theorem overlongBlockWriteOnlyAnswersZero : Obligations.OverlongBlockWriteOnlyAnswersZero :=
  fun _ hidle hlive hlong => exec_smbusBlockWrite_of_overlong hidle hlive hlong

end Sys2Proof.Machine
end
